-- ==== Sys2Proof/Word.lean ====
section
/-!
DEFINITION. The two machine words of 0x: bytes of memory and 32-bit register values (R3, R10, R30).
-/

namespace Sys2Proof

/-- One byte of main memory or of the device space (R30, R36). -/
abbrev Byte := BitVec 8

/-- A 32-bit register value, constant or address (R3, R4). Unsigned: a rule's number is its `toNat`. -/
abbrev Word := BitVec 32

end Sys2Proof
end

