-- ==== Sys2Proof/Config.lean ====
section
/-!
DEFINITION. The implementation parameters of R2 (`00_scope.md`) that stay fixed for a whole run, and the
free functions that stand for a platform's own device (R36). A machine's `Config` is a field of its state
which no step changes, so a claim about every state is a claim about every value of the parameters.
-/

namespace Sys2Proof

/-- `BYTE_ORDER` (R31): which of a word's four bytes stands at the lowest address. -/
inductive ByteOrder where
  | big
  | little
deriving DecidableEq, Repr

/-- `SUBWR_OPCODE` (R61): SUBWR has the opcode `0x24`, or no opcode at all. -/
inductive SubwrOpcode where
  | at24
  | none
deriving DecidableEq, Repr

/-- `DEV` (R36): the reference byte store of `DISK_SIZE` bytes, or a platform's own device, of which the
model assumes nothing but R36's interface. -/
inductive DeviceKind where
  | byteStore
  | platform
deriving DecidableEq, Repr

/-- One transfer a platform's device has served: `n` bytes read from device address `a`, or the bytes `bs`
written there. -/
inductive DevEvent where
  | read (a n : Nat)
  | write (a : Nat) (bs : List Byte)
deriving DecidableEq, Repr

/-- The parameters of R2 that a step consults. The other four (`MEM_INIT`, `PC_RESET`, `SP_RESET`,
`REG_RESET`) only build the launch state: `Sys2Proof.Machine.Launch`. -/
structure Config where
  /-- `MEM_SIZE`, in bytes; `1 .. 2^32`. -/
  memSize : Nat
  /-- `BYTE_ORDER`. -/
  byteOrder : ByteOrder
  /-- `SUBWR_OPCODE`. -/
  subwrOpcode : SubwrOpcode
  /-- `DEV`. -/
  device : DeviceKind
  /-- `DISK_SIZE`, in bytes; `0 .. 2^32`. -/
  diskSize : Nat
  /-- `DISPLAY_SIZE`, carried and used by no rule (R2). -/
  displaySize : Nat
deriving DecidableEq, Repr

/-- The ranges of R2: a launch outside them is refused (U20 of `93_implementation_defined.md`). -/
abbrev Config.wf (c : Config) : Prop :=
  1 ≤ c.memSize ∧ c.memSize ≤ 2 ^ 32 ∧ c.diskSize ≤ 2 ^ 32

/-- The parameters of the model's reset. `byteOrder`, `subwrOpcode` and `device` are R2's defaults; the
three sizes have no default in R2. DESIGN CHOICE (log entries 1, 4, 6), unsafe. -/
def Config.reset : Config where
  memSize := 2 ^ 32
  byteOrder := .big
  subwrOpcode := .at24
  device := .byteStore
  diskSize := 2 ^ 32
  displaySize := 0

/-- FREE VALUE (log entry 5): whether a platform's device accepts a transfer of `n > 0` bytes at device
address `a` (`DevValid` of R36). -/
opaque Config.platformAccepts (a n : Nat) : Bool

/-- FREE VALUE (log entry 5): byte `i` of the `n` bytes that a platform's device with this history
answers when read at device address `a` (`DevRead` of R36). -/
opaque Config.platformByte (history : List DevEvent) (a n i : Nat) : Byte

end Sys2Proof
end

