-- ==== Sys2Proof/Syntax.lean ====
section
/-!
DEFINITION. The instructions of 0x as syntax: one constructor per row of `spec/opcode_table.json`, with the
operands in the order of the Syntax rows (R63), which is the order of the parameter fields (R50).
-/

namespace Sys2Proof

/-- The number of a general register, `R0` to `R7` (R10, R56). A field byte above 7 names no register and
never becomes a `Reg`: the decoder refuses it. -/
abbrev Reg := Fin 8

/-- The number of a bit of SR, `S0` to `Sx` (R57). A field byte above 31 is refused by the decoder. -/
abbrev StatusBit := Fin 32

/-- The 75 instructions, in opcode order (R59). Capital letters are the source's operand letters: `K` a
32-bit constant, `k` a 32-bit address, `Md` and `Mo` addresses of pointer words. -/
inductive Instr where
  /-- NOP (R71). -/
  | nop
  /-- JMP (R153). -/
  | jmp (k : Word)
  /-- CALL (R154). -/
  | call (k : Word)
  /-- CALLR (R155). -/
  | callr (R : Reg)
  /-- RET (R156). -/
  | ret
  /-- POP (R89). -/
  | pop (Rd : Reg)
  /-- MOVR (R73). -/
  | movr (K : Word) (Rd : Reg)
  /-- MOVM (R74). -/
  | movm (K : Word) (k : Word)
  /-- MOVRR (R75). -/
  | movrr (Ro : Reg) (Rd : Reg)
  /-- MOVRM (R76). -/
  | movrm (Ro : Reg) (k : Word)
  /-- MOVMR (R77). -/
  | movmr (k : Word) (Rd : Reg)
  /-- PUSH (R90). -/
  | push (K : Word)
  /-- PUSHR (R91). -/
  | pushr (Ro : Reg)
  /-- MOVRPR (R78). -/
  | movrpr (Ro : Reg) (Rd : Reg)
  /-- MOVROR (R79). -/
  | movror (Ro : Reg) (K : Word) (Rd : Reg)
  /-- LOAD (R81). -/
  | load (Ro : Reg) (R : Reg) (k : Word)
  /-- LOADR (R82). -/
  | loadr (Ro : Reg) (R : Reg) (Rd : Reg)
  /-- LOADM (R83). -/
  | loadm (Ro : Reg) (R : Reg) (Md : Word)
  /-- STORE (R84). -/
  | store (k : Word) (R : Reg) (Rd : Reg)
  /-- STORER (R85). -/
  | storer (Ro : Reg) (R : Reg) (Rd : Reg)
  /-- STOREM (R86). -/
  | storem (Mo : Word) (R : Reg) (Rd : Reg)
  /-- ADD (R94). -/
  | add (K : Word) (R : Reg)
  /-- ADDR (R95). -/
  | addr (R1 : Reg) (R2 : Reg)
  /-- SUB (R96). -/
  | sub (R : Reg) (K : Word)
  /-- SUBR (R98). -/
  | subr (R1 : Reg) (R2 : Reg)
  /-- SUBWR (R97). -/
  | subwr (K : Word) (R : Reg)
  /-- MULT (R99). -/
  | mult (K : Word) (R : Reg)
  /-- MULTR (R100). -/
  | multr (R1 : Reg) (R2 : Reg)
  /-- DIV (R101). -/
  | div (R : Reg) (K : Word)
  /-- DIVWR (R102). -/
  | divwr (K : Word) (R : Reg)
  /-- DIVR (R103). -/
  | divr (R1 : Reg) (R2 : Reg)
  /-- INC (R104). -/
  | inc (Rd : Reg)
  /-- DEC (R105). -/
  | dec (Rd : Reg)
  /-- BRBS (R126). -/
  | brbs (Sb : StatusBit) (k : Word)
  /-- BRBC (R127). -/
  | brbc (Sb : StatusBit) (k : Word)
  /-- BREQ (R128). -/
  | breq (K : Word) (k : Word)
  /-- BREQR (R129). -/
  | breqr (R : Reg) (k : Word)
  /-- BREQRW (R130). -/
  | breqrw (R : Reg) (K : Word) (k : Word)
  /-- BREQRR (R131). -/
  | breqrr (R1 : Reg) (R2 : Reg) (k : Word)
  /-- BRNQ (R132). -/
  | brnq (K : Word) (k : Word)
  /-- BRNQR (R133). -/
  | brnqr (R : Reg) (k : Word)
  /-- BRNQRW (R134). -/
  | brnqrw (R : Reg) (K : Word) (k : Word)
  /-- BRNQRR (R135). -/
  | brnqrr (R1 : Reg) (R2 : Reg) (k : Word)
  /-- BRLT (R136). -/
  | brlt (K : Word) (k : Word)
  /-- BRLTR (R137). -/
  | brltr (R : Reg) (k : Word)
  /-- BRLTRW (R138). -/
  | brltrw (R : Reg) (K : Word) (k : Word)
  /-- BRLTRR (R139). -/
  | brltrr (R1 : Reg) (R2 : Reg) (k : Word)
  /-- BRGT (R140). -/
  | brgt (K : Word) (k : Word)
  /-- BRGTR (R141). -/
  | brgtr (R : Reg) (k : Word)
  /-- BRGTRW (R142). -/
  | brgtrw (R : Reg) (K : Word) (k : Word)
  /-- BRGTRR (R143). -/
  | brgtrr (R1 : Reg) (R2 : Reg) (k : Word)
  /-- BRLTE (R144). -/
  | brlte (K : Word) (k : Word)
  /-- BRLTER (R145). -/
  | brlter (R : Reg) (k : Word)
  /-- BRLTERW (R146). -/
  | brlterw (R : Reg) (K : Word) (k : Word)
  /-- BRLTERR (R147). -/
  | brlterr (R1 : Reg) (R2 : Reg) (k : Word)
  /-- BRGTE (R148). -/
  | brgte (K : Word) (k : Word)
  /-- BRGTER (R149). -/
  | brgter (R : Reg) (k : Word)
  /-- BRGTERW (R150). -/
  | brgterw (R : Reg) (K : Word) (k : Word)
  /-- BRGTERR (R151). -/
  | brgterr (R1 : Reg) (R2 : Reg) (k : Word)
  /-- LSF (R108). -/
  | lsf (Rd : Reg) (K : Word)
  /-- LSFR (R109). -/
  | lsfr (Rd : Reg) (R : Reg)
  /-- RSF (R110). -/
  | rsf (Rd : Reg) (K : Word)
  /-- RSFR (R111). -/
  | rsfr (Rd : Reg) (R : Reg)
  /-- WLSF (R112). -/
  | wlsf (Rd : Reg) (K : Word)
  /-- WLSFR (R113). -/
  | wlsfr (Rd : Reg) (R : Reg)
  /-- WRSF (R114). -/
  | wrsf (Rd : Reg) (K : Word)
  /-- WRSFR (R115). -/
  | wrsfr (Rd : Reg) (R : Reg)
  /-- AND (R117). -/
  | and (Rd : Reg) (K : Word)
  /-- ANDR (R118). -/
  | andr (Rd : Reg) (R : Reg)
  /-- OR (R119). -/
  | or (Rd : Reg) (K : Word)
  /-- ORR (R120). -/
  | orr (Rd : Reg) (R : Reg)
  /-- XOR (R121). -/
  | xor (Rd : Reg) (K : Word)
  /-- XORR (R122). -/
  | xorr (Rd : Reg) (R : Reg)
  /-- NOT (R123). -/
  | not (Rd : Reg)
  /-- HALT (R70). -/
  | halt
deriving DecidableEq, Repr

end Sys2Proof
end

