-- ==== Sys2Proof/WellFormed.lean ====
section
/-!
DEFINITION. When an instruction can be encoded under a given configuration. Register and status-bit operands
are numbers in range by their types (R56, R57) and a word operand has no illegal value (R60), so the one
check left is that SUBWR has an opcode at all (R61).
-/

namespace Sys2Proof

/-- The instruction is SUBWR. -/
def Instr.isSubwr : Instr → Bool
  | .subwr _ _ => true
  | _ => false

/-- R61: with `SUBWR_OPCODE = none` SUBWR cannot be encoded; every other instruction always can. -/
abbrev WellFormed (c : Config) (i : Instr) : Prop :=
  i.isSubwr = true → c.subwrOpcode = .at24

end Sys2Proof
end

