-- ==== Sys2Proof/Decode.lean ====
section
/-!
DEFINITION. The encoding of `30_encoding.md`: byte order of a word field, the thirteen formats, the opcode map,
the decoder (total on any bytes, refusing by name) and the encoder.
-/

namespace Sys2Proof

/-! ### Words as bytes (R31, R52) -/

/-- The four bytes of a word in memory order, lowest address first (R31). -/
def wordBytes (o : ByteOrder) (v : Word) : List Byte :=
  match o with
  | .big => [v.extractLsb' 24 8, v.extractLsb' 16 8, v.extractLsb' 8 8, v.extractLsb' 0 8]
  | .little => [v.extractLsb' 0 8, v.extractLsb' 8 8, v.extractLsb' 16 8, v.extractLsb' 24 8]

/-- The word whose four bytes are `b0 b1 b2 b3`, lowest address first (R31). -/
def bytesWord (o : ByteOrder) (b0 b1 b2 b3 : Byte) : Word :=
  match o with
  | .big => b0 ++ b1 ++ b2 ++ b3
  | .little => b3 ++ b2 ++ b1 ++ b0

/-! ### Formats (R53, R54) -/

/-- The thirteen formats of R53, named by their field kinds: `r` register, `b` status bit, `w` word. -/
inductive Format where
  | n
  | r
  | w
  | rr
  | rw
  | wr
  | ww
  | bw
  | rrr
  | rrw
  | rwr
  | wrr
  | rww
deriving DecidableEq, Repr

/-- The length in bytes of an instruction of a format: one opcode byte and its fields (R53, R54). -/
def Format.length : Format → Nat
  | .n => 1
  | .r => 2
  | .w => 5
  | .rr => 3
  | .rw => 6
  | .wr => 6
  | .ww => 9
  | .bw => 6
  | .rrr => 4
  | .rrw => 7
  | .rwr => 7
  | .wrr => 7
  | .rww => 10

/-- The format of each instruction (R53, R59). -/
def Instr.format : Instr → Format
  | .nop => .n
  | .jmp _ => .w
  | .call _ => .w
  | .callr _ => .r
  | .ret => .n
  | .pop _ => .r
  | .movr _ _ => .wr
  | .movm _ _ => .ww
  | .movrr _ _ => .rr
  | .movrm _ _ => .rw
  | .movmr _ _ => .wr
  | .push _ => .w
  | .pushr _ => .r
  | .movrpr _ _ => .rr
  | .movror _ _ _ => .rwr
  | .load _ _ _ => .rrw
  | .loadr _ _ _ => .rrr
  | .loadm _ _ _ => .rrw
  | .store _ _ _ => .wrr
  | .storer _ _ _ => .rrr
  | .storem _ _ _ => .wrr
  | .add _ _ => .wr
  | .addr _ _ => .rr
  | .sub _ _ => .rw
  | .subr _ _ => .rr
  | .subwr _ _ => .wr
  | .mult _ _ => .wr
  | .multr _ _ => .rr
  | .div _ _ => .rw
  | .divwr _ _ => .wr
  | .divr _ _ => .rr
  | .inc _ => .r
  | .dec _ => .r
  | .brbs _ _ => .bw
  | .brbc _ _ => .bw
  | .breq _ _ => .ww
  | .breqr _ _ => .rw
  | .breqrw _ _ _ => .rww
  | .breqrr _ _ _ => .rrw
  | .brnq _ _ => .ww
  | .brnqr _ _ => .rw
  | .brnqrw _ _ _ => .rww
  | .brnqrr _ _ _ => .rrw
  | .brlt _ _ => .ww
  | .brltr _ _ => .rw
  | .brltrw _ _ _ => .rww
  | .brltrr _ _ _ => .rrw
  | .brgt _ _ => .ww
  | .brgtr _ _ => .rw
  | .brgtrw _ _ _ => .rww
  | .brgtrr _ _ _ => .rrw
  | .brlte _ _ => .ww
  | .brlter _ _ => .rw
  | .brlterw _ _ _ => .rww
  | .brlterr _ _ _ => .rrw
  | .brgte _ _ => .ww
  | .brgter _ _ => .rw
  | .brgterw _ _ _ => .rww
  | .brgterr _ _ _ => .rrw
  | .lsf _ _ => .rw
  | .lsfr _ _ => .rr
  | .rsf _ _ => .rw
  | .rsfr _ _ => .rr
  | .wlsf _ _ => .rw
  | .wlsfr _ _ => .rr
  | .wrsf _ _ => .rw
  | .wrsfr _ _ => .rr
  | .and _ _ => .rw
  | .andr _ _ => .rr
  | .or _ _ => .rw
  | .orr _ _ => .rr
  | .xor _ _ => .rw
  | .xorr _ _ => .rr
  | .not _ => .r
  | .halt => .n

/-- The length of an instruction in bytes, fixed by its opcode (R54). -/
def Instr.length (i : Instr) : Nat := i.format.length

/-! ### The opcode map (R59, R60, R61) -/

/-- What an opcode stands for: a format, and the instruction that the fields of that format make. -/
inductive Shape where
  | n (make : Instr)
  | r (make : Reg → Instr)
  | w (make : Word → Instr)
  | rr (make : Reg → Reg → Instr)
  | rw (make : Reg → Word → Instr)
  | wr (make : Word → Reg → Instr)
  | ww (make : Word → Word → Instr)
  | bw (make : StatusBit → Word → Instr)
  | rrr (make : Reg → Reg → Reg → Instr)
  | rrw (make : Reg → Reg → Word → Instr)
  | rwr (make : Reg → Word → Reg → Instr)
  | wrr (make : Word → Reg → Reg → Instr)
  | rww (make : Reg → Word → Word → Instr)

/-- The format of a shape. -/
def Shape.format : Shape → Format
  | .n _ => .n
  | .r _ => .r
  | .w _ => .w
  | .rr _ => .rr
  | .rw _ => .rw
  | .wr _ => .wr
  | .ww _ => .ww
  | .bw _ => .bw
  | .rrr _ => .rrr
  | .rrw _ => .rrw
  | .rwr _ => .rwr
  | .wrr _ => .wrr
  | .rww _ => .rww

/-- The opcode map of R59. An opcode it does not list is unassigned (R60); `0x24` is SUBWR only where the
configuration says so (R61). -/
def shapeOf (c : Config) (op : Byte) : Option Shape :=
  match op.toNat with
  | 0x00 => some (.n .nop)
  | 0x01 => some (.w .jmp)
  | 0x02 => some (.w .call)
  | 0x03 => some (.r .callr)
  | 0x04 => some (.n .ret)
  | 0x05 => some (.r .pop)
  | 0x10 => some (.wr .movr)
  | 0x11 => some (.ww .movm)
  | 0x12 => some (.rr .movrr)
  | 0x13 => some (.rw .movrm)
  | 0x14 => some (.wr .movmr)
  | 0x15 => some (.w .push)
  | 0x16 => some (.r .pushr)
  | 0x17 => some (.rr .movrpr)
  | 0x18 => some (.rwr .movror)
  | 0x19 => some (.rrw .load)
  | 0x1A => some (.rrr .loadr)
  | 0x1B => some (.rrw .loadm)
  | 0x1C => some (.wrr .store)
  | 0x1D => some (.rrr .storer)
  | 0x1E => some (.wrr .storem)
  | 0x20 => some (.wr .add)
  | 0x21 => some (.rr .addr)
  | 0x22 => some (.rw .sub)
  | 0x23 => some (.rr .subr)
  | 0x24 =>
    match c.subwrOpcode with
    | .at24 => some (.wr .subwr)
    | .none => none
  | 0x25 => some (.wr .mult)
  | 0x26 => some (.rr .multr)
  | 0x27 => some (.rw .div)
  | 0x28 => some (.wr .divwr)
  | 0x29 => some (.rr .divr)
  | 0x2A => some (.r .inc)
  | 0x2B => some (.r .dec)
  | 0x30 => some (.bw .brbs)
  | 0x31 => some (.bw .brbc)
  | 0x32 => some (.ww .breq)
  | 0x33 => some (.rw .breqr)
  | 0x34 => some (.rww .breqrw)
  | 0x35 => some (.rrw .breqrr)
  | 0x36 => some (.ww .brnq)
  | 0x37 => some (.rw .brnqr)
  | 0x38 => some (.rww .brnqrw)
  | 0x39 => some (.rrw .brnqrr)
  | 0x3A => some (.ww .brlt)
  | 0x3B => some (.rw .brltr)
  | 0x3C => some (.rww .brltrw)
  | 0x3D => some (.rrw .brltrr)
  | 0x3E => some (.ww .brgt)
  | 0x3F => some (.rw .brgtr)
  | 0x40 => some (.rww .brgtrw)
  | 0x41 => some (.rrw .brgtrr)
  | 0x42 => some (.ww .brlte)
  | 0x43 => some (.rw .brlter)
  | 0x44 => some (.rww .brlterw)
  | 0x45 => some (.rrw .brlterr)
  | 0x46 => some (.ww .brgte)
  | 0x47 => some (.rw .brgter)
  | 0x48 => some (.rww .brgterw)
  | 0x49 => some (.rrw .brgterr)
  | 0x50 => some (.rw .lsf)
  | 0x51 => some (.rr .lsfr)
  | 0x52 => some (.rw .rsf)
  | 0x53 => some (.rr .rsfr)
  | 0x54 => some (.rw .wlsf)
  | 0x55 => some (.rr .wlsfr)
  | 0x56 => some (.rw .wrsf)
  | 0x57 => some (.rr .wrsfr)
  | 0x58 => some (.rw .and)
  | 0x59 => some (.rr .andr)
  | 0x5A => some (.rw .or)
  | 0x5B => some (.rr .orr)
  | 0x5C => some (.rw .xor)
  | 0x5D => some (.rr .xorr)
  | 0x5E => some (.r .not)
  | 0xFF => some (.n .halt)
  | _ => none

/-! ### The decoder (R55) -/

/-- Why bytes are no instruction. Each becomes the machine's fault of the same name (R161); `truncated`
becomes `FetchOutOfRange`. -/
inductive DecodeError where
  /-- Steps 1 and 3 of R55: a byte of the instruction is missing. -/
  | truncated
  /-- Step 2 of R55: the opcode byte is unassigned (R60). -/
  | illegalOpcode (op : Byte)
  /-- Step 4 of R55: a register field above 7 (R56). -/
  | invalidRegister (n : Byte)
  /-- Step 4 of R55: a status-bit field above 31 (R57). -/
  | invalidStatusBit (n : Byte)
deriving DecidableEq, Repr

/-- A register field (R56): `n` names `Rn` for `n ≤ 7` and no register above. -/
def regField (n : Byte) : Except DecodeError Reg :=
  if h : n.toNat < 8 then .ok ⟨n.toNat, h⟩ else .error (.invalidRegister n)

/-- A status-bit field (R57): `n` is a bit number of SR for `n ≤ 31`. -/
def bitField (n : Byte) : Except DecodeError StatusBit :=
  if h : n.toNat < 32 then .ok ⟨n.toNat, h⟩ else .error (.invalidStatusBit n)

/-- Use a register field, or report it (step 4 of R55). -/
def withReg (n : Byte) (use : Reg → Except DecodeError Instr) : Except DecodeError Instr :=
  match regField n with
  | .ok r => use r
  | .error e => .error e

/-- Use a status-bit field, or report it (step 4 of R55). -/
def withBit (n : Byte) (use : StatusBit → Except DecodeError Instr) : Except DecodeError Instr :=
  match bitField n with
  | .ok b => use b
  | .error e => .error e

/-- Read the fields of a shape from the bytes after the opcode (steps 3 and 4 of R55): all bytes must be
there before any field is judged, and register fields are judged in parameter order. -/
def Shape.parse (o : ByteOrder) : Shape → List Byte → Except DecodeError Instr
  | .n make, _ => .ok make
  | .r make, n0 :: _ => withReg n0 fun r0 => .ok (make r0)
  | .w make, w0a :: w0b :: w0c :: w0d :: _ => .ok (make (bytesWord o w0a w0b w0c w0d))
  | .rr make, n0 :: n1 :: _ => withReg n0 fun r0 => withReg n1 fun r1 => .ok (make r0 r1)
  | .rw make, n0 :: w1a :: w1b :: w1c :: w1d :: _ => withReg n0 fun r0 => .ok (make r0 (bytesWord o w1a w1b w1c w1d))
  | .wr make, w0a :: w0b :: w0c :: w0d :: n1 :: _ => withReg n1 fun r1 => .ok (make (bytesWord o w0a w0b w0c w0d) r1)
  | .ww make, w0a :: w0b :: w0c :: w0d :: w1a :: w1b :: w1c :: w1d :: _ => .ok (make (bytesWord o w0a w0b w0c w0d) (bytesWord o w1a w1b w1c w1d))
  | .bw make, n0 :: w1a :: w1b :: w1c :: w1d :: _ => withBit n0 fun b0 => .ok (make b0 (bytesWord o w1a w1b w1c w1d))
  | .rrr make, n0 :: n1 :: n2 :: _ => withReg n0 fun r0 => withReg n1 fun r1 => withReg n2 fun r2 => .ok (make r0 r1 r2)
  | .rrw make, n0 :: n1 :: w2a :: w2b :: w2c :: w2d :: _ => withReg n0 fun r0 => withReg n1 fun r1 => .ok (make r0 r1 (bytesWord o w2a w2b w2c w2d))
  | .rwr make, n0 :: w1a :: w1b :: w1c :: w1d :: n2 :: _ => withReg n0 fun r0 => withReg n2 fun r2 => .ok (make r0 (bytesWord o w1a w1b w1c w1d) r2)
  | .wrr make, w0a :: w0b :: w0c :: w0d :: n1 :: n2 :: _ => withReg n1 fun r1 => withReg n2 fun r2 => .ok (make (bytesWord o w0a w0b w0c w0d) r1 r2)
  | .rww make, n0 :: w1a :: w1b :: w1c :: w1d :: w2a :: w2b :: w2c :: w2d :: _ => withReg n0 fun r0 => .ok (make r0 (bytesWord o w1a w1b w1c w1d) (bytesWord o w2a w2b w2c w2d))
  | _, _ => .error .truncated

/-- The decoder (R55): the instruction that begins the given bytes, or the first check that fails. It reads
only the instruction's own bytes; what follows them does not matter. -/
def decode (c : Config) : List Byte → Except DecodeError Instr
  | [] => .error .truncated
  | op :: fields =>
    match shapeOf c op with
    | none => .error (.illegalOpcode op)
    | some shape => shape.parse c.byteOrder fields

/-! ### The encoder (R50, R59) -/

/-- A register field's byte (R56). -/
def regByte (r : Reg) : Byte := BitVec.ofNat 8 r.val

/-- A status-bit field's byte (R57). -/
def bitByte (b : StatusBit) : Byte := BitVec.ofNat 8 b.val

/-- The bytes of an instruction, lowest address first: opcode, then the fields in order (R50, R52, R59).
SUBWR gets `0x24` in every configuration; where `SUBWR_OPCODE = none` it is not well-formed. -/
def encode (c : Config) : Instr → List Byte
  | .nop => [0x00#8]
  | .jmp k => [0x01#8] ++ wordBytes c.byteOrder k
  | .call k => [0x02#8] ++ wordBytes c.byteOrder k
  | .callr R => [0x03#8, regByte R]
  | .ret => [0x04#8]
  | .pop Rd => [0x05#8, regByte Rd]
  | .movr K Rd => [0x10#8] ++ wordBytes c.byteOrder K ++ [regByte Rd]
  | .movm K k => [0x11#8] ++ wordBytes c.byteOrder K ++ wordBytes c.byteOrder k
  | .movrr Ro Rd => [0x12#8, regByte Ro, regByte Rd]
  | .movrm Ro k => [0x13#8, regByte Ro] ++ wordBytes c.byteOrder k
  | .movmr k Rd => [0x14#8] ++ wordBytes c.byteOrder k ++ [regByte Rd]
  | .push K => [0x15#8] ++ wordBytes c.byteOrder K
  | .pushr Ro => [0x16#8, regByte Ro]
  | .movrpr Ro Rd => [0x17#8, regByte Ro, regByte Rd]
  | .movror Ro K Rd => [0x18#8, regByte Ro] ++ wordBytes c.byteOrder K ++ [regByte Rd]
  | .load Ro R k => [0x19#8, regByte Ro, regByte R] ++ wordBytes c.byteOrder k
  | .loadr Ro R Rd => [0x1A#8, regByte Ro, regByte R, regByte Rd]
  | .loadm Ro R Md => [0x1B#8, regByte Ro, regByte R] ++ wordBytes c.byteOrder Md
  | .store k R Rd => [0x1C#8] ++ wordBytes c.byteOrder k ++ [regByte R, regByte Rd]
  | .storer Ro R Rd => [0x1D#8, regByte Ro, regByte R, regByte Rd]
  | .storem Mo R Rd => [0x1E#8] ++ wordBytes c.byteOrder Mo ++ [regByte R, regByte Rd]
  | .add K R => [0x20#8] ++ wordBytes c.byteOrder K ++ [regByte R]
  | .addr R1 R2 => [0x21#8, regByte R1, regByte R2]
  | .sub R K => [0x22#8, regByte R] ++ wordBytes c.byteOrder K
  | .subr R1 R2 => [0x23#8, regByte R1, regByte R2]
  | .subwr K R => [0x24#8] ++ wordBytes c.byteOrder K ++ [regByte R]
  | .mult K R => [0x25#8] ++ wordBytes c.byteOrder K ++ [regByte R]
  | .multr R1 R2 => [0x26#8, regByte R1, regByte R2]
  | .div R K => [0x27#8, regByte R] ++ wordBytes c.byteOrder K
  | .divwr K R => [0x28#8] ++ wordBytes c.byteOrder K ++ [regByte R]
  | .divr R1 R2 => [0x29#8, regByte R1, regByte R2]
  | .inc Rd => [0x2A#8, regByte Rd]
  | .dec Rd => [0x2B#8, regByte Rd]
  | .brbs Sb k => [0x30#8, bitByte Sb] ++ wordBytes c.byteOrder k
  | .brbc Sb k => [0x31#8, bitByte Sb] ++ wordBytes c.byteOrder k
  | .breq K k => [0x32#8] ++ wordBytes c.byteOrder K ++ wordBytes c.byteOrder k
  | .breqr R k => [0x33#8, regByte R] ++ wordBytes c.byteOrder k
  | .breqrw R K k => [0x34#8, regByte R] ++ wordBytes c.byteOrder K ++ wordBytes c.byteOrder k
  | .breqrr R1 R2 k => [0x35#8, regByte R1, regByte R2] ++ wordBytes c.byteOrder k
  | .brnq K k => [0x36#8] ++ wordBytes c.byteOrder K ++ wordBytes c.byteOrder k
  | .brnqr R k => [0x37#8, regByte R] ++ wordBytes c.byteOrder k
  | .brnqrw R K k => [0x38#8, regByte R] ++ wordBytes c.byteOrder K ++ wordBytes c.byteOrder k
  | .brnqrr R1 R2 k => [0x39#8, regByte R1, regByte R2] ++ wordBytes c.byteOrder k
  | .brlt K k => [0x3A#8] ++ wordBytes c.byteOrder K ++ wordBytes c.byteOrder k
  | .brltr R k => [0x3B#8, regByte R] ++ wordBytes c.byteOrder k
  | .brltrw R K k => [0x3C#8, regByte R] ++ wordBytes c.byteOrder K ++ wordBytes c.byteOrder k
  | .brltrr R1 R2 k => [0x3D#8, regByte R1, regByte R2] ++ wordBytes c.byteOrder k
  | .brgt K k => [0x3E#8] ++ wordBytes c.byteOrder K ++ wordBytes c.byteOrder k
  | .brgtr R k => [0x3F#8, regByte R] ++ wordBytes c.byteOrder k
  | .brgtrw R K k => [0x40#8, regByte R] ++ wordBytes c.byteOrder K ++ wordBytes c.byteOrder k
  | .brgtrr R1 R2 k => [0x41#8, regByte R1, regByte R2] ++ wordBytes c.byteOrder k
  | .brlte K k => [0x42#8] ++ wordBytes c.byteOrder K ++ wordBytes c.byteOrder k
  | .brlter R k => [0x43#8, regByte R] ++ wordBytes c.byteOrder k
  | .brlterw R K k => [0x44#8, regByte R] ++ wordBytes c.byteOrder K ++ wordBytes c.byteOrder k
  | .brlterr R1 R2 k => [0x45#8, regByte R1, regByte R2] ++ wordBytes c.byteOrder k
  | .brgte K k => [0x46#8] ++ wordBytes c.byteOrder K ++ wordBytes c.byteOrder k
  | .brgter R k => [0x47#8, regByte R] ++ wordBytes c.byteOrder k
  | .brgterw R K k => [0x48#8, regByte R] ++ wordBytes c.byteOrder K ++ wordBytes c.byteOrder k
  | .brgterr R1 R2 k => [0x49#8, regByte R1, regByte R2] ++ wordBytes c.byteOrder k
  | .lsf Rd K => [0x50#8, regByte Rd] ++ wordBytes c.byteOrder K
  | .lsfr Rd R => [0x51#8, regByte Rd, regByte R]
  | .rsf Rd K => [0x52#8, regByte Rd] ++ wordBytes c.byteOrder K
  | .rsfr Rd R => [0x53#8, regByte Rd, regByte R]
  | .wlsf Rd K => [0x54#8, regByte Rd] ++ wordBytes c.byteOrder K
  | .wlsfr Rd R => [0x55#8, regByte Rd, regByte R]
  | .wrsf Rd K => [0x56#8, regByte Rd] ++ wordBytes c.byteOrder K
  | .wrsfr Rd R => [0x57#8, regByte Rd, regByte R]
  | .and Rd K => [0x58#8, regByte Rd] ++ wordBytes c.byteOrder K
  | .andr Rd R => [0x59#8, regByte Rd, regByte R]
  | .or Rd K => [0x5A#8, regByte Rd] ++ wordBytes c.byteOrder K
  | .orr Rd R => [0x5B#8, regByte Rd, regByte R]
  | .xor Rd K => [0x5C#8, regByte Rd] ++ wordBytes c.byteOrder K
  | .xorr Rd R => [0x5D#8, regByte Rd, regByte R]
  | .not Rd => [0x5E#8, regByte Rd]
  | .halt => [0xFF#8]

/-! ### The host's reading of the opcode table -/

/-- The bytes of an instruction given as a number: bit 0 is the least significant bit of the first byte, the
second byte is bits 15 to 8, and every bit above `nbits` is 0. Ten bytes, the longest instruction (R54). -/
def tableBytes (nbits w : Nat) : List Byte :=
  (List.range 10).map fun j => BitVec.ofNat 8 ((w % 2 ^ nbits) / 2 ^ (8 * j))

/-- The instruction the decoder reads, under the reset configuration, from those bytes. -/
def decodeTableWord (nbits w : Nat) : Option Instr :=
  match decode Config.reset (tableBytes nbits w) with
  | .ok i => some i
  | .error _ => none

end Sys2Proof
end

