-- ==== Sys2Proof/Machine/State.lean ====
section
/-!
DEFINITION. The state of the machine (`10_state.md`), the reasons it can stop, and the launch state (R25).
Everything is plain data.
-/

namespace Sys2Proof.Machine

/-- A sparse store of bytes by address: main memory (R21) or the reference device (R36). An address that is
not listed reads as 0 (log entry 8). Canonical form: `Memory.wf`. -/
abbrev Memory := List Host.Cell

/-- What an unlisted address reads as. DESIGN CHOICE (log entry 8): unsafe. -/
def unlisted : Byte := 0

/-- The canonical form of a store: addresses strictly rising, and no entry equal to what an unlisted address
reads as, so that equal contents are equal data. -/
abbrev Memory.wf (m : Memory) : Prop :=
  m.Pairwise (fun c d => c.1 < d.1) ∧ ∀ c ∈ m, c.2 ≠ unlisted

/-- The device space (R22, R36): the bytes of the reference byte store, and the history that is the state of a
platform's own device (log entry 5). `Config.device` says which of the two the machine has. -/
structure Device where
  cells : Memory
  /-- The transfers a platform's device has served, the latest first. -/
  history : List DevEvent
deriving DecidableEq, Repr

/-- The seven faults of R161, with their information. Addresses and lengths are exact numbers (R32, R35). -/
inductive RunFault where
  /-- F1: the byte at `pc` is no assigned opcode. Raised by fetch. -/
  | illegalOpcode (op : Byte)
  /-- F2: a register field above 7, the first one in parameter order. Raised by decode. -/
  | invalidRegister (n : Byte)
  /-- F3: a status-bit field above 31. Raised by decode of BRBS and BRBC. -/
  | invalidStatusBit (n : Byte)
  /-- F4: a byte of the instruction lies outside memory; `a` is the first such address. Raised by fetch. -/
  | fetchOutOfRange (a : Nat)
  /-- F5: a data access of `n` bytes at `a` leaves memory. Raised by the moves, the stack instructions, the
  calls and RET, and the buffer instructions. -/
  | memoryOutOfRange (a n : Nat)
  /-- F6: the device space refuses `n` bytes at device address `a`. Raised by the buffer instructions. -/
  | deviceOutOfRange (a n : Nat)
  /-- F7: the divisor of DIV, DIVWR or DIVR is 0. -/
  | divideByZero
deriving DecidableEq, Repr

/-- The run status (R23). -/
inductive Status where
  | running
  /-- After HALT (R70). -/
  | halted
  /-- After a fault (R160). -/
  | faulted (f : RunFault)
deriving DecidableEq, Repr

/-- The whole state of the machine (head of `10_state.md`), with the parameters of R2 that a step consults. -/
structure State where
  /-- `R0` to `R7` (R10). -/
  regs : Vector Word 8
  /-- The program counter (R11). -/
  pc : Word
  /-- The stack pointer (R12). -/
  sp : Word
  /-- The frame pointer, which no instruction reads or writes (R13). -/
  fp : Word
  /-- The accumulator (R14). -/
  acc : Word
  /-- The status register: Z is bit 0, O is bit 1, bits 31:2 read as 0 (R15). -/
  sr : Word
  /-- Main memory (R21). -/
  mem : Memory
  /-- The device space (R22). -/
  dev : Device
  /-- Running, halted or faulted (R23). -/
  status : Status
  /-- The parameters of the machine, fixed at launch (R2). -/
  cfg : Config
deriving DecidableEq, Repr

/-- Why the host gets no next state. The machine's own seven faults are not here: raising one is a next state
whose `status` records it (R26, R160). -/
inductive Fault where
  /-- A step is asked of a machine that HALT has stopped (R23, R26: no step is defined). Raised by `step`
  only. Safe: nothing can be proved of a next state. -/
  | halted
  /-- A step is asked of a machine that the fault `f` has stopped (R23, R26, R160). Raised by `step` only.
  Safe: nothing can be proved of a next state. -/
  | faulted (f : RunFault)
deriving DecidableEq, Repr

/-- Why an instruction would have no meaning. -/
inductive Refusal where
  /-- An instruction of the opcode table that `exec` gives no meaning. Raised by an arm of `exec`; no arm
  does so. Safe: nothing can be proved of a next state. -/
  | notModelled (mnemonic : String)
deriving DecidableEq, Repr

/-- The launch: what the host gives the machine at reset (R2, R25, R180, R185). -/
structure Launch where
  /-- The parameters a step consults. -/
  cfg : Config
  /-- `MEM_INIT`, in canonical form. -/
  memInit : Memory
  /-- The disk image of the reference device, in canonical form (R36). -/
  diskInit : Memory
  /-- `PC_RESET`. -/
  pcReset : Word
  /-- `SP_RESET`. -/
  spReset : Word
  /-- `REG_RESET` for `R0` to `R7`. -/
  regReset : Vector Word 8
  /-- `REG_RESET` for ACC. -/
  accReset : Word
  /-- `REG_RESET` for FP. -/
  fpReset : Word
  /-- `REG_RESET` for SR. -/
  srReset : Word
deriving DecidableEq, Repr

/-- The launches the machine accepts: the ranges of R2 (U20 refuses `MEM_SIZE = 0`), images in canonical form
inside their spaces, and a `REG_RESET` that gives SR bits 31:2 as 0 (R25). -/
abbrev Launch.wf (l : Launch) : Prop :=
  l.cfg.wf ∧
  (l.memInit.wf ∧ ∀ c ∈ l.memInit, c.1 < l.cfg.memSize) ∧
  (l.diskInit.wf ∧ ∀ c ∈ l.diskInit, c.1 < l.cfg.diskSize) ∧
  l.srReset.toNat < 4

/-- The state a launch gives, component by component as the table of R25 says. -/
def Launch.state (l : Launch) : State where
  regs := l.regReset
  pc := l.pcReset
  sp := l.spReset
  fp := l.fpReset
  acc := l.accReset
  sr := l.srReset
  mem := l.memInit
  dev := { cells := l.diskInit, history := [] }
  status := .running
  cfg := l.cfg

/-- Reset is the launch (R180); a launch that is not legal is refused before any step (U20, R25). -/
def launch (l : Launch) : Option State :=
  if l.wf then some l.state else none

/-- The launch of the model's reset: `PC_RESET` and `REG_RESET` at the defaults of R2, and where R2 gives no
default a value of the model's own: `SP_RESET = 0`, memory and disk all zero. DESIGN CHOICE (log entries 4,
7, 8), unsafe. -/
def Launch.reset : Launch where
  cfg := Config.reset
  memInit := []
  diskInit := []
  pcReset := 0
  spReset := 0
  regReset := Vector.replicate 8 0
  accReset := 0
  fpReset := 0
  srReset := 0

/-- The machine right after reset (R25, R180). -/
def State.reset : State := Launch.reset.state

end Sys2Proof.Machine
end

