-- ==== Sys2Proof/Machine/Ops.lean ====
section
/-!
DEFINITION. The named operations over the state: bytes and words of memory, registers, raising a fault, the
stack, the device space, fetching. The instructions' meanings are written with these.
-/

namespace Sys2Proof.Machine

/-- What a meaning and a step answer. -/
abbrev Result := Host.Outcome State Fault Refusal

/-! ### Bytes of a store (R30, R42) -/

/-- The byte at an address. -/
def Memory.read : Memory → Nat → Byte
  | [], _ => unlisted
  | (k, v) :: m, a => if k = a then v else Memory.read m a

/-- Put an entry in its place among rising addresses. -/
def Memory.insert : Memory → Nat → Byte → Memory
  | [], a, b => [(a, b)]
  | (k, v) :: m, a, b => if a < k then (a, b) :: (k, v) :: m else (k, v) :: Memory.insert m a b

/-- Write one byte. The canonical form is kept: an entry for the address goes, and comes back only with a
value other than the unlisted one. -/
def Memory.write (m : Memory) (a : Nat) (b : Byte) : Memory :=
  if b = unlisted then m.filter (fun c => c.1 ≠ a)
  else Memory.insert (m.filter (fun c => c.1 ≠ a)) a b

/-- The bytes at `a .. a+n-1`, lowest address first (`MemReadBytes` of R32). -/
def Memory.readBytes (m : Memory) (a : Nat) : Nat → List Byte
  | 0 => []
  | n + 1 => Memory.read m a :: Memory.readBytes m (a + 1) n

/-- Write bytes at `a`, `a+1`, ..., in ascending order (`MemWriteBytes` of R32, R38). -/
def Memory.writeBytes (m : Memory) (a : Nat) : List Byte → Memory
  | [] => m
  | b :: bs => Memory.writeBytes (Memory.write m a b) (a + 1) bs

/-- The word at `a .. a+3` (`MemRead(a, 4)` of R31). -/
def Memory.readWord (o : ByteOrder) (m : Memory) (a : Nat) : Word :=
  bytesWord o (m.read a) (m.read (a + 1)) (m.read (a + 2)) (m.read (a + 3))

/-- Write a word at `a .. a+3` (`MemWrite(a, 4, v)` of R31). -/
def Memory.writeWord (o : ByteOrder) (m : Memory) (a : Nat) (v : Word) : Memory :=
  m.writeBytes a (wordBytes o v)

/-! ### The range check (R32, R34, R35) -/

/-- `MemValid(a, n)` of R32: the whole access lies in memory, or moves nothing. `a` is an exact number. -/
def memValid (s : State) (a n : Nat) : Bool :=
  n = 0 || a + n ≤ s.cfg.memSize

/-! ### Named updates of the state -/

/-- Read a general register (R10). -/
def State.reg (s : State) (r : Reg) : Word := s.regs[r]

/-- Write a general register; none is hard-wired (R10). -/
def State.setReg (s : State) (r : Reg) (v : Word) : State := { s with regs := s.regs.set r v }

/-- Write all eight general registers (RET, R156). -/
def State.setRegs (s : State) (v : Vector Word 8) : State := { s with regs := v }

/-- Write PC (R11). -/
def State.setPc (s : State) (v : Word) : State := { s with pc := v }

/-- Write SP (R12). -/
def State.setSp (s : State) (v : Word) : State := { s with sp := v }

/-- Write ACC (R14). -/
def State.setAcc (s : State) (v : Word) : State := { s with acc := v }

/-- Write SR (R15). -/
def State.setSr (s : State) (v : Word) : State := { s with sr := v }

/-- Replace main memory (R21). -/
def State.setMem (s : State) (m : Memory) : State := { s with mem := m }

/-- Replace the device space's state (R22). -/
def State.setDev (s : State) (d : Device) : State := { s with dev := d }

/-- Write the run status (R23). -/
def State.setStatus (s : State) (x : Status) : State := { s with status := x }

/-- The word of main memory at `a` (R31, R32). -/
def State.word (s : State) (a : Nat) : Word := s.mem.readWord s.cfg.byteOrder a

/-- Write a word of main memory at `a` (R31, R32). -/
def State.setWord (s : State) (a : Nat) (v : Word) : State :=
  s.setMem (s.mem.writeWord s.cfg.byteOrder a v)

/-- `next_pc` (R5, R11, R54): the address of the instruction that follows one of this format, modulo 2^32. -/
def State.nextPc (s : State) (f : Format) : Word := s.pc + BitVec.ofNat 32 f.length

/-- `pc <- next_pc` (R11). -/
def State.advance (s : State) (f : Format) : State := s.setPc (s.nextPc f)

/-! ### Taking a fault, the machine's only exception (R26, R160, R162, R165) -/

/-- The state after a fault: `status` records it, nothing else changes. No pc or status is saved, no handler
is entered, and nothing returns from it (R165, R166). -/
def State.raise (s : State) (f : RunFault) : State := s.setStatus (.faulted f)

/-- Answer the state after a fault (step 3 of R26). -/
def trap (s : State) (f : RunFault) : Result := .next (s.raise f)

/-! ### Words of memory as operands (R32, R34) -/

/-- Read the word at `a`, or take `MemoryOutOfRange(a, 4)`. -/
def withWord (s : State) (a : Nat) (use : Word → Result) : Result :=
  if memValid s a 4 then use (s.word a) else trap s (.memoryOutOfRange a 4)

/-- Load the word at `a` into `Rd` and go on (R72), or take `MemoryOutOfRange(a, 4)`. -/
def loadWord (s : State) (f : Format) (a : Nat) (Rd : Reg) : Result :=
  withWord s a fun v => .next ((s.setReg Rd v).advance f)

/-- Store a word at `a` and go on (R72), or take `MemoryOutOfRange(a, 4)`. -/
def storeWord (s : State) (f : Format) (a : Nat) (v : Word) : Result :=
  if memValid s a 4 then .next ((s.setWord a v).advance f) else trap s (.memoryOutOfRange a 4)

/-! ### The stack (R88) -/

/-- The address of the word that push number `j` (from 1) writes, `sp` being the stack pointer before the
first push: `(sp + 4j) mod 2^32` (R88, R154). -/
def pushAddr (sp : Word) (j : Nat) : Nat := (sp + BitVec.ofNat 32 (4 * j)).toNat

/-- The address of the word that pop number `j` (from 0) reads: `(sp - 4j) mod 2^32` (R88, R156). -/
def popAddr (sp : Word) (j : Nat) : Nat := (sp - BitVec.ofNat 32 (4 * j)).toNat

/-- `push` (R88): SP moves up by 4 and the word is written at the new SP. Its range check is the caller's. -/
def State.push (s : State) (v : Word) : State :=
  (s.setWord (pushAddr s.sp 1) v).setSp (s.sp + 4)

/-- The pushes of several words, in order (R152). -/
def State.pushAll (s : State) : List Word → State
  | [] => s
  | v :: vs => (s.push v).pushAll vs

/-- The first of some word addresses whose word does not lie wholly in memory (R154, R156). -/
def firstBad (s : State) : List Nat → Option Nat
  | [] => none
  | a :: as => if memValid s a 4 then firstBad s as else some a

/-- PUSH and PUSHR: push one word and go on, or take `MemoryOutOfRange` with SP unmoved (R90, R91). -/
def pushWord (s : State) (f : Format) (v : Word) : Result :=
  if memValid s (pushAddr s.sp 1) 4 then .next ((s.push v).advance f)
  else trap s (.memoryOutOfRange (pushAddr s.sp 1) 4)

/-- POP: load the top of the stack into `Rd`, then move SP down by 4, or take `MemoryOutOfRange` (R89). -/
def popWord (s : State) (f : Format) (Rd : Reg) : Result :=
  withWord s (popAddr s.sp 0) fun v => .next (((s.setReg Rd v).setSp (s.sp - 4)).advance f)

/-! ### The stack frame (R152) -/

/-- The nine words of a frame in push order: `R0` to `R7`, then the return address (R152). -/
def frameWords (s : State) (ret : Word) : List Word := s.regs.toList ++ [ret]

/-- CALL and CALLR: push the frame, whose return address follows the call, and go to `target`. All nine
addresses are checked before a word is written (R152, R154, R155). -/
def callTo (s : State) (f : Format) (target : Word) : Result :=
  match firstBad s ((List.range 9).map fun j => pushAddr s.sp (j + 1)) with
  | some a => trap s (.memoryOutOfRange a 4)
  | none => .next ((s.pushAll (frameWords s (s.nextPc f))).setPc target)

/-- The registers that RET pops: `x[i]` is pop number `8 - i`, after the return address (R152, R156). -/
def poppedRegs (s : State) : Vector Word 8 :=
  Vector.ofFn fun i => s.word (popAddr s.sp (8 - i.val))

/-- RET: pop the return address and then `R7` down to `R0`. All nine addresses are checked before a register
is written (R156). -/
def returnFrom (s : State) : Result :=
  match firstBad s ((List.range 9).map fun j => popAddr s.sp j) with
  | some a => trap s (.memoryOutOfRange a 4)
  | none => .next (((s.setRegs (poppedRegs s)).setSp (s.sp - 36)).setPc (s.word (popAddr s.sp 0)))

/-! ### The device space (R36, R38) -/

/-- `DevValid(a, n)` (R36). The reference device accepts the range `0 .. DISK_SIZE-1`; a platform's own device
answers as it likes, but a transfer of no bytes is always valid. -/
def devValid (s : State) (a n : Nat) : Bool :=
  n = 0 || match s.cfg.device with
    | .byteStore => decide (a + n ≤ s.cfg.diskSize)
    | .platform => Config.platformAccepts a n

/-- The bytes `DevRead(a, n)` transfers (R36). -/
def devBytes (s : State) (a n : Nat) : List Byte :=
  match s.cfg.device with
  | .byteStore => s.dev.cells.readBytes a n
  | .platform => (List.range n).map fun i => Config.platformByte s.dev.history a n i

/-- The device state after `DevRead(a, n)` (R36): the reference device has no side effect on reads, a
platform's device may have one, and a transfer of no bytes changes nothing. -/
def devAfterRead (s : State) (a n : Nat) : Device :=
  if n = 0 then s.dev
  else match s.cfg.device with
    | .byteStore => s.dev
    | .platform => { s.dev with history := .read a n :: s.dev.history }

/-- The device state after `DevWrite(a, bs)` (R36). -/
def devAfterWrite (s : State) (a : Nat) (bs : List Byte) : Device :=
  if bs = [] then s.dev
  else match s.cfg.device with
    | .byteStore => { s.dev with cells := s.dev.cells.writeBytes a bs }
    | .platform => { s.dev with history := .write a bs :: s.dev.history }

/-- `CopyDevToMem` of R38, then `pc <- next_pc` (R80): the device range is checked first, then memory, and both
before a byte moves. -/
def copyDevToMem (s : State) (f : Format) (src n dst : Nat) : Result :=
  if devValid s src n then
    if memValid s dst n then
      .next (((s.setMem (s.mem.writeBytes dst (devBytes s src n))).setDev (devAfterRead s src n)).advance f)
    else trap s (.memoryOutOfRange dst n)
  else trap s (.deviceOutOfRange src n)

/-- `CopyMemToDev` of R38, then `pc <- next_pc` (R80): memory is checked first, then the device range. -/
def copyMemToDev (s : State) (f : Format) (src n dst : Nat) : Result :=
  if memValid s src n then
    if devValid s dst n then
      .next ((s.setDev (devAfterWrite s dst (s.mem.readBytes src n))).advance f)
    else trap s (.deviceOutOfRange dst n)
  else trap s (.memoryOutOfRange src n)

/-! ### Fetch (R55) -/

/-- The bytes of memory from PC on that a fetch may use: at most ten, the longest instruction (R54), and none
outside memory. -/
def fetchBytes (s : State) : List Byte :=
  s.mem.readBytes s.pc.toNat (min 10 (s.cfg.memSize - s.pc.toNat))

/-- The fault a refused decoding raises (R55, R161). A missing byte is the first address outside memory, which
is the one after the bytes there are. -/
def fetchFault (s : State) : DecodeError → RunFault
  | .truncated => .fetchOutOfRange (s.pc.toNat + (fetchBytes s).length)
  | .illegalOpcode op => .illegalOpcode op
  | .invalidRegister n => .invalidRegister n
  | .invalidStatusBit n => .invalidStatusBit n

/-- Fetch and decode (R55). -/
def fetchDecode (s : State) : Except RunFault Instr :=
  match decode s.cfg (fetchBytes s) with
  | .ok i => .ok i
  | .error e => .error (fetchFault s e)

/-- Why a machine takes no step (R23, R26): it is not running. -/
def stoppedBy : Status → Option Fault
  | .running => none
  | .halted => some .halted
  | .faulted f => some (.faulted f)

/-- The bytes as far as they lie in memory, which is where a launch may place them (R182). -/
def placeBytes (s : State) (a : Nat) (bs : List Byte) : State :=
  s.setMem (s.mem.writeBytes a (bs.take (s.cfg.memSize - a)))

end Sys2Proof.Machine
end

