-- ==== Sys2Proof/Machine/Flags.lean ====
section
/-!
DEFINITION. The flags Z and O (R15 to R18) and the results they are computed from: exact arithmetic (R92),
division (R93), shifts (R106), rotates (R107), logic (R116).
-/

namespace Sys2Proof.Machine

/-! ### The two flags in SR -/

/-- `setZ`: bit 0 of SR, the other bits as they are (R5, R15, R16). -/
def putZ (sr : Word) (c : Bool) : Word :=
  (sr &&& 0xFFFFFFFE#32) ||| (if c then 1#32 else 0#32)

/-- `setO`: bit 1 of SR, the other bits as they are (R5, R15, R17). -/
def putO (sr : Word) (c : Bool) : Word :=
  (sr &&& 0xFFFFFFFD#32) ||| (if c then 2#32 else 0#32)

/-- Z of a stored 32-bit result: it is 0 (R16). -/
def isZero (v : Word) : Bool := v = 0#32

/-- O of an exact result: it lies outside `0 .. 2^32-1` (R17, R92). -/
def overflows (e : Int) : Bool := e < 0 || e > 2 ^ 32 - 1

/-- SR after an instruction that writes Z and O (R16, R17). -/
def flagsZO (sr v : Word) (o : Bool) : Word := putO (putZ sr (isZero v)) o

/-- SR after an instruction that writes Z and leaves O (R16, R17). -/
def flagsZ (sr v : Word) : Word := putZ sr (isZero v)

/-! ### Arithmetic (R92, R93) -/

/-- The stored result of an exact one: `e mod 2^32` (R92). -/
def wrap (e : Int) : Word := BitVec.ofInt 32 e

/-- Store an exact result in ACC with its flags, and go on (R92). -/
def accResult (s : State) (f : Format) (e : Int) : Result :=
  .next (((s.setAcc (wrap e)).setSr (flagsZO s.sr (wrap e) (overflows e))).advance f)

/-- Store an exact result in `Rd` with its flags, and go on (R92, R104, R105). -/
def regResult (s : State) (f : Format) (Rd : Reg) (e : Int) : Result :=
  .next (((s.setReg Rd (wrap e)).setSr (flagsZO s.sr (wrap e) (overflows e))).advance f)

/-- The quotient of two words, rounded down (R93). -/
def quotient (a b : Word) : Word := BitVec.ofNat 32 (a.toNat / b.toNat)

/-- Divide into ACC, write Z and clear O, and go on; a zero divisor takes `DivideByZero` and writes nothing
(R93). -/
def divide (s : State) (f : Format) (a b : Word) : Result :=
  if b.toNat = 0 then trap s .divideByZero
  else .next (((s.setAcc (quotient a b)).setSr (flagsZO s.sr (quotient a b) false)).advance f)

/-! ### Shifts and rotates (R106, R107) -/

/-- `shl` of R106: the whole amount counts, and 32 or more gives 0. -/
def shl (v n : Word) : Word := if n.toNat < 32 then v <<< n.toNat else 0#32

/-- `shr` of R106: a logical shift; the whole amount counts, and 32 or more gives 0. -/
def shr (v n : Word) : Word := if n.toNat < 32 then v >>> n.toNat else 0#32

/-- `rotl` of R107: the amount counts modulo 32. -/
def rotl (v n : Word) : Word := v <<< (n.toNat % 32) ||| v >>> (32 - n.toNat % 32)

/-- `rotr` of R107: the amount counts modulo 32. -/
def rotr (v n : Word) : Word := v >>> (n.toNat % 32) ||| v <<< (32 - n.toNat % 32)

/-- Store a result in `Rd`, write Z from it, leave O, and go on (R106, R107, R116). -/
def inPlace (s : State) (f : Format) (Rd : Reg) (v : Word) : Result :=
  .next (((s.setReg Rd v).setSr (flagsZ s.sr v)).advance f)

end Sys2Proof.Machine
end

