-- ==== Sys2Proof/Machine/Arithmetic.lean ====
section
/-!
DEFINITION. The arithmetic of `44_arithmetic.md`: exact unsigned results (R92), division (R93); ten instructions write ACC, INC and DEC a register.
-/

namespace Sys2Proof.Machine

/-- ADD (R94): `K + x[R]`. -/
def execAdd (K : Word) (R : Reg) (s : State) : Result :=
  accResult s .wr ((K.toNat : Int) + (s.reg R).toNat)

/-- ADDR (R95): `x[R1] + x[R2]`. -/
def execAddr (R1 R2 : Reg) (s : State) : Result :=
  accResult s .rr (((s.reg R1).toNat : Int) + (s.reg R2).toNat)

/-- SUB (R96): `x[R] - K`. -/
def execSub (R : Reg) (K : Word) (s : State) : Result :=
  accResult s .rw (((s.reg R).toNat : Int) - K.toNat)

/-- SUBWR (R97): `K - x[R]`. -/
def execSubwr (K : Word) (R : Reg) (s : State) : Result :=
  accResult s .wr ((K.toNat : Int) - (s.reg R).toNat)

/-- SUBR (R98): `x[R1] - x[R2]`. -/
def execSubr (R1 R2 : Reg) (s : State) : Result :=
  accResult s .rr (((s.reg R1).toNat : Int) - (s.reg R2).toNat)

/-- MULT (R99): `K * x[R]`. -/
def execMult (K : Word) (R : Reg) (s : State) : Result :=
  accResult s .wr ((K.toNat : Int) * (s.reg R).toNat)

/-- MULTR (R100): `x[R1] * x[R2]`. -/
def execMultr (R1 R2 : Reg) (s : State) : Result :=
  accResult s .rr (((s.reg R1).toNat : Int) * (s.reg R2).toNat)

/-- DIV (R101): `x[R] / K`. -/
def execDiv (R : Reg) (K : Word) (s : State) : Result :=
  divide s .rw (s.reg R) K

/-- DIVWR (R102): `K / x[R]`. -/
def execDivwr (K : Word) (R : Reg) (s : State) : Result :=
  divide s .wr K (s.reg R)

/-- DIVR (R103): `x[R1] / x[R2]`. -/
def execDivr (R1 R2 : Reg) (s : State) : Result :=
  divide s .rr (s.reg R1) (s.reg R2)

/-- INC (R104): `x[d] + 1` in place. -/
def execInc (Rd : Reg) (s : State) : Result :=
  regResult s .r Rd (((s.reg Rd).toNat : Int) + 1)

/-- DEC (R105): `x[d] - 1` in place. -/
def execDec (Rd : Reg) (s : State) : Result :=
  regResult s .r Rd (((s.reg Rd).toNat : Int) - 1)

end Sys2Proof.Machine
end

