-- ==== Sys2Proof/Machine/Operands.lean ====
section
/-!
DEFINITION. The operand forms of the source (the glossary under R9, R6): constants, registers, ACC, the stack,
addresses given by a constant, a register, a register plus a constant, or a pointer word. Addresses are exact
numbers (R32, R35).
-/

namespace Sys2Proof.Machine

/-- `k`, `Md`, `Mo`: a constant address (R9). -/
def constAddr (k : Word) : Nat := k.toNat

/-- `Ro*`, `Rd*`: the address, in memory or in the device space, that a register holds (R9). -/
def regAddr (s : State) (R : Reg) : Nat := (s.reg R).toNat

/-- `Ro* + K`: the exact sum of a register and a constant, not reduced modulo 2^32 (R35, R79). -/
def regOffsetAddr (s : State) (R : Reg) (K : Word) : Nat := (s.reg R).toNat + K.toNat

/-- `R` of the buffer instructions: the byte count a register holds (R80). -/
def byteCount (s : State) (R : Reg) : Nat := (s.reg R).toNat

/-- `Md*`, `Mo*`: the address held in the pointer word at a constant address, or `MemoryOutOfRange` of that
word, which is read whatever the byte count is (R83, R86). -/
def withPointer (s : State) (M : Word) (use : Nat → Result) : Result :=
  withWord s (constAddr M) fun p => use p.toNat

/-- The bit of SR that a status-bit operand names (R57, R126, R127). -/
def State.srBit (s : State) (b : StatusBit) : Bool := s.sr.getLsbD b.val

/-- The six relations of R125. -/
inductive Rel where
  | eq
  | ne
  | lt
  | gt
  | le
  | ge
deriving DecidableEq, Repr

/-- `left rel right` on unsigned numbers (R4, R125). -/
def Rel.holds (r : Rel) (left right : Word) : Bool :=
  match r with
  | .eq => left.toNat = right.toNat
  | .ne => left.toNat ≠ right.toNat
  | .lt => left.toNat < right.toNat
  | .gt => left.toNat > right.toNat
  | .le => left.toNat ≤ right.toNat
  | .ge => left.toNat ≥ right.toNat

/-- The branch law (R124): go to `k` as it stands, or to the next instruction; only PC is written. -/
def branchIf (s : State) (f : Format) (c : Bool) (k : Word) : Result :=
  .next (if c then s.setPc k else s.advance f)

end Sys2Proof.Machine
end

