-- ==== Sys2Proof/Machine/Branch.lean ====
section
/-!
DEFINITION. The 26 conditional branches of `47_branch.md`: branch law R124, comparison law R125.
-/

namespace Sys2Proof.Machine

/-- BRBS (R126): branch if the bit of SR is 1. -/
def execBrbs (Sb : StatusBit) (k : Word) (s : State) : Result :=
  branchIf s .bw (s.srBit Sb) k

/-- BRBC (R127): branch if the bit of SR is 0. -/
def execBrbc (Sb : StatusBit) (k : Word) (s : State) : Result :=
  branchIf s .bw (!s.srBit Sb) k

/-- BREQ (R128): branch if `acc = K`. -/
def execBreq (K k : Word) (s : State) : Result :=
  branchIf s .ww (Rel.eq.holds s.acc K) k

/-- BREQR (R129): branch if `acc = x[R]`. -/
def execBreqr (R : Reg) (k : Word) (s : State) : Result :=
  branchIf s .rw (Rel.eq.holds s.acc (s.reg R)) k

/-- BREQRW (R130): branch if `x[R] = K`. -/
def execBreqrw (R : Reg) (K k : Word) (s : State) : Result :=
  branchIf s .rww (Rel.eq.holds (s.reg R) K) k

/-- BREQRR (R131): branch if `x[R1] = x[R2]`. -/
def execBreqrr (R1 R2 : Reg) (k : Word) (s : State) : Result :=
  branchIf s .rrw (Rel.eq.holds (s.reg R1) (s.reg R2)) k

/-- BRNQ (R132): branch if `acc ≠ K`. -/
def execBrnq (K k : Word) (s : State) : Result :=
  branchIf s .ww (Rel.ne.holds s.acc K) k

/-- BRNQR (R133): branch if `acc ≠ x[R]`. -/
def execBrnqr (R : Reg) (k : Word) (s : State) : Result :=
  branchIf s .rw (Rel.ne.holds s.acc (s.reg R)) k

/-- BRNQRW (R134): branch if `x[R] ≠ K`. -/
def execBrnqrw (R : Reg) (K k : Word) (s : State) : Result :=
  branchIf s .rww (Rel.ne.holds (s.reg R) K) k

/-- BRNQRR (R135): branch if `x[R1] ≠ x[R2]`. -/
def execBrnqrr (R1 R2 : Reg) (k : Word) (s : State) : Result :=
  branchIf s .rrw (Rel.ne.holds (s.reg R1) (s.reg R2)) k

/-- BRLT (R136): branch if `acc < K`. -/
def execBrlt (K k : Word) (s : State) : Result :=
  branchIf s .ww (Rel.lt.holds s.acc K) k

/-- BRLTR (R137): branch if `acc < x[R]`. -/
def execBrltr (R : Reg) (k : Word) (s : State) : Result :=
  branchIf s .rw (Rel.lt.holds s.acc (s.reg R)) k

/-- BRLTRW (R138): branch if `x[R] < K`. -/
def execBrltrw (R : Reg) (K k : Word) (s : State) : Result :=
  branchIf s .rww (Rel.lt.holds (s.reg R) K) k

/-- BRLTRR (R139): branch if `x[R1] < x[R2]`. -/
def execBrltrr (R1 R2 : Reg) (k : Word) (s : State) : Result :=
  branchIf s .rrw (Rel.lt.holds (s.reg R1) (s.reg R2)) k

/-- BRGT (R140): branch if `acc > K`. -/
def execBrgt (K k : Word) (s : State) : Result :=
  branchIf s .ww (Rel.gt.holds s.acc K) k

/-- BRGTR (R141): branch if `acc > x[R]`. -/
def execBrgtr (R : Reg) (k : Word) (s : State) : Result :=
  branchIf s .rw (Rel.gt.holds s.acc (s.reg R)) k

/-- BRGTRW (R142): branch if `x[R] > K`. -/
def execBrgtrw (R : Reg) (K k : Word) (s : State) : Result :=
  branchIf s .rww (Rel.gt.holds (s.reg R) K) k

/-- BRGTRR (R143): branch if `x[R1] > x[R2]`. -/
def execBrgtrr (R1 R2 : Reg) (k : Word) (s : State) : Result :=
  branchIf s .rrw (Rel.gt.holds (s.reg R1) (s.reg R2)) k

/-- BRLTE (R144): branch if `acc ≤ K`. -/
def execBrlte (K k : Word) (s : State) : Result :=
  branchIf s .ww (Rel.le.holds s.acc K) k

/-- BRLTER (R145): branch if `acc ≤ x[R]`. -/
def execBrlter (R : Reg) (k : Word) (s : State) : Result :=
  branchIf s .rw (Rel.le.holds s.acc (s.reg R)) k

/-- BRLTERW (R146): branch if `x[R] ≤ K`. -/
def execBrlterw (R : Reg) (K k : Word) (s : State) : Result :=
  branchIf s .rww (Rel.le.holds (s.reg R) K) k

/-- BRLTERR (R147): branch if `x[R1] ≤ x[R2]`. -/
def execBrlterr (R1 R2 : Reg) (k : Word) (s : State) : Result :=
  branchIf s .rrw (Rel.le.holds (s.reg R1) (s.reg R2)) k

/-- BRGTE (R148): branch if `acc ≥ K`. -/
def execBrgte (K k : Word) (s : State) : Result :=
  branchIf s .ww (Rel.ge.holds s.acc K) k

/-- BRGTER (R149): branch if `acc ≥ x[R]`. -/
def execBrgter (R : Reg) (k : Word) (s : State) : Result :=
  branchIf s .rw (Rel.ge.holds s.acc (s.reg R)) k

/-- BRGTERW (R150): branch if `x[R] ≥ K`. -/
def execBrgterw (R : Reg) (K k : Word) (s : State) : Result :=
  branchIf s .rww (Rel.ge.holds (s.reg R) K) k

/-- BRGTERR (R151): branch if `x[R1] ≥ x[R2]`. -/
def execBrgterr (R1 R2 : Reg) (k : Word) (s : State) : Result :=
  branchIf s .rrw (Rel.ge.holds (s.reg R1) (s.reg R2)) k

end Sys2Proof.Machine
end

