-- ==== Sys2Proof/Machine/Buffer.lean ====
section
/-!
DEFINITION. The six buffer instructions of `42_device_buffer.md` (R80): `x[R]` bytes between the device space and memory.
-/

namespace Sys2Proof.Machine

/-- LOAD (R81): from the device at `Ro*` to memory at `k`. -/
def execLoad (Ro R : Reg) (k : Word) (s : State) : Result :=
  copyDevToMem s .rrw (regAddr s Ro) (byteCount s R) (constAddr k)

/-- LOADR (R82): from the device at `Ro*` to memory at `Rd*`. -/
def execLoadr (Ro R Rd : Reg) (s : State) : Result :=
  copyDevToMem s .rrr (regAddr s Ro) (byteCount s R) (regAddr s Rd)

/-- LOADM (R83): from the device at `Ro*` to memory at the address in the word at `Md`. -/
def execLoadm (Ro R : Reg) (Md : Word) (s : State) : Result :=
  withPointer s Md fun p => copyDevToMem s .rrw (regAddr s Ro) (byteCount s R) p

/-- STORE (R84): from memory at `k` to the device at `Rd*`. -/
def execStore (k : Word) (R Rd : Reg) (s : State) : Result :=
  copyMemToDev s .wrr (constAddr k) (byteCount s R) (regAddr s Rd)

/-- STORER (R85): from memory at `Ro*` to the device at `Rd*`. -/
def execStorer (Ro R Rd : Reg) (s : State) : Result :=
  copyMemToDev s .rrr (regAddr s Ro) (byteCount s R) (regAddr s Rd)

/-- STOREM (R86): from memory at the address in the word at `Mo` to the device at `Rd*`. -/
def execStorem (Mo : Word) (R Rd : Reg) (s : State) : Result :=
  withPointer s Mo fun p => copyMemToDev s .wrr p (byteCount s R) (regAddr s Rd)

end Sys2Proof.Machine
end

