-- ==== Sys2Proof/Machine/Control.lean ====
section
/-!
DEFINITION. HALT and NOP (`40_halt_nop.md`).
-/

namespace Sys2Proof.Machine

/-- HALT (R70): the status becomes halted; PC keeps the address of the HALT byte. -/
def execHalt (s : State) : Result :=
  .next (s.setStatus .halted)

/-- NOP (R71): only PC moves. -/
def execNop (s : State) : Result :=
  .next (s.advance .n)

end Sys2Proof.Machine
end

