-- ==== Sys2Proof/Machine/Jump.lean ====
section
/-!
DEFINITION. JMP, CALL, CALLR, RET (`48_jump_call_return.md`).
-/

namespace Sys2Proof.Machine

/-- JMP (R153): go to `k`. -/
def execJmp (k : Word) (s : State) : Result :=
  .next (s.setPc k)

/-- CALL (R154): push the frame and go to `k`. -/
def execCall (k : Word) (s : State) : Result :=
  callTo s .w k

/-- CALLR (R155): push the frame and go to the address in `R`, read before the pushes. -/
def execCallr (R : Reg) (s : State) : Result :=
  callTo s .r (s.reg R)

/-- RET (R156): pop the frame. -/
def execRet (s : State) : Result :=
  returnFrom s

end Sys2Proof.Machine
end

