-- ==== Sys2Proof/Machine/Logic.lean ====
section
/-!
DEFINITION. The logic instructions of `46_logic.md` (R116): in place on `Rd`, Z written, O left.
-/

namespace Sys2Proof.Machine

/-- AND (R117): bitwise AND of `Rd` with `K`. -/
def execAnd (Rd : Reg) (K : Word) (s : State) : Result :=
  inPlace s .rw Rd (s.reg Rd &&& K)

/-- ANDR (R118): bitwise AND of `Rd` with `x[R]`. -/
def execAndr (Rd R : Reg) (s : State) : Result :=
  inPlace s .rr Rd (s.reg Rd &&& s.reg R)

/-- OR (R119): bitwise OR of `Rd` with `K`. -/
def execOr (Rd : Reg) (K : Word) (s : State) : Result :=
  inPlace s .rw Rd (s.reg Rd ||| K)

/-- ORR (R120): bitwise OR of `Rd` with `x[R]`. -/
def execOrr (Rd R : Reg) (s : State) : Result :=
  inPlace s .rr Rd (s.reg Rd ||| s.reg R)

/-- XOR (R121): bitwise XOR of `Rd` with `K`. -/
def execXor (Rd : Reg) (K : Word) (s : State) : Result :=
  inPlace s .rw Rd (s.reg Rd ^^^ K)

/-- XORR (R122): bitwise XOR of `Rd` with `x[R]`. -/
def execXorr (Rd R : Reg) (s : State) : Result :=
  inPlace s .rr Rd (s.reg Rd ^^^ s.reg R)

/-- NOT (R123): every bit of `Rd` complemented. -/
def execNot (Rd : Reg) (s : State) : Result :=
  inPlace s .r Rd (~~~(s.reg Rd))

end Sys2Proof.Machine
end

