-- ==== Sys2Proof/Machine/Move.lean ====
section
/-!
DEFINITION. The seven moves of `41_move.md` (R72): one 32-bit value from source to destination, no flag written.
-/

namespace Sys2Proof.Machine

/-- MOVR (R73): the constant `K` into `Rd`. -/
def execMovr (K : Word) (Rd : Reg) (s : State) : Result :=
  .next ((s.setReg Rd K).advance .wr)

/-- MOVM (R74): the constant `K` into the word at `k`. -/
def execMovm (K k : Word) (s : State) : Result :=
  storeWord s .ww (constAddr k) K

/-- MOVRR (R75): `Ro` into `Rd`. -/
def execMovrr (Ro Rd : Reg) (s : State) : Result :=
  .next ((s.setReg Rd (s.reg Ro)).advance .rr)

/-- MOVRM (R76): `Ro` into the word at `k`. -/
def execMovrm (Ro : Reg) (k : Word) (s : State) : Result :=
  storeWord s .rw (constAddr k) (s.reg Ro)

/-- MOVMR (R77): the word at `k` into `Rd`. -/
def execMovmr (k : Word) (Rd : Reg) (s : State) : Result :=
  loadWord s .wr (constAddr k) Rd

/-- MOVRPR (R78): the word at the address in `Ro` into `Rd`. -/
def execMovrpr (Ro Rd : Reg) (s : State) : Result :=
  loadWord s .rr (regAddr s Ro) Rd

/-- MOVROR (R79): the word at the exact sum `x[o] + K` into `Rd`. -/
def execMovror (Ro : Reg) (K : Word) (Rd : Reg) (s : State) : Result :=
  loadWord s .rwr (regOffsetAddr s Ro K) Rd

end Sys2Proof.Machine
end

