-- ==== Sys2Proof/Machine/Shift.lean ====
section
/-!
DEFINITION. The shifts and rotates of `45_shift_rotate.md` (R106, R107): in place on `Rd`, Z written, O left.
-/

namespace Sys2Proof.Machine

/-- LSF (R108): `Rd` shifted left by `K`. -/
def execLsf (Rd : Reg) (K : Word) (s : State) : Result :=
  inPlace s .rw Rd (shl (s.reg Rd) K)

/-- LSFR (R109): `Rd` shifted left by `x[R]`. -/
def execLsfr (Rd R : Reg) (s : State) : Result :=
  inPlace s .rr Rd (shl (s.reg Rd) (s.reg R))

/-- RSF (R110): `Rd` shifted right by `K`. -/
def execRsf (Rd : Reg) (K : Word) (s : State) : Result :=
  inPlace s .rw Rd (shr (s.reg Rd) K)

/-- RSFR (R111): `Rd` shifted right by `x[R]`. -/
def execRsfr (Rd R : Reg) (s : State) : Result :=
  inPlace s .rr Rd (shr (s.reg Rd) (s.reg R))

/-- WLSF (R112): `Rd` rotated left by `K`. -/
def execWlsf (Rd : Reg) (K : Word) (s : State) : Result :=
  inPlace s .rw Rd (rotl (s.reg Rd) K)

/-- WLSFR (R113): `Rd` rotated left by `x[R]`. -/
def execWlsfr (Rd R : Reg) (s : State) : Result :=
  inPlace s .rr Rd (rotl (s.reg Rd) (s.reg R))

/-- WRSF (R114): `Rd` rotated right by `K`. -/
def execWrsf (Rd : Reg) (K : Word) (s : State) : Result :=
  inPlace s .rw Rd (rotr (s.reg Rd) K)

/-- WRSFR (R115): `Rd` rotated right by `x[R]`. -/
def execWrsfr (Rd R : Reg) (s : State) : Result :=
  inPlace s .rr Rd (rotr (s.reg Rd) (s.reg R))

end Sys2Proof.Machine
end

