-- ==== Sys2Proof/Machine/Stack.lean ====
section
/-!
DEFINITION. POP, PUSH, PUSHR (`43_stack.md`).
-/

namespace Sys2Proof.Machine

/-- POP (R89): the top of the stack into `Rd`. -/
def execPop (Rd : Reg) (s : State) : Result :=
  popWord s .r Rd

/-- PUSH (R90): the constant `K` onto the stack. -/
def execPush (K : Word) (s : State) : Result :=
  pushWord s .w K

/-- PUSHR (R91): `Ro` onto the stack. -/
def execPushr (Ro : Reg) (s : State) : Result :=
  pushWord s .r (s.reg Ro)

end Sys2Proof.Machine
end

