-- ==== Sys2Proof/Machine/Dispatch.lean ====
section
/-!
DEFINITION. Execution of one instruction: one arm per constructor of `Instr`, each a direct call of the
instruction's own meaning.
-/

namespace Sys2Proof.Machine

/-- Execute one instruction on a state whose PC is the instruction's address (step 2 of R26). It does not look
at the run status: `step` does. -/
def exec (i : Instr) (s : State) : Host.Outcome State Fault Refusal :=
  match i with
  | .nop => Sys2Proof.Machine.execNop s
  | .jmp k => Sys2Proof.Machine.execJmp k s
  | .call k => Sys2Proof.Machine.execCall k s
  | .callr R => Sys2Proof.Machine.execCallr R s
  | .ret => Sys2Proof.Machine.execRet s
  | .pop Rd => Sys2Proof.Machine.execPop Rd s
  | .movr K Rd => Sys2Proof.Machine.execMovr K Rd s
  | .movm K k => Sys2Proof.Machine.execMovm K k s
  | .movrr Ro Rd => Sys2Proof.Machine.execMovrr Ro Rd s
  | .movrm Ro k => Sys2Proof.Machine.execMovrm Ro k s
  | .movmr k Rd => Sys2Proof.Machine.execMovmr k Rd s
  | .push K => Sys2Proof.Machine.execPush K s
  | .pushr Ro => Sys2Proof.Machine.execPushr Ro s
  | .movrpr Ro Rd => Sys2Proof.Machine.execMovrpr Ro Rd s
  | .movror Ro K Rd => Sys2Proof.Machine.execMovror Ro K Rd s
  | .load Ro R k => Sys2Proof.Machine.execLoad Ro R k s
  | .loadr Ro R Rd => Sys2Proof.Machine.execLoadr Ro R Rd s
  | .loadm Ro R Md => Sys2Proof.Machine.execLoadm Ro R Md s
  | .store k R Rd => Sys2Proof.Machine.execStore k R Rd s
  | .storer Ro R Rd => Sys2Proof.Machine.execStorer Ro R Rd s
  | .storem Mo R Rd => Sys2Proof.Machine.execStorem Mo R Rd s
  | .add K R => Sys2Proof.Machine.execAdd K R s
  | .addr R1 R2 => Sys2Proof.Machine.execAddr R1 R2 s
  | .sub R K => Sys2Proof.Machine.execSub R K s
  | .subr R1 R2 => Sys2Proof.Machine.execSubr R1 R2 s
  | .subwr K R => Sys2Proof.Machine.execSubwr K R s
  | .mult K R => Sys2Proof.Machine.execMult K R s
  | .multr R1 R2 => Sys2Proof.Machine.execMultr R1 R2 s
  | .div R K => Sys2Proof.Machine.execDiv R K s
  | .divwr K R => Sys2Proof.Machine.execDivwr K R s
  | .divr R1 R2 => Sys2Proof.Machine.execDivr R1 R2 s
  | .inc Rd => Sys2Proof.Machine.execInc Rd s
  | .dec Rd => Sys2Proof.Machine.execDec Rd s
  | .brbs Sb k => Sys2Proof.Machine.execBrbs Sb k s
  | .brbc Sb k => Sys2Proof.Machine.execBrbc Sb k s
  | .breq K k => Sys2Proof.Machine.execBreq K k s
  | .breqr R k => Sys2Proof.Machine.execBreqr R k s
  | .breqrw R K k => Sys2Proof.Machine.execBreqrw R K k s
  | .breqrr R1 R2 k => Sys2Proof.Machine.execBreqrr R1 R2 k s
  | .brnq K k => Sys2Proof.Machine.execBrnq K k s
  | .brnqr R k => Sys2Proof.Machine.execBrnqr R k s
  | .brnqrw R K k => Sys2Proof.Machine.execBrnqrw R K k s
  | .brnqrr R1 R2 k => Sys2Proof.Machine.execBrnqrr R1 R2 k s
  | .brlt K k => Sys2Proof.Machine.execBrlt K k s
  | .brltr R k => Sys2Proof.Machine.execBrltr R k s
  | .brltrw R K k => Sys2Proof.Machine.execBrltrw R K k s
  | .brltrr R1 R2 k => Sys2Proof.Machine.execBrltrr R1 R2 k s
  | .brgt K k => Sys2Proof.Machine.execBrgt K k s
  | .brgtr R k => Sys2Proof.Machine.execBrgtr R k s
  | .brgtrw R K k => Sys2Proof.Machine.execBrgtrw R K k s
  | .brgtrr R1 R2 k => Sys2Proof.Machine.execBrgtrr R1 R2 k s
  | .brlte K k => Sys2Proof.Machine.execBrlte K k s
  | .brlter R k => Sys2Proof.Machine.execBrlter R k s
  | .brlterw R K k => Sys2Proof.Machine.execBrlterw R K k s
  | .brlterr R1 R2 k => Sys2Proof.Machine.execBrlterr R1 R2 k s
  | .brgte K k => Sys2Proof.Machine.execBrgte K k s
  | .brgter R k => Sys2Proof.Machine.execBrgter R k s
  | .brgterw R K k => Sys2Proof.Machine.execBrgterw R K k s
  | .brgterr R1 R2 k => Sys2Proof.Machine.execBrgterr R1 R2 k s
  | .lsf Rd K => Sys2Proof.Machine.execLsf Rd K s
  | .lsfr Rd R => Sys2Proof.Machine.execLsfr Rd R s
  | .rsf Rd K => Sys2Proof.Machine.execRsf Rd K s
  | .rsfr Rd R => Sys2Proof.Machine.execRsfr Rd R s
  | .wlsf Rd K => Sys2Proof.Machine.execWlsf Rd K s
  | .wlsfr Rd R => Sys2Proof.Machine.execWlsfr Rd R s
  | .wrsf Rd K => Sys2Proof.Machine.execWrsf Rd K s
  | .wrsfr Rd R => Sys2Proof.Machine.execWrsfr Rd R s
  | .and Rd K => Sys2Proof.Machine.execAnd Rd K s
  | .andr Rd R => Sys2Proof.Machine.execAndr Rd R s
  | .or Rd K => Sys2Proof.Machine.execOr Rd K s
  | .orr Rd R => Sys2Proof.Machine.execOrr Rd R s
  | .xor Rd K => Sys2Proof.Machine.execXor Rd K s
  | .xorr Rd R => Sys2Proof.Machine.execXorr Rd R s
  | .not Rd => Sys2Proof.Machine.execNot Rd s
  | .halt => Sys2Proof.Machine.execHalt s

end Sys2Proof.Machine
end

