-- ==== Sys2Proof/Machine/Step.lean ====
section
/-!
DEFINITION. One step of the machine (R26), and the host's way to place an instruction where it is fetched.
-/

namespace Sys2Proof.Machine

/-- One step (R26): a machine that is not running takes none (R23); otherwise fetch and decode at PC (R55) and
execute, and a fault of either is a next state whose status records it. -/
def step (s : State) : Host.Outcome State Fault Refusal :=
  match stoppedBy s.status with
  | some r => .fault r
  | none =>
    match fetchDecode s with
    | .ok i => exec i s
    | .error f => trap s f

/-- The state with the bytes of one instruction stored at PC, ten of them (the longest instruction, R54), as
the host that loads a program would place them (R181, R182; log entry 11). -/
def State.withFetchWord (s : State) (nbits w : Nat) : State :=
  placeBytes s s.pc.toNat (tableBytes nbits w)

end Sys2Proof.Machine
end

