-- ==== Sys2Proof/Safety.lean ====
section
/-!
DEFINITION. The words the statements use: a legal state, the frame of an instruction, how an instruction is
encoded, what its flags are.
-/

namespace Sys2Proof.Machine

/-- Every listed address lies below `n`. -/
abbrev Memory.within (m : Memory) (n : Nat) : Prop := ∀ c ∈ m, c.1 < n

/-- A legal state: parameters in the ranges of R2, memory and the reference device in canonical form inside
their spaces (R21, R36), and bits 31:2 of SR at 0 (R15). -/
abbrev State.wf (s : State) : Prop :=
  s.cfg.wf ∧ (s.mem.wf ∧ s.mem.within s.cfg.memSize) ∧
  (s.dev.cells.wf ∧ s.dev.cells.within s.cfg.diskSize) ∧ s.sr.toNat < 4

/-- What an instruction may change besides PC. Everything not named stays. -/
structure Touched where
  /-- General registers. -/
  regs : List Reg := []
  /-- SP. -/
  sp : Bool := false
  /-- ACC. -/
  acc : Bool := false
  /-- SR. -/
  sr : Bool := false
  /-- Stored bytes of memory, as pairs of a start address and a length. -/
  stored : List (Nat × Nat) := []
  /-- The device space. -/
  dev : Bool := false
  /-- The run status. -/
  status : Bool := false
deriving DecidableEq, Repr

/-- `t` keeps everything of `s` but PC and what `c` names. FP and the parameters are never named: no
instruction changes them. Memory is compared byte by byte, outside the stored ranges. -/
def Frame (s t : State) (c : Touched) : Prop :=
  (∀ r, r ∉ c.regs → t.reg r = s.reg r) ∧
  (c.sp = false → t.sp = s.sp) ∧
  t.fp = s.fp ∧
  (c.acc = false → t.acc = s.acc) ∧
  (c.sr = false → t.sr = s.sr) ∧
  (∀ x, (∀ p ∈ c.stored, ¬(p.1 ≤ x ∧ x < p.1 + p.2)) → t.mem.read x = s.mem.read x) ∧
  (c.dev = false → t.dev = s.dev) ∧
  (c.status = false → t.status = s.status) ∧
  t.cfg = s.cfg

/-- PC has moved on by `n` bytes, modulo 2^32 (R11). -/
def PcMoved (s t : State) (n : Nat) : Prop := t.pc.toNat = (s.pc.toNat + n) % 2 ^ 32

/-- The meaning answers the fault `f`: the status records it and nothing else changes (R26, R162). -/
def Faults (r : Result) (s : State) (f : RunFault) : Prop :=
  r = .next { s with status := .faulted f }

/-- Z is bit 0 of SR (R15). -/
def State.z (s : State) : Bool := s.sr.getLsbD 0

/-- O is bit 1 of SR (R15). -/
def State.o (s : State) : Bool := s.sr.getLsbD 1

/-- Bits 31:2 of SR are what they were (R15). -/
def ReservedKept (s t : State) : Prop := ∀ j, 2 ≤ j → t.sr.getLsbD j = s.sr.getLsbD j

/-- Both flags are written: Z from the stored value (R16), O as given (R17). -/
def FlagsZO (s t : State) (v : Word) (o : Prop) : Prop :=
  (t.z = true ↔ v.toNat = 0) ∧ (t.o = true ↔ o) ∧ ReservedKept s t

/-- Z is written from the stored value and O is left (R16, R17). -/
def FlagsZ (s t : State) (v : Word) : Prop :=
  (t.z = true ↔ v.toNat = 0) ∧ t.o = s.o ∧ ReservedKept s t

/-- An instruction's bytes: the opcode, then the fields, in a format of the rule's length (R50, R53, R59). -/
def EncodedAs (i : Instr) (op : Byte) (f : Format) (n : Nat) (fields : ByteOrder → List Byte) : Prop :=
  i.format = f ∧ i.length = n ∧
  ∀ c, encode c i = op :: fields c.byteOrder ∧ (encode c i).length = n

/-! ### Shapes of effect that several instructions share -/

/-- `MemValid` of R32: an access of `n` bytes at the exact address `a` lies in memory, or moves nothing. -/
def InMemory (s : State) (a n : Nat) : Prop := n = 0 ∨ a + n ≤ s.cfg.memSize

/-- The meaning goes to `k` if `c` holds and else to the instruction after its `n` bytes, and changes nothing
but PC (R124). -/
def Branches (r : Result) (s : State) (c : Prop) (k : Word) (n : Nat) : Prop :=
  ∃ t, r = .next t ∧ Frame s t {} ∧ (c → t.pc = k) ∧ (¬c → PcMoved s t n)

/-- The meaning loads the word at `a` into `Rd` where the word lies in memory, and else takes
`MemoryOutOfRange(a, 4)` (R32, R34, R72). -/
def LoadsWord (r : Result) (s : State) (a : Nat) (Rd : Reg) (len : Nat) : Prop :=
  (a + 4 ≤ s.cfg.memSize → ∃ t, r = .next t ∧ t.reg Rd = s.word a ∧
    Frame s t { regs := [Rd] } ∧ PcMoved s t len) ∧
  (s.cfg.memSize < a + 4 → Faults r s (.memoryOutOfRange a 4))

/-- The meaning stores `v` in the word at `a` where the word lies in memory, and else takes
`MemoryOutOfRange(a, 4)` (R32, R34, R72). -/
def StoresWord (r : Result) (s : State) (a : Nat) (v : Word) (len : Nat) : Prop :=
  (a + 4 ≤ s.cfg.memSize → ∃ t, r = .next t ∧ t.word a = v ∧
    Frame s t { stored := [(a, 4)] } ∧ PcMoved s t len) ∧
  (s.cfg.memSize < a + 4 → Faults r s (.memoryOutOfRange a 4))

/-- The meaning pushes `v`: SP moves up by 4 modulo 2^32 and the word stands at the new SP; where that word
does not lie in memory, `MemoryOutOfRange` of it (R88, R90, R91). -/
def PushesWord (r : Result) (s : State) (v : Word) (len : Nat) : Prop :=
  (pushAddr s.sp 1 + 4 ≤ s.cfg.memSize → ∃ t, r = .next t ∧
    t.sp.toNat = (s.sp.toNat + 4) % 2 ^ 32 ∧ t.word t.sp.toNat = v ∧
    Frame s t { sp := true, stored := [(pushAddr s.sp 1, 4)] } ∧ PcMoved s t len) ∧
  (s.cfg.memSize < pushAddr s.sp 1 + 4 → Faults r s (.memoryOutOfRange (pushAddr s.sp 1) 4))

/-- The meaning is `CopyDevToMem(src, n, dst)` of R38 and then `pc <- next_pc`, in the primitives of R36:
`devValid`, `devBytes` and `devAfterRead` are `DevValid` and the two parts of `DevRead`. -/
def CopiesFromDevice (r : Result) (s : State) (src n dst len : Nat) : Prop :=
  (devValid s src n = false → Faults r s (.deviceOutOfRange src n)) ∧
  (devValid s src n = true → ¬InMemory s dst n → Faults r s (.memoryOutOfRange dst n)) ∧
  (devValid s src n = true → InMemory s dst n → ∃ t, r = .next t ∧
    (∀ i, i < n → t.mem.read (dst + i) = (devBytes s src n).getD i 0) ∧
    t.dev = devAfterRead s src n ∧
    Frame s t { stored := [(dst, n)], dev := true } ∧ PcMoved s t len)

/-- The meaning is `CopyMemToDev(src, n, dst)` of R38 and then `pc <- next_pc`; `devAfterWrite` is `DevWrite`. -/
def CopiesToDevice (r : Result) (s : State) (src n dst len : Nat) : Prop :=
  (¬InMemory s src n → Faults r s (.memoryOutOfRange src n)) ∧
  (InMemory s src n → devValid s dst n = false → Faults r s (.deviceOutOfRange dst n)) ∧
  (InMemory s src n → devValid s dst n = true → ∃ t, r = .next t ∧
    (∃ bs : List Byte, bs.length = n ∧ (∀ i, i < n → bs.getD i 0 = s.mem.read (src + i)) ∧
      t.dev = devAfterWrite s dst bs) ∧
    Frame s t { dev := true } ∧ PcMoved s t len)

/-- The meaning stores an exact result in ACC, reduced modulo 2^32, with both flags (R92). -/
def AccGets (r : Result) (s : State) (e : Int) (len : Nat) : Prop :=
  ∃ t, r = .next t ∧ (t.acc.toNat : Int) = e % 2 ^ 32 ∧
    FlagsZO s t t.acc (e < 0 ∨ e > 2 ^ 32 - 1) ∧
    Frame s t { acc := true, sr := true } ∧ PcMoved s t len

/-- The meaning stores an exact result in `Rd`, reduced modulo 2^32, with both flags (R92). -/
def RegGets (r : Result) (s : State) (Rd : Reg) (e : Int) (len : Nat) : Prop :=
  ∃ t, r = .next t ∧ ((t.reg Rd).toNat : Int) = e % 2 ^ 32 ∧
    FlagsZO s t (t.reg Rd) (e < 0 ∨ e > 2 ^ 32 - 1) ∧
    Frame s t { regs := [Rd], sr := true } ∧ PcMoved s t len

/-- The meaning divides `a` by `b` into ACC, rounding down, writes Z and clears O; `b = 0` takes
`DivideByZero` (R93). -/
def Divides (r : Result) (s : State) (a b : Word) (len : Nat) : Prop :=
  (b.toNat ≠ 0 → ∃ t, r = .next t ∧
    t.acc.toNat * b.toNat ≤ a.toNat ∧ a.toNat < (t.acc.toNat + 1) * b.toNat ∧
    FlagsZO s t t.acc False ∧ Frame s t { acc := true, sr := true } ∧ PcMoved s t len) ∧
  (b.toNat = 0 → Faults r s .divideByZero)

/-- The meaning replaces `Rd` by a value of which `v` holds, writes Z from it and leaves O (R106, R107,
R116). -/
def Replaces (r : Result) (s : State) (Rd : Reg) (v : Word → Prop) (len : Nat) : Prop :=
  ∃ t, r = .next t ∧ v (t.reg Rd) ∧ FlagsZ s t (t.reg Rd) ∧
    Frame s t { regs := [Rd], sr := true } ∧ PcMoved s t len

/-- `r = shl(v, n)` of R106. -/
def ShiftedLeft (v n r : Word) : Prop :=
  (n.toNat < 32 → r.toNat = v.toNat * 2 ^ n.toNat % 2 ^ 32) ∧ (32 ≤ n.toNat → r.toNat = 0)

/-- `r = shr(v, n)` of R106. -/
def ShiftedRight (v n r : Word) : Prop :=
  (n.toNat < 32 → r.toNat = v.toNat / 2 ^ n.toNat) ∧ (32 ≤ n.toNat → r.toNat = 0)

/-- `r = rotl(v, n)` of R107. -/
def RotatedLeft (v n r : Word) : Prop :=
  r.toNat = v.toNat * 2 ^ (n.toNat % 32) % 2 ^ 32 + v.toNat / 2 ^ (32 - n.toNat % 32)

/-- `r = rotr(v, n)` of R107. -/
def RotatedRight (v n r : Word) : Prop :=
  r.toNat = v.toNat / 2 ^ (n.toNat % 32) + v.toNat * 2 ^ (32 - n.toNat % 32) % 2 ^ 32

/-- `r` is the bitwise AND of `v` and `w` (R116). -/
def BitsAnd (v w r : Word) : Prop := ∀ j, j < 32 → r.getLsbD j = (v.getLsbD j && w.getLsbD j)

/-- `r` is the bitwise OR of `v` and `w` (R116). -/
def BitsOr (v w r : Word) : Prop := ∀ j, j < 32 → r.getLsbD j = (v.getLsbD j || w.getLsbD j)

/-- `r` is the bitwise XOR of `v` and `w` (R116). -/
def BitsXor (v w r : Word) : Prop :=
  ∀ j, j < 32 → (r.getLsbD j = true ↔ v.getLsbD j ≠ w.getLsbD j)

/-- The meaning pushes the frame of R152 and goes to `target`: push number `j` (from 1) writes the word at
`pushAddr sp j`, `x[0]` to `x[7]` and then the return address; the first of the nine words that does not lie
in memory is the fault (R154, R155). -/
def CallsTo (r : Result) (s : State) (target : Word) (len : Nat) : Prop :=
  ((∀ j, 1 ≤ j → j ≤ 9 → pushAddr s.sp j + 4 ≤ s.cfg.memSize) → ∃ t, r = .next t ∧
    (∀ q : Reg, t.word (pushAddr s.sp (q.val + 1)) = s.reg q) ∧
    (t.word (pushAddr s.sp 9)).toNat = (s.pc.toNat + len) % 2 ^ 32 ∧
    t.sp.toNat = (s.sp.toNat + 36) % 2 ^ 32 ∧ t.pc = target ∧
    Frame s t { sp := true, stored := (List.range 9).map fun j => (pushAddr s.sp (j + 1), 4) }) ∧
  (∀ j, 1 ≤ j → j ≤ 9 → s.cfg.memSize < pushAddr s.sp j + 4 →
    (∀ i, 1 ≤ i → i < j → pushAddr s.sp i + 4 ≤ s.cfg.memSize) →
    Faults r s (.memoryOutOfRange (pushAddr s.sp j) 4))

end Sys2Proof.Machine

namespace Sys2Proof

/-! ### Which instructions reach which state -/

/-- The general registers an instruction may write (the table of R10). -/
def Instr.writtenRegs : Instr → List Reg
  | .movr _ Rd | .movrr _ Rd | .movmr _ Rd | .movrpr _ Rd | .movror _ _ Rd | .pop Rd
  | .inc Rd | .dec Rd | .lsf Rd _ | .lsfr Rd _ | .rsf Rd _ | .rsfr Rd _ | .wlsf Rd _ | .wlsfr Rd _
  | .wrsf Rd _ | .wrsfr Rd _ | .and Rd _ | .andr Rd _ | .or Rd _ | .orr Rd _ | .xor Rd _ | .xorr Rd _
  | .not Rd => [Rd]
  | .ret => [0, 1, 2, 3, 4, 5, 6, 7]
  | _ => []

/-- The ten instructions that write ACC (R14). -/
def Instr.writesAcc : Instr → Bool
  | .add _ _ | .addr _ _ | .sub _ _ | .subwr _ _ | .subr _ _ | .mult _ _ | .multr _ _
  | .div _ _ | .divwr _ _ | .divr _ _ => true
  | _ => false

/-- The twelve branches that read ACC (R14). -/
def Instr.readsAcc : Instr → Bool
  | .breq _ _ | .breqr _ _ | .brnq _ _ | .brnqr _ _ | .brlt _ _ | .brltr _ _ | .brgt _ _ | .brgtr _ _
  | .brlte _ _ | .brlter _ _ | .brgte _ _ | .brgter _ _ => true
  | _ => false

/-- The twelve instructions that write O (R17). -/
def Instr.writesO : Instr → Bool
  | .add _ _ | .addr _ _ | .sub _ _ | .subwr _ _ | .subr _ _ | .mult _ _ | .multr _ _
  | .div _ _ | .divwr _ _ | .divr _ _ | .inc _ | .dec _ => true
  | _ => false

/-- The 27 instructions that write Z: the twelve of O, the shifts, the rotates and the logic (R16). -/
def Instr.writesZ : Instr → Bool
  | .lsf _ _ | .lsfr _ _ | .rsf _ _ | .rsfr _ _ | .wlsf _ _ | .wlsfr _ _ | .wrsf _ _ | .wrsfr _ _
  | .and _ _ | .andr _ _ | .or _ _ | .orr _ _ | .xor _ _ | .xorr _ _ | .not _ => true
  | i => i.writesO

/-- The two branches that read a bit of SR (R18). -/
def Instr.readsSr : Instr → Bool
  | .brbs _ _ | .brbc _ _ => true
  | _ => false

/-- The six instructions that move SP (R12). -/
def Instr.movesSp : Instr → Bool
  | .push _ | .pushr _ | .call _ | .callr _ | .pop _ | .ret => true
  | _ => false

/-- The six buffer instructions, the only ones that reach the device space (R22). -/
def Instr.reachesDevice : Instr → Bool
  | .load _ _ _ | .loadr _ _ _ | .loadm _ _ _ | .store _ _ _ | .storer _ _ _ | .storem _ _ _ => true
  | _ => false

/-- The instructions that write main memory: two moves, the pushes, the calls and the buffer loads (R44). -/
def Instr.writesMemory : Instr → Bool
  | .movm _ _ | .movrm _ _ | .push _ | .pushr _ | .call _ | .callr _
  | .load _ _ _ | .loadr _ _ _ | .loadm _ _ _ => true
  | _ => false

/-- The control transfers and HALT: the instructions that need not end with `pc <- next_pc` (R11). -/
def Instr.setsPc : Instr → Bool
  | .halt | .jmp _ | .call _ | .callr _ | .ret => true
  | .brbs _ _ | .brbc _ _ => true
  | .breq _ _ | .breqr _ _ | .breqrw _ _ _ | .breqrr _ _ _
  | .brnq _ _ | .brnqr _ _ | .brnqrw _ _ _ | .brnqrr _ _ _
  | .brlt _ _ | .brltr _ _ | .brltrw _ _ _ | .brltrr _ _ _
  | .brgt _ _ | .brgtr _ _ | .brgtrw _ _ _ | .brgtrr _ _ _
  | .brlte _ _ | .brlter _ _ | .brlterw _ _ _ | .brlterr _ _ _
  | .brgte _ _ | .brgter _ _ | .brgterw _ _ _ | .brgterr _ _ _ => true
  | _ => false

/-- The offsets of the register fields of a format, in parameter order (R53). -/
def Format.regOffsets : Format → List Nat
  | .n => []
  | .r => [1]
  | .w => []
  | .rr => [1, 2]
  | .rw => [1]
  | .wr => [5]
  | .ww => []
  | .bw => []
  | .rrr => [1, 2, 3]
  | .rrw => [1, 2]
  | .rwr => [1, 6]
  | .wrr => [5, 6]
  | .rww => [1]

end Sys2Proof

namespace Sys2Proof.Machine

/-- The first register field of an instruction at `a` that names no register, in parameter order (R55, R56). -/
def badReg (m : Memory) (a : Nat) (f : Format) : Option Byte :=
  (f.regOffsets.map fun o => m.read (a + o)).find? fun b => 7 < b.toNat

/-- The status-bit field of an instruction at `a`, where it names no bit (R55, R57). -/
def badBit (m : Memory) (a : Nat) (f : Format) : Option Byte :=
  if f = .bw ∧ 31 < (m.read (a + 1)).toNat then some (m.read (a + 1)) else none

end Sys2Proof.Machine
end

