-- ==== Sys2Proof/Certificates/Slice0/Obligations.lean ====
section
/-!
DEFINITION. The statements for the provers, from the numbered rules of `spec/`: one `Prop` each.
-/

open Sys2Proof Sys2Proof.Machine

/-! ### HALT and NOP -/

/-- R70: HALT sets the status, keeps PC at the HALT byte and changes nothing else; no step follows. -/
def Obligations.HaltStopsTheMachine : Prop :=
  EncodedAs .halt 0xFF .n 1 (fun _ => []) ∧
  ∀ s, exec .halt s = .next { s with status := .halted } ∧
    ∃ r, step { s with status := .halted } = .fault r

/-- R71: NOP moves PC to the next byte, modulo 2^32, and changes nothing else. -/
def Obligations.NopOnlyMovesPc : Prop :=
  EncodedAs .nop 0x00 .n 1 (fun _ => []) ∧
  ∀ s, ∃ t, exec .nop s = .next t ∧ Frame s t {} ∧ PcMoved s t 1

/-! ### The moves -/

/-- R73, R75: MOVR and MOVRR put the value in `Rd`, write no flag and cannot fault. -/
def Obligations.RegisterMoves : Prop :=
  ∀ (K : Word) (Ro Rd : Reg),
    EncodedAs (.movr K Rd) 0x10 .wr 6 (fun o => wordBytes o K ++ [regByte Rd]) ∧
    EncodedAs (.movrr Ro Rd) 0x12 .rr 3 (fun _ => [regByte Ro, regByte Rd]) ∧
    ∀ s,
      (∃ t, exec (.movr K Rd) s = .next t ∧ t.reg Rd = K ∧ Frame s t { regs := [Rd] } ∧ PcMoved s t 6) ∧
      (∃ t, exec (.movrr Ro Rd) s = .next t ∧ t.reg Rd = s.reg Ro ∧ Frame s t { regs := [Rd] } ∧ PcMoved s t 3)

/-- R74, R76: MOVM and MOVRM store a word at `k` at any alignment, or take `MemoryOutOfRange(k, 4)` and change nothing. -/
def Obligations.StoringMoves : Prop :=
  ∀ (K k : Word) (Ro : Reg),
    EncodedAs (.movm K k) 0x11 .ww 9 (fun o => wordBytes o K ++ wordBytes o k) ∧
    EncodedAs (.movrm Ro k) 0x13 .rw 6 (fun o => regByte Ro :: wordBytes o k) ∧
    ∀ s, StoresWord (exec (.movm K k) s) s (constAddr k) K 9 ∧
      StoresWord (exec (.movrm Ro k) s) s (constAddr k) (s.reg Ro) 6

/-- R77, R78, R79: MOVMR, MOVRPR and MOVROR load the word at `k`, at `x[o]`, at the exact sum `x[o] + K`, or take `MemoryOutOfRange` of that word. -/
def Obligations.LoadingMoves : Prop :=
  ∀ (k K : Word) (Ro Rd : Reg),
    EncodedAs (.movmr k Rd) 0x14 .wr 6 (fun o => wordBytes o k ++ [regByte Rd]) ∧
    EncodedAs (.movrpr Ro Rd) 0x17 .rr 3 (fun _ => [regByte Ro, regByte Rd]) ∧
    EncodedAs (.movror Ro K Rd) 0x18 .rwr 7 (fun o => regByte Ro :: (wordBytes o K ++ [regByte Rd])) ∧
    ∀ s, LoadsWord (exec (.movmr k Rd) s) s k.toNat Rd 6 ∧
      LoadsWord (exec (.movrpr Ro Rd) s) s (s.reg Ro).toNat Rd 3 ∧
      LoadsWord (exec (.movror Ro K Rd) s) s ((s.reg Ro).toNat + K.toNat) Rd 7

/-- R35: a sum that reaches past 2^32 is out of range whatever MEM_SIZE is; it never wraps to a low address. -/
def Obligations.AddressSumsDoNotWrap : Prop :=
  ∀ (s : State), s.wf → ∀ (Ro Rd R : Reg) (K k : Word),
    (2 ^ 32 < (s.reg Ro).toNat + K.toNat + 4 →
      Faults (exec (.movror Ro K Rd) s) s (.memoryOutOfRange ((s.reg Ro).toNat + K.toNat) 4)) ∧
    ((s.reg R).toNat ≠ 0 → 2 ^ 32 < k.toNat + (s.reg R).toNat →
      Faults (exec (.store k R Rd) s) s (.memoryOutOfRange k.toNat (s.reg R).toNat))

/-- R31, R32: where each byte of a stored word stands, in both byte orders, and what a word read from four bytes is. -/
def Obligations.WordsInByteOrder : Prop :=
  ∀ (m : Memory) (a : Nat) (v : Word),
    (∀ j, j < 4 → ((m.writeWord .big a v).read (a + j)).toNat = v.toNat / 2 ^ (8 * (3 - j)) % 2 ^ 8) ∧
    (∀ j, j < 4 → ((m.writeWord .little a v).read (a + j)).toNat = v.toNat / 2 ^ (8 * j) % 2 ^ 8) ∧
    (∀ o x, ¬(a ≤ x ∧ x < a + 4) → (m.writeWord o a v).read x = m.read x) ∧
    (m.readWord .big a).toNat = (m.read a).toNat * 2 ^ 24 + (m.read (a + 1)).toNat * 2 ^ 16 +
      (m.read (a + 2)).toNat * 2 ^ 8 + (m.read (a + 3)).toNat ∧
    (m.readWord .little a).toNat = (m.read (a + 3)).toNat * 2 ^ 24 + (m.read (a + 2)).toNat * 2 ^ 16 +
      (m.read (a + 1)).toNat * 2 ^ 8 + (m.read a).toNat ∧
    (∀ o, (m.writeWord o a v).readWord o a = v)

/-! ### The buffer instructions and the device space -/

/-- R81, R82, R83: LOAD, LOADR and LOADM copy `x[R]` bytes from the device to memory, with their faults in order; LOADM reads its pointer word first, whatever the count. -/
def Obligations.BufferLoads : Prop :=
  ∀ (Ro R Rd : Reg) (k Md : Word),
    EncodedAs (.load Ro R k) 0x19 .rrw 7 (fun o => regByte Ro :: regByte R :: wordBytes o k) ∧
    EncodedAs (.loadr Ro R Rd) 0x1A .rrr 4 (fun _ => [regByte Ro, regByte R, regByte Rd]) ∧
    EncodedAs (.loadm Ro R Md) 0x1B .rrw 7 (fun o => regByte Ro :: regByte R :: wordBytes o Md) ∧
    ∀ s,
      CopiesFromDevice (exec (.load Ro R k) s) s (s.reg Ro).toNat (s.reg R).toNat k.toNat 7 ∧
      CopiesFromDevice (exec (.loadr Ro R Rd) s) s (s.reg Ro).toNat (s.reg R).toNat (s.reg Rd).toNat 4 ∧
      (s.cfg.memSize < Md.toNat + 4 →
        Faults (exec (.loadm Ro R Md) s) s (.memoryOutOfRange Md.toNat 4)) ∧
      (Md.toNat + 4 ≤ s.cfg.memSize →
        CopiesFromDevice (exec (.loadm Ro R Md) s) s (s.reg Ro).toNat (s.reg R).toNat
          (s.word Md.toNat).toNat 7)

/-- R84, R85, R86: STORE, STORER and STOREM copy `x[R]` bytes from memory to the device, with their faults in order; memory and registers are unchanged. -/
def Obligations.BufferStores : Prop :=
  ∀ (Ro R Rd : Reg) (k Mo : Word),
    EncodedAs (.store k R Rd) 0x1C .wrr 7 (fun o => wordBytes o k ++ [regByte R, regByte Rd]) ∧
    EncodedAs (.storer Ro R Rd) 0x1D .rrr 4 (fun _ => [regByte Ro, regByte R, regByte Rd]) ∧
    EncodedAs (.storem Mo R Rd) 0x1E .wrr 7 (fun o => wordBytes o Mo ++ [regByte R, regByte Rd]) ∧
    ∀ s,
      CopiesToDevice (exec (.store k R Rd) s) s k.toNat (s.reg R).toNat (s.reg Rd).toNat 7 ∧
      CopiesToDevice (exec (.storer Ro R Rd) s) s (s.reg Ro).toNat (s.reg R).toNat (s.reg Rd).toNat 4 ∧
      (s.cfg.memSize < Mo.toNat + 4 →
        Faults (exec (.storem Mo R Rd) s) s (.memoryOutOfRange Mo.toNat 4)) ∧
      (Mo.toNat + 4 ≤ s.cfg.memSize →
        CopiesToDevice (exec (.storem Mo R Rd) s) s (s.word Mo.toNat).toNat (s.reg R).toNat
          (s.reg Rd).toNat 7)

/-- R36: what the reference device accepts, answers and becomes. -/
def Obligations.ReferenceDeviceIsAByteStore : Prop :=
  ∀ (s : State), s.cfg.device = .byteStore → ∀ (a n : Nat) (bs : List Byte),
    (devValid s a n = true ↔ n = 0 ∨ a + n ≤ s.cfg.diskSize) ∧
    (devBytes s a n).length = n ∧
    (∀ i, i < n → (devBytes s a n).getD i 0 = s.dev.cells.read (a + i)) ∧
    devAfterRead s a n = s.dev ∧
    (∀ i, i < bs.length → (devAfterWrite s a bs).cells.read (a + i) = bs.getD i 0) ∧
    (∀ x, ¬(a ≤ x ∧ x < a + bs.length) → (devAfterWrite s a bs).cells.read x = s.dev.cells.read x)

/-- R36 with log entry 5 (the model's choice): a platform's own device answers by the open functions of its history; an empty transfer is always valid and changes nothing. -/
def Obligations.PlatformDeviceIsOpen : Prop :=
  ∀ (s : State), s.cfg.device = .platform → ∀ (a n : Nat) (bs : List Byte),
    (devValid s a n = true ↔ n = 0 ∨ Config.platformAccepts a n = true) ∧
    (devBytes s a n).length = n ∧
    (∀ i, i < n → (devBytes s a n).getD i 0 = Config.platformByte s.dev.history a n i) ∧
    devAfterRead s a 0 = s.dev ∧ devAfterWrite s a [] = s.dev ∧
    (n ≠ 0 → devAfterRead s a n = { s.dev with history := .read a n :: s.dev.history }) ∧
    (bs ≠ [] → devAfterWrite s a bs = { s.dev with history := .write a bs :: s.dev.history })

/-- R38, R80: with `x[R] = 0` LOAD, LOADR, STORE and STORER copy nothing and cannot fault, on any device. -/
def Obligations.EmptyBufferCopies : Prop :=
  ∀ (s : State) (Ro R Rd : Reg) (k : Word), (s.reg R).toNat = 0 →
    (exec (.load Ro R k) s = .next { s with pc := s.pc + 7 }) ∧
    (exec (.loadr Ro R Rd) s = .next { s with pc := s.pc + 4 }) ∧
    (exec (.store k R Rd) s = .next { s with pc := s.pc + 7 }) ∧
    (exec (.storer Ro R Rd) s = .next { s with pc := s.pc + 4 })

/-- R36, R38: what STORER writes to the reference device, LOADR reads back into memory elsewhere. -/
def Obligations.BufferRoundTrip : Prop :=
  ∀ (s : State) (Ro R Rd Re : Reg), s.cfg.device = .byteStore →
    (s.reg Rd).toNat + (s.reg R).toNat ≤ s.cfg.diskSize →
    (s.reg Ro).toNat + (s.reg R).toNat ≤ s.cfg.memSize →
    (s.reg Re).toNat + (s.reg R).toNat ≤ s.cfg.memSize →
    ∃ t u, exec (.storer Ro R Rd) s = .next t ∧ exec (.loadr Rd R Re) t = .next u ∧
      (∀ i, i < (s.reg R).toNat →
        u.mem.read ((s.reg Re).toNat + i) = s.mem.read ((s.reg Ro).toNat + i)) ∧
      (∀ x, ¬((s.reg Re).toNat ≤ x ∧ x < (s.reg Re).toNat + (s.reg R).toNat) →
        u.mem.read x = s.mem.read x)

/-! ### The stack -/

/-- R90, R91: PUSH and PUSHR move SP up by 4 and store the word at the new SP, or take `MemoryOutOfRange` with SP unmoved. -/
def Obligations.Pushes : Prop :=
  ∀ (K : Word) (Ro : Reg),
    EncodedAs (.push K) 0x15 .w 5 (fun o => wordBytes o K) ∧
    EncodedAs (.pushr Ro) 0x16 .r 2 (fun _ => [regByte Ro]) ∧
    ∀ s, PushesWord (exec (.push K) s) s K 5 ∧ PushesWord (exec (.pushr Ro) s) s (s.reg Ro) 2

/-- R89: POP loads the word at SP into `Rd` and moves SP down by 4 modulo 2^32, or takes `MemoryOutOfRange(sp, 4)`. -/
def Obligations.PopsTheTop : Prop :=
  ∀ (Rd : Reg),
    EncodedAs (.pop Rd) 0x05 .r 2 (fun _ => [regByte Rd]) ∧
    ∀ s,
      (s.sp.toNat + 4 ≤ s.cfg.memSize → ∃ t, exec (.pop Rd) s = .next t ∧
        t.reg Rd = s.word s.sp.toNat ∧
        t.sp.toNat = (if s.sp.toNat < 4 then s.sp.toNat + 2 ^ 32 - 4 else s.sp.toNat - 4) ∧
        Frame s t { regs := [Rd], sp := true } ∧ PcMoved s t 2) ∧
      (s.cfg.memSize < s.sp.toNat + 4 → Faults (exec (.pop Rd) s) s (.memoryOutOfRange s.sp.toNat 4))

/-- R91: `PUSHR Ra` followed by `POP Rb` copies `Ra` to `Rb` and leaves SP as it was. -/
def Obligations.PopUndoesPush : Prop :=
  ∀ (s t : State) (Ra Rb : Reg), pushAddr s.sp 1 + 4 ≤ s.cfg.memSize → exec (.pushr Ra) s = .next t →
    ∃ u, exec (.pop Rb) t = .next u ∧ u.reg Rb = s.reg Ra ∧ u.sp = s.sp ∧
      ∀ r, r ≠ Rb → u.reg r = s.reg r

/-! ### Arithmetic -/

/-- R94 to R98: ADD, ADDR, SUB, SUBWR and SUBR put the exact sum or difference modulo 2^32 in ACC, with both flags; SUBWR is encoded at 0x24 where `SUBWR_OPCODE = 0x24`, and no bytes decode to it where it is `none`. -/
def Obligations.AddAndSubtract : Prop :=
  ∀ (K : Word) (R R1 R2 : Reg),
    EncodedAs (.add K R) 0x20 .wr 6 (fun o => wordBytes o K ++ [regByte R]) ∧
    EncodedAs (.addr R1 R2) 0x21 .rr 3 (fun _ => [regByte R1, regByte R2]) ∧
    EncodedAs (.sub R K) 0x22 .rw 6 (fun o => regByte R :: wordBytes o K) ∧
    ((Instr.subwr K R).format = .wr ∧ (Instr.subwr K R).length = 6) ∧
    (∀ c : Config, c.subwrOpcode = .at24 →
      encode c (.subwr K R) = 0x24 :: (wordBytes c.byteOrder K ++ [regByte R]) ∧
      (encode c (.subwr K R)).length = 6) ∧
    (∀ c bs, c.subwrOpcode = .none → decode c bs ≠ .ok (.subwr K R)) ∧
    EncodedAs (.subr R1 R2) 0x23 .rr 3 (fun _ => [regByte R1, regByte R2]) ∧
    ∀ s,
      AccGets (exec (.add K R) s) s (K.toNat + (s.reg R).toNat) 6 ∧
      AccGets (exec (.addr R1 R2) s) s ((s.reg R1).toNat + (s.reg R2).toNat) 3 ∧
      AccGets (exec (.sub R K) s) s ((s.reg R).toNat - K.toNat) 6 ∧
      AccGets (exec (.subwr K R) s) s (K.toNat - (s.reg R).toNat) 6 ∧
      AccGets (exec (.subr R1 R2) s) s ((s.reg R1).toNat - (s.reg R2).toNat) 3

/-- R99, R100: MULT and MULTR put the low 32 bits of the exact product in ACC, O when the product needs more. -/
def Obligations.Multiplications : Prop :=
  ∀ (K : Word) (R R1 R2 : Reg),
    EncodedAs (.mult K R) 0x25 .wr 6 (fun o => wordBytes o K ++ [regByte R]) ∧
    EncodedAs (.multr R1 R2) 0x26 .rr 3 (fun _ => [regByte R1, regByte R2]) ∧
    ∀ s,
      AccGets (exec (.mult K R) s) s (K.toNat * (s.reg R).toNat) 6 ∧
      AccGets (exec (.multr R1 R2) s) s ((s.reg R1).toNat * (s.reg R2).toNat) 3

/-- R101, R102, R103: DIV, DIVWR and DIVR put the rounded-down quotient in ACC, write Z and clear O; a zero divisor takes `DivideByZero` and writes nothing. -/
def Obligations.Divisions : Prop :=
  ∀ (K : Word) (R R1 R2 : Reg),
    EncodedAs (.div R K) 0x27 .rw 6 (fun o => regByte R :: wordBytes o K) ∧
    EncodedAs (.divwr K R) 0x28 .wr 6 (fun o => wordBytes o K ++ [regByte R]) ∧
    EncodedAs (.divr R1 R2) 0x29 .rr 3 (fun _ => [regByte R1, regByte R2]) ∧
    ∀ s,
      Divides (exec (.div R K) s) s (s.reg R) K 6 ∧
      Divides (exec (.divwr K R) s) s K (s.reg R) 6 ∧
      Divides (exec (.divr R1 R2) s) s (s.reg R1) (s.reg R2) 3

/-- R104, R105: INC and DEC add or subtract 1 in place, modulo 2^32, with both flags; ACC is not touched. -/
def Obligations.IncrementAndDecrement : Prop :=
  ∀ (Rd : Reg),
    EncodedAs (.inc Rd) 0x2A .r 2 (fun _ => [regByte Rd]) ∧
    EncodedAs (.dec Rd) 0x2B .r 2 (fun _ => [regByte Rd]) ∧
    ∀ s,
      RegGets (exec (.inc Rd) s) s Rd ((s.reg Rd).toNat + 1) 2 ∧
      RegGets (exec (.dec Rd) s) s Rd ((s.reg Rd).toNat - 1) 2

/-- R61: `0x22` is SUB; `0x24` is SUBWR or an illegal opcode, as `SUBWR_OPCODE` says. -/
def Obligations.SubwrOpcode : Prop :=
  Config.reset.subwrOpcode = .at24 ∧
  ∀ (c : Config) (K : Word) (R : Reg) (rest : List Byte),
    decode c (0x22 :: regByte R :: (wordBytes c.byteOrder K ++ rest)) = .ok (.sub R K) ∧
    (c.subwrOpcode = .at24 →
      decode c (0x24 :: (wordBytes c.byteOrder K ++ regByte R :: rest)) = .ok (.subwr K R)) ∧
    (c.subwrOpcode = .none →
      decode c (0x24 :: rest) = .error (.illegalOpcode 0x24) ∧
      ∀ bs i, decode c bs = .ok i → i.isSubwr = false)

/-! ### Shifts, rotates, logic -/

/-- R106, R108 to R111: LSF, LSFR, RSF and RSFR shift in place by the whole amount; Z is written, O is left. -/
def Obligations.PlainShifts : Prop :=
  ∀ (K : Word) (Rd R : Reg),
    EncodedAs (.lsf Rd K) 0x50 .rw 6 (fun o => regByte Rd :: wordBytes o K) ∧
    EncodedAs (.lsfr Rd R) 0x51 .rr 3 (fun _ => [regByte Rd, regByte R]) ∧
    EncodedAs (.rsf Rd K) 0x52 .rw 6 (fun o => regByte Rd :: wordBytes o K) ∧
    EncodedAs (.rsfr Rd R) 0x53 .rr 3 (fun _ => [regByte Rd, regByte R]) ∧
    ∀ s,
      Replaces (exec (.lsf Rd K) s) s Rd (ShiftedLeft (s.reg Rd) K) 6 ∧
      Replaces (exec (.lsfr Rd R) s) s Rd (ShiftedLeft (s.reg Rd) (s.reg R)) 3 ∧
      Replaces (exec (.rsf Rd K) s) s Rd (ShiftedRight (s.reg Rd) K) 6 ∧
      Replaces (exec (.rsfr Rd R) s) s Rd (ShiftedRight (s.reg Rd) (s.reg R)) 3

/-- R107, R112 to R115: WLSF, WLSFR, WRSF and WRSFR rotate in place by the amount modulo 32; Z is written, O is left. -/
def Obligations.Rotates : Prop :=
  ∀ (K : Word) (Rd R : Reg),
    EncodedAs (.wlsf Rd K) 0x54 .rw 6 (fun o => regByte Rd :: wordBytes o K) ∧
    EncodedAs (.wlsfr Rd R) 0x55 .rr 3 (fun _ => [regByte Rd, regByte R]) ∧
    EncodedAs (.wrsf Rd K) 0x56 .rw 6 (fun o => regByte Rd :: wordBytes o K) ∧
    EncodedAs (.wrsfr Rd R) 0x57 .rr 3 (fun _ => [regByte Rd, regByte R]) ∧
    ∀ s,
      Replaces (exec (.wlsf Rd K) s) s Rd (RotatedLeft (s.reg Rd) K) 6 ∧
      Replaces (exec (.wlsfr Rd R) s) s Rd (RotatedLeft (s.reg Rd) (s.reg R)) 3 ∧
      Replaces (exec (.wrsf Rd K) s) s Rd (RotatedRight (s.reg Rd) K) 6 ∧
      Replaces (exec (.wrsfr Rd R) s) s Rd (RotatedRight (s.reg Rd) (s.reg R)) 3

/-- R114, R107: `WRSF Rd, K` undoes `WLSF Rd, K`, and a rotate gives 0 only from 0. -/
def Obligations.RotateRightUndoesLeft : Prop :=
  ∀ (s t : State) (Rd : Reg) (K : Word), exec (.wlsf Rd K) s = .next t →
    (t.z = true ↔ (s.reg Rd).toNat = 0) ∧
    ∃ u, exec (.wrsf Rd K) t = .next u ∧ ∀ r, u.reg r = s.reg r

/-- R117 to R122: AND, ANDR, OR, ORR, XOR and XORR work bit by bit in place; Z is written, O is left. -/
def Obligations.LogicInstructions : Prop :=
  ∀ (K : Word) (Rd R : Reg),
    EncodedAs (.and Rd K) 0x58 .rw 6 (fun o => regByte Rd :: wordBytes o K) ∧
    EncodedAs (.andr Rd R) 0x59 .rr 3 (fun _ => [regByte Rd, regByte R]) ∧
    EncodedAs (.or Rd K) 0x5A .rw 6 (fun o => regByte Rd :: wordBytes o K) ∧
    EncodedAs (.orr Rd R) 0x5B .rr 3 (fun _ => [regByte Rd, regByte R]) ∧
    EncodedAs (.xor Rd K) 0x5C .rw 6 (fun o => regByte Rd :: wordBytes o K) ∧
    EncodedAs (.xorr Rd R) 0x5D .rr 3 (fun _ => [regByte Rd, regByte R]) ∧
    ∀ s,
      Replaces (exec (.and Rd K) s) s Rd (BitsAnd (s.reg Rd) K) 6 ∧
      Replaces (exec (.andr Rd R) s) s Rd (BitsAnd (s.reg Rd) (s.reg R)) 3 ∧
      Replaces (exec (.or Rd K) s) s Rd (BitsOr (s.reg Rd) K) 6 ∧
      Replaces (exec (.orr Rd R) s) s Rd (BitsOr (s.reg Rd) (s.reg R)) 3 ∧
      Replaces (exec (.xor Rd K) s) s Rd (BitsXor (s.reg Rd) K) 6 ∧
      Replaces (exec (.xorr Rd R) s) s Rd (BitsXor (s.reg Rd) (s.reg R)) 3

/-- R123: NOT complements every bit of `Rd`, as arithmetic `2^32 - 1 - v` (R116); Z is written, O is left. -/
def Obligations.NotInstruction : Prop :=
  ∀ (Rd : Reg),
    EncodedAs (.not Rd) 0x5E .r 2 (fun _ => [regByte Rd]) ∧
    ∀ s, Replaces (exec (.not Rd) s) s Rd
      (fun r => r.toNat = 2 ^ 32 - 1 - (s.reg Rd).toNat ∧
        ∀ j, j < 32 → r.getLsbD j = !(s.reg Rd).getLsbD j) 2

/-! ### Branches -/

/-- R126, R127: BRBS and BRBC go to `k` if the bit of SR is 1, or 0, and else go on; on a bit that is no flag, BRBS never and BRBC always, where bits 31:2 are 0. -/
def Obligations.StatusBitBranches : Prop :=
  ∀ (Sb : StatusBit) (k : Word),
    EncodedAs (.brbs Sb k) 0x30 .bw 6 (fun o => bitByte Sb :: wordBytes o k) ∧
    EncodedAs (.brbc Sb k) 0x31 .bw 6 (fun o => bitByte Sb :: wordBytes o k) ∧
    ∀ s,
      Branches (exec (.brbs Sb k) s) s (s.sr.getLsbD Sb.val = true) k 6 ∧
      Branches (exec (.brbc Sb k) s) s (s.sr.getLsbD Sb.val = false) k 6 ∧
      (s.wf → 2 ≤ Sb.val →
        exec (.brbs Sb k) s = .next { s with pc := s.pc + 6 } ∧
        exec (.brbc Sb k) s = .next { s with pc := k })

/-- R128, R132, R136, R140, R144, R148: the six comparisons of ACC with the constant K, unsigned, and only PC written. -/
def Obligations.BranchesAccWithConstant : Prop :=
  ∀ (K k : Word),
    EncodedAs (.breq K k) 0x32 .ww 9 (fun o => wordBytes o K ++ wordBytes o k) ∧
    EncodedAs (.brnq K k) 0x36 .ww 9 (fun o => wordBytes o K ++ wordBytes o k) ∧
    EncodedAs (.brlt K k) 0x3A .ww 9 (fun o => wordBytes o K ++ wordBytes o k) ∧
    EncodedAs (.brgt K k) 0x3E .ww 9 (fun o => wordBytes o K ++ wordBytes o k) ∧
    EncodedAs (.brlte K k) 0x42 .ww 9 (fun o => wordBytes o K ++ wordBytes o k) ∧
    EncodedAs (.brgte K k) 0x46 .ww 9 (fun o => wordBytes o K ++ wordBytes o k) ∧
    ∀ s,
      Branches (exec (.breq K k) s) s (s.acc.toNat = K.toNat) k 9 ∧
      Branches (exec (.brnq K k) s) s (s.acc.toNat ≠ K.toNat) k 9 ∧
      Branches (exec (.brlt K k) s) s (s.acc.toNat < K.toNat) k 9 ∧
      Branches (exec (.brgt K k) s) s (s.acc.toNat > K.toNat) k 9 ∧
      Branches (exec (.brlte K k) s) s (s.acc.toNat ≤ K.toNat) k 9 ∧
      Branches (exec (.brgte K k) s) s (s.acc.toNat ≥ K.toNat) k 9

/-- R129, R133, R137, R141, R145, R149: the six comparisons of ACC with register R, unsigned, and only PC written. -/
def Obligations.BranchesAccWithRegister : Prop :=
  ∀ (R : Reg) (k : Word),
    EncodedAs (.breqr R k) 0x33 .rw 6 (fun o => regByte R :: wordBytes o k) ∧
    EncodedAs (.brnqr R k) 0x37 .rw 6 (fun o => regByte R :: wordBytes o k) ∧
    EncodedAs (.brltr R k) 0x3B .rw 6 (fun o => regByte R :: wordBytes o k) ∧
    EncodedAs (.brgtr R k) 0x3F .rw 6 (fun o => regByte R :: wordBytes o k) ∧
    EncodedAs (.brlter R k) 0x43 .rw 6 (fun o => regByte R :: wordBytes o k) ∧
    EncodedAs (.brgter R k) 0x47 .rw 6 (fun o => regByte R :: wordBytes o k) ∧
    ∀ s,
      Branches (exec (.breqr R k) s) s (s.acc.toNat = (s.reg R).toNat) k 6 ∧
      Branches (exec (.brnqr R k) s) s (s.acc.toNat ≠ (s.reg R).toNat) k 6 ∧
      Branches (exec (.brltr R k) s) s (s.acc.toNat < (s.reg R).toNat) k 6 ∧
      Branches (exec (.brgtr R k) s) s (s.acc.toNat > (s.reg R).toNat) k 6 ∧
      Branches (exec (.brlter R k) s) s (s.acc.toNat ≤ (s.reg R).toNat) k 6 ∧
      Branches (exec (.brgter R k) s) s (s.acc.toNat ≥ (s.reg R).toNat) k 6

/-- R130, R134, R138, R142, R146, R150: the six comparisons of register R with the constant K, unsigned, and only PC written. -/
def Obligations.BranchesRegisterWithConstant : Prop :=
  ∀ (R : Reg) (K k : Word),
    EncodedAs (.breqrw R K k) 0x34 .rww 10 (fun o => regByte R :: (wordBytes o K ++ wordBytes o k)) ∧
    EncodedAs (.brnqrw R K k) 0x38 .rww 10 (fun o => regByte R :: (wordBytes o K ++ wordBytes o k)) ∧
    EncodedAs (.brltrw R K k) 0x3C .rww 10 (fun o => regByte R :: (wordBytes o K ++ wordBytes o k)) ∧
    EncodedAs (.brgtrw R K k) 0x40 .rww 10 (fun o => regByte R :: (wordBytes o K ++ wordBytes o k)) ∧
    EncodedAs (.brlterw R K k) 0x44 .rww 10 (fun o => regByte R :: (wordBytes o K ++ wordBytes o k)) ∧
    EncodedAs (.brgterw R K k) 0x48 .rww 10 (fun o => regByte R :: (wordBytes o K ++ wordBytes o k)) ∧
    ∀ s,
      Branches (exec (.breqrw R K k) s) s ((s.reg R).toNat = K.toNat) k 10 ∧
      Branches (exec (.brnqrw R K k) s) s ((s.reg R).toNat ≠ K.toNat) k 10 ∧
      Branches (exec (.brltrw R K k) s) s ((s.reg R).toNat < K.toNat) k 10 ∧
      Branches (exec (.brgtrw R K k) s) s ((s.reg R).toNat > K.toNat) k 10 ∧
      Branches (exec (.brlterw R K k) s) s ((s.reg R).toNat ≤ K.toNat) k 10 ∧
      Branches (exec (.brgterw R K k) s) s ((s.reg R).toNat ≥ K.toNat) k 10

/-- R131, R135, R139, R143, R147, R151: the six comparisons of register R1 with register R2, unsigned, and only PC written. -/
def Obligations.BranchesRegisterWithRegister : Prop :=
  ∀ (R1 R2 : Reg) (k : Word),
    EncodedAs (.breqrr R1 R2 k) 0x35 .rrw 7 (fun o => regByte R1 :: regByte R2 :: wordBytes o k) ∧
    EncodedAs (.brnqrr R1 R2 k) 0x39 .rrw 7 (fun o => regByte R1 :: regByte R2 :: wordBytes o k) ∧
    EncodedAs (.brltrr R1 R2 k) 0x3D .rrw 7 (fun o => regByte R1 :: regByte R2 :: wordBytes o k) ∧
    EncodedAs (.brgtrr R1 R2 k) 0x41 .rrw 7 (fun o => regByte R1 :: regByte R2 :: wordBytes o k) ∧
    EncodedAs (.brlterr R1 R2 k) 0x45 .rrw 7 (fun o => regByte R1 :: regByte R2 :: wordBytes o k) ∧
    EncodedAs (.brgterr R1 R2 k) 0x49 .rrw 7 (fun o => regByte R1 :: regByte R2 :: wordBytes o k) ∧
    ∀ s,
      Branches (exec (.breqrr R1 R2 k) s) s ((s.reg R1).toNat = (s.reg R2).toNat) k 7 ∧
      Branches (exec (.brnqrr R1 R2 k) s) s ((s.reg R1).toNat ≠ (s.reg R2).toNat) k 7 ∧
      Branches (exec (.brltrr R1 R2 k) s) s ((s.reg R1).toNat < (s.reg R2).toNat) k 7 ∧
      Branches (exec (.brgtrr R1 R2 k) s) s ((s.reg R1).toNat > (s.reg R2).toNat) k 7 ∧
      Branches (exec (.brlterr R1 R2 k) s) s ((s.reg R1).toNat ≤ (s.reg R2).toNat) k 7 ∧
      Branches (exec (.brgterr R1 R2 k) s) s ((s.reg R1).toNat ≥ (s.reg R2).toNat) k 7

/-! ### Jump, call, return -/

/-- R153: JMP sets PC to `k` and changes nothing else; the target is not checked. -/
def Obligations.Jump : Prop :=
  ∀ (k : Word),
    EncodedAs (.jmp k) 0x01 .w 5 (fun o => wordBytes o k) ∧
    (∀ s, ∃ t, exec (.jmp k) s = .next t ∧ t.pc = k ∧ Frame s t {}) ∧
    (∀ s t, s.status = .running → s.cfg.memSize ≤ k.toNat → exec (.jmp k) s = .next t →
      Faults (step t) t (.fetchOutOfRange k.toNat))

/-- R154, R155: CALL and CALLR push `x[0]` to `x[7]` and the return address and go to the target; the first of the nine words outside memory is the fault. -/
def Obligations.Calls : Prop :=
  ∀ (k : Word) (R : Reg),
    EncodedAs (.call k) 0x02 .w 5 (fun o => wordBytes o k) ∧
    EncodedAs (.callr R) 0x03 .r 2 (fun _ => [regByte R]) ∧
    ∀ s, CallsTo (exec (.call k) s) s k 5 ∧ CallsTo (exec (.callr R) s) s (s.reg R) 2

/-- R156: RET pops the return address and then `R7` down to `R0`; the first of the nine words outside memory is the fault. -/
def Obligations.Return : Prop :=
  EncodedAs .ret 0x04 .n 1 (fun _ => []) ∧
  ∀ s,
    ((∀ j, j ≤ 8 → popAddr s.sp j + 4 ≤ s.cfg.memSize) → ∃ t, exec .ret s = .next t ∧
      t.pc = s.word (popAddr s.sp 0) ∧
      (∀ q : Reg, t.reg q = s.word (popAddr s.sp (8 - q.val))) ∧
      t.sp.toNat = (s.sp.toNat + 2 ^ 32 - 36) % 2 ^ 32 ∧
      Frame s t { regs := [0, 1, 2, 3, 4, 5, 6, 7], sp := true }) ∧
    (∀ j, j ≤ 8 → s.cfg.memSize < popAddr s.sp j + 4 →
      (∀ i, i < j → popAddr s.sp i + 4 ≤ s.cfg.memSize) →
      Faults (exec .ret s) s (.memoryOutOfRange (popAddr s.sp j) 4))

/-- R152: where CALL completes, a RET in any later state with the same SP and the same 36 frame bytes gives back all eight registers and SP, and goes to the instruction after the CALL. -/
def Obligations.ReturnUndoesCall : Prop :=
  ∀ (s t u : State) (k : Word),
    (∀ j, 1 ≤ j → j ≤ 9 → pushAddr s.sp j + 4 ≤ s.cfg.memSize) → exec (.call k) s = .next t →
    u.sp = t.sp → u.cfg = t.cfg →
    (∀ j, 1 ≤ j → j ≤ 9 → ∀ i, i < 4 →
      u.mem.read (pushAddr s.sp j + i) = t.mem.read (pushAddr s.sp j + i)) →
    ∃ v, exec .ret u = .next v ∧ (∀ q, v.reg q = s.reg q) ∧ v.sp = s.sp ∧
      v.pc.toNat = (s.pc.toNat + 5) % 2 ^ 32 ∧ v.acc = u.acc ∧ v.sr = u.sr ∧ v.mem = u.mem

/-! ### Encoding and decoding -/

/-- R50 to R61: the decoder reads back every well-formed instruction from its encoding, whatever bytes follow. -/
def Obligations.DecodeOfEncode : Prop :=
  ∀ (c : Config) (i : Instr) (rest : List Byte), WellFormed c i →
    decode c (encode c i ++ rest) = .ok i

/-- R50 to R61: bytes that decode to an instruction begin with its encoding, and the instruction is well-formed. -/
def Obligations.EncodeOfDecode : Prop :=
  ∀ (c : Config) (bs : List Byte) (i : Instr), decode c bs = .ok i →
    WellFormed c i ∧ i.length ≤ bs.length ∧ bs.take i.length = encode c i

/-- R60: exactly the listed opcode bytes are illegal, 181 or 182 of them, whatever bytes follow. -/
def Obligations.UnassignedOpcodes : Prop :=
  ∀ (c : Config),
    (∀ (op : Byte) (rest : List Byte), decode c (op :: rest) = .error (.illegalOpcode op) ↔
      (0x06 ≤ op.toNat ∧ op.toNat ≤ 0x0F) ∨ op.toNat = 0x1F ∨ (0x2C ≤ op.toNat ∧ op.toNat ≤ 0x2F) ∨
      (0x4A ≤ op.toNat ∧ op.toNat ≤ 0x4F) ∨ (0x5F ≤ op.toNat ∧ op.toNat ≤ 0xFE) ∨
      (op.toNat = 0x24 ∧ c.subwrOpcode = .none)) ∧
    ((List.range 256).filter fun n => (shapeOf c (BitVec.ofNat 8 n)).isNone).length =
      (match c.subwrOpcode with | .at24 => 181 | .none => 182)

/-- R54, R62: the opcode byte alone fixes the format and the length, 1 to 10 bytes. -/
def Obligations.OpcodeFixesLength : Prop :=
  ∀ (c : Config) (op : Byte) (fs gs : List Byte) (i j : Instr),
    decode c (op :: fs) = .ok i → decode c (op :: gs) = .ok j →
    i.format = j.format ∧ i.length = j.length ∧ 1 ≤ i.length ∧ i.length ≤ 10

/-- R50 to R59: bytes the spec writes out decode to the instructions they stand for. -/
def Obligations.SampleEncodings : Prop :=
  decode Config.reset [0x18, 0x02, 0x00, 0x00, 0x00, 0x10, 0x05] = .ok (.movror 2 0x10 5) ∧
  decode Config.reset [0x48, 0x01, 0x00, 0x00, 0x00, 0x64, 0x00, 0x00, 0x00, 0x40] =
    .ok (.brgterw 1 100 0x40) ∧
  decode Config.reset [0xFF] = .ok .halt ∧
  decode Config.reset [0x1E, 0x00, 0x00, 0x00, 0x20, 0x01, 0x02] = .ok (.storem 0x20 1 2) ∧
  decode Config.reset [0x22, 0x00, 0x00, 0x00, 0x00, 0x05] = .ok (.sub 0 5) ∧
  decode Config.reset [0x30, 0x01, 0x00, 0x00, 0x00, 0x40] = .ok (.brbs 1 0x40)

/-! ### Fetch and step -/

/-- R26, R55: where the bytes at PC are the encoding of an instruction and lie in memory, a step of a running machine is that instruction's meaning. -/
def Obligations.StepRunsDecoded : Prop :=
  ∀ (s : State) (i : Instr), s.status = .running → s.pc.toNat + i.length ≤ s.cfg.memSize →
    decode s.cfg (s.mem.readBytes s.pc.toNat i.length) = .ok i → step s = exec i s

/-- R55: the checks of fetch and decode in their order, the fault of the first that fails, and the instruction that runs where none does. -/
def Obligations.FetchChecksInOrder : Prop :=
  ∀ (s : State), s.status = .running →
    (s.cfg.memSize ≤ s.pc.toNat → Faults (step s) s (.fetchOutOfRange s.pc.toNat)) ∧
    (s.pc.toNat < s.cfg.memSize →
      (shapeOf s.cfg (s.mem.read s.pc.toNat) = none →
        Faults (step s) s (.illegalOpcode (s.mem.read s.pc.toNat))) ∧
      ∀ sh, shapeOf s.cfg (s.mem.read s.pc.toNat) = some sh →
        (s.cfg.memSize < s.pc.toNat + sh.format.length →
          Faults (step s) s (.fetchOutOfRange s.cfg.memSize)) ∧
        (s.pc.toNat + sh.format.length ≤ s.cfg.memSize →
          (∀ n, badReg s.mem s.pc.toNat sh.format = some n → Faults (step s) s (.invalidRegister n)) ∧
          (∀ n, badBit s.mem s.pc.toNat sh.format = some n → Faults (step s) s (.invalidStatusBit n)) ∧
          (badReg s.mem s.pc.toNat sh.format = none → badBit s.mem s.pc.toNat sh.format = none →
            ∃ i, i.format = sh.format ∧
              decode s.cfg (s.mem.readBytes s.pc.toNat sh.format.length) = .ok i ∧ step s = exec i s)))

/-- R23, R26, in the form of log entry 10: a step asked of a halted or faulted machine answers no next state, and says which. -/
def Obligations.StoppedMachineTakesNoStep : Prop :=
  State.reset.status = .running ∧
  ∀ s : State, (s.status = .halted → step s = .fault .halted) ∧
    (∀ f, s.status = .faulted f → step s = .fault (.faulted f))

/-- R26, R161: no instruction is refused or stuck; a running machine always has a next state. -/
def Obligations.RunningMachineAlwaysSteps : Prop :=
  (∀ (i : Instr) (s : State), ∃ t, exec i s = .next t) ∧
  ∀ s : State, s.status = .running → ∃ t, step s = .next t

/-- R162: a step that raises a fault changes `status` and nothing else. -/
def Obligations.FaultsArePrecise : Prop :=
  ∀ (s t : State) (f : RunFault), step s = .next t → t.status = .faulted f →
    t = { s with status := .faulted f }

/-- R161: no event but HALT halts the machine. -/
def Obligations.OnlyHaltHalts : Prop :=
  ∀ (s t : State), step s = .next t →
    s.status = .running ∧ (t.status = .halted ↔ fetchDecode s = .ok .halt)

/-- R44: a word stored right after the storing MOVM is the next instruction fetched. -/
def Obligations.StoredCodeIsFetched : Prop :=
  ∀ (s : State) (K k : Word) (j : Instr), s.status = .running → fetchDecode s = .ok (.movm K k) →
    k = s.nextPc .ww → k.toNat + 4 ≤ s.cfg.memSize →
    decode s.cfg (wordBytes s.cfg.byteOrder K) = .ok j →
    ∃ t, step s = .next t ∧ t.pc = k ∧ step t = exec j t

/-! ### Which instructions reach which state -/

/-- R13: no step writes FP and none reads it. The parameters of R2, which the model holds in the state (its own choice, log entry 1), never
change. -/
def Obligations.FpAndParametersFixed : Prop :=
  ∀ (s t : State), step s = .next t →
    t.fp = s.fp ∧ t.cfg = s.cfg ∧ ∀ v, step { s with fp := v } = .next { t with fp := v }

/-- R10: an instruction writes only the general registers its row of the table names. -/
def Obligations.GeneralRegistersWritten : Prop :=
  ∀ (i : Instr) (s t : State) (r : Reg), exec i s = .next t → r ∉ i.writtenRegs → t.reg r = s.reg r

/-- R14: only the ten instructions write ACC, and no instruction but the twelve branches depends on it. -/
def Obligations.AccWrittenAndRead : Prop :=
  ∀ (i : Instr) (s t : State), exec i s = .next t →
    (i.writesAcc = false → t.acc = s.acc) ∧
    (i.readsAcc = false → ∀ v, ∃ w, exec i { s with acc := v } = .next { t with acc := w } ∧
      (w = t.acc ∨ w = v))

/-- R15 to R18: Z is written only by the 27 instructions, O only by the twelve, bits 31:2 of SR by none, a faulting step writes no flag, and only
BRBS and BRBC depend on SR. -/
def Obligations.FlagsWrittenAndRead : Prop :=
  (∀ (i : Instr) (s t : State), exec i s = .next t →
    ReservedKept s t ∧ (i.writesZ = false → t.z = s.z) ∧ (i.writesO = false → t.o = s.o) ∧
    (i.readsSr = false → ∀ v, ∃ w, exec i { s with sr := v } = .next { t with sr := w })) ∧
  (∀ (s t : State) (f : RunFault), step s = .next t → t.status = .faulted f → t.sr = s.sr)

/-- R12: only PUSH, PUSHR, CALL, CALLR, POP and RET move SP, by 4 or 36. -/
def Obligations.SpMoved : Prop :=
  ∀ (i : Instr) (s t : State), exec i s = .next t →
    (i.movesSp = false → t.sp = s.sp) ∧
    (t.sp = s.sp ∨ t.sp = s.sp + 4 ∨ t.sp = s.sp - 4 ∨ t.sp = s.sp + 36 ∨ t.sp = s.sp - 36)

/-- R22: only the six buffer instructions change the device space or depend on it. -/
def Obligations.DeviceReached : Prop :=
  ∀ (i : Instr) (s t : State), exec i s = .next t → i.reachesDevice = false →
    t.dev = s.dev ∧ ∀ d, exec i { s with dev := d } = .next { t with dev := d }

/-- R44, R39: only MOVM, MOVRM, the pushes, the calls and the buffer loads write main memory. -/
def Obligations.MemoryWritten : Prop :=
  ∀ (i : Instr) (s t : State), exec i s = .next t → i.writesMemory = false → t.mem = s.mem

/-- R11: an instruction that transfers no control and does not fault ends at the next instruction, modulo 2^32. -/
def Obligations.NextPcLaw : Prop :=
  ∀ (i : Instr) (s t : State), exec i s = .next t → i.setsPc = false →
    PcMoved s t i.length ∨ ∃ f, t = { s with status := .faulted f }

/-! ### Launch, reset, legal states -/

/-- R25, R180: a launch within `Launch.wf` gives the state of the table of R25, which is legal. Any other is refused before a step: the model's
choice of log entry 14 (U20 refuses only `MEM_SIZE = 0`), `Launch.wf` asking images in the canonical form of log entry 8. -/
def Obligations.LegalLaunch : Prop :=
  ∀ l : Launch,
    (l.wf → ∃ s, launch l = some s ∧ s.wf ∧ s.regs = l.regReset ∧ s.pc = l.pcReset ∧ s.sp = l.spReset ∧
      s.fp = l.fpReset ∧ s.acc = l.accReset ∧ s.sr = l.srReset ∧ s.mem = l.memInit ∧
      s.dev.cells = l.diskInit ∧ s.dev.history = [] ∧ s.status = .running ∧ s.cfg = l.cfg) ∧
    (¬l.wf → launch l = none)

/-- R25's defaults, with the model's choices of log entries 1, 4, 7 and 8 where R25 has none (SP, memory, the sizes). -/
def Obligations.ResetValues : Prop :=
  State.reset.pc = 0 ∧ (∀ r, State.reset.reg r = 0) ∧ State.reset.fp = 0 ∧ State.reset.acc = 0 ∧
  State.reset.sr = 0 ∧ State.reset.status = .running ∧ State.reset.sp = 0 ∧
  (∀ a, State.reset.mem.read a = 0) ∧ State.reset.cfg = Config.reset ∧
  Config.reset.byteOrder = .big ∧ Config.reset.device = .byteStore ∧
  launch Launch.reset = some State.reset

/-- R15, R21, R36: every step from a legal state gives a legal state: memory and disk in canonical form (the model's, log entry 8) inside their spaces, bits 31:2 of SR 0, the same parameters. -/
def Obligations.StepKeepsLegalState : Prop :=
  ∀ (s t : State), s.wf → step s = .next t → t.wf ∧ t.cfg = s.cfg

/-- R25: the reset state is legal. -/
def Obligations.ResetIsLegal : Prop :=
  State.reset.wf

/-- R21, R42 (the form is the model's, log entry 8): two memories in canonical form that read the same everywhere are the same data. -/
def Obligations.MemoryIsItsContents : Prop :=
  ∀ (m m' : Memory), m.wf → m'.wf → (∀ a, m.read a = m'.read a) → m = m'
end

