-- ==== Sys2Proof/Laws/Memory.lean ====
section
/-!
SUPPORT. The laws of a store of bytes: reading after writing, and that every write keeps the canonical form and
the bound of the space. The reading laws hold of every list, canonical or not.
-/

namespace Sys2Proof.Machine

/-! ### One byte -/

theorem Memory.read_insert (m : Memory) (a : Nat) (b : Byte) (x : Nat) (h : ∀ c ∈ m, c.1 ≠ a) :
    (Memory.insert m a b).read x = if x = a then b else m.read x := by
  induction m with
  | nil => simp [Memory.insert, Memory.read, eq_comm]
  | cons c m ih =>
    obtain ⟨k, v⟩ := c
    have hk : k ≠ a := h (k, v) (by simp)
    have ih := ih fun c hc => h c (by simp [hc])
    simp only [Memory.insert]
    split
    · simp [Memory.read, eq_comm]
    · simp only [Memory.read, ih]
      by_cases hkx : k = x
      · subst hkx; simp [hk]
      · simp [hkx]

theorem Memory.read_filter (m : Memory) (a x : Nat) :
    Memory.read (m.filter fun c => c.1 ≠ a) x = if x = a then unlisted else m.read x := by
  induction m with
  | nil => simp [Memory.read]
  | cons c m ih =>
    obtain ⟨k, v⟩ := c
    by_cases hk : k = a
    · subst hk
      simp only [ne_eq, not_true_eq_false, decide_false, Bool.false_eq_true, not_false_eq_true,
        List.filter_cons_of_neg]
      rw [ih]
      by_cases hx : x = k
      · simp [hx]
      · simp [Memory.read, hx, Ne.symm hx]
    · rw [List.filter_cons_of_pos (by simpa using hk)]
      simp only [Memory.read, ih]
      by_cases hkx : k = x
      · subst hkx; simp [hk]
      · simp [hkx]

/-- Reading after writing one byte: the written value at that address, the old value elsewhere. -/
theorem Memory.read_write (m : Memory) (a : Nat) (b : Byte) (x : Nat) :
    (m.write a b).read x = if x = a then b else m.read x := by
  unfold Memory.write
  split
  · rename_i hb; subst hb; exact Memory.read_filter m a x
  · rw [Memory.read_insert _ _ _ _ (by simp), Memory.read_filter]
    split <;> rfl

/-! ### Several bytes -/

/-- Reading after writing bytes: the byte written there, or the old value outside them. -/
theorem Memory.read_writeBytes (m : Memory) (a : Nat) (bs : List Byte) (x : Nat) :
    (m.writeBytes a bs).read x =
      if a ≤ x ∧ x < a + bs.length then bs.getD (x - a) 0 else m.read x := by
  induction bs generalizing m a with
  | nil => simp [Memory.writeBytes]
  | cons b bs ih =>
    simp only [Memory.writeBytes, ih, Memory.read_write, List.length_cons]
    by_cases h : a + 1 ≤ x ∧ x < a + 1 + bs.length
    · have h1 : x - a = (x - (a + 1)) + 1 := by omega
      rw [if_pos h, if_pos (by omega), h1, List.getD_cons_succ]
    · rw [if_neg h]
      by_cases hx : x = a
      · subst hx; simp
      · rw [if_neg hx, if_neg (by omega)]

/-- Outside the written bytes nothing changes. -/
theorem Memory.read_writeBytes_outside (m : Memory) (a : Nat) (bs : List Byte) (x : Nat)
    (h : ¬(a ≤ x ∧ x < a + bs.length)) : (m.writeBytes a bs).read x = m.read x := by
  rw [Memory.read_writeBytes, if_neg h]

/-- Inside the written bytes the `i`th one reads back. -/
theorem Memory.read_writeBytes_inside (m : Memory) (a : Nat) (bs : List Byte) (i : Nat)
    (h : i < bs.length) : (m.writeBytes a bs).read (a + i) = bs.getD i 0 := by
  rw [Memory.read_writeBytes, if_pos (by omega)]
  simp

@[simp] theorem Memory.readBytes_length (m : Memory) (a n : Nat) : (m.readBytes a n).length = n := by
  induction n generalizing a with
  | zero => rfl
  | succ n ih => simp [Memory.readBytes, ih]

theorem Memory.readBytes_getD (m : Memory) (a n i : Nat) (h : i < n) :
    (m.readBytes a n).getD i 0 = m.read (a + i) := by
  induction n generalizing a i with
  | zero => omega
  | succ n ih =>
    cases i with
    | zero => simp [Memory.readBytes]
    | succ i =>
      simp only [Memory.readBytes, List.getD_cons_succ]
      rw [ih (a + 1) i (by omega)]
      congr 1; omega

/-- Bytes read depend only on the bytes of the range. -/
theorem Memory.readBytes_congr (m m' : Memory) (a n : Nat)
    (h : ∀ x, a ≤ x → x < a + n → m'.read x = m.read x) : m'.readBytes a n = m.readBytes a n := by
  induction n generalizing a with
  | zero => rfl
  | succ n ih =>
    simp only [Memory.readBytes]
    rw [h a (by omega) (by omega), ih (a + 1) fun x h1 h2 => h x (by omega) (by omega)]

/-- Bytes read are those of a list that agrees with the store. -/
theorem Memory.readBytes_eq (m : Memory) (a : Nat) (bs : List Byte)
    (h : ∀ i, i < bs.length → m.read (a + i) = bs.getD i 0) : m.readBytes a bs.length = bs := by
  induction bs generalizing a with
  | nil => rfl
  | cons b bs ih =>
    simp only [List.length_cons, Memory.readBytes]
    rw [ih (a + 1) fun i hi => by simpa [Nat.add_assoc, Nat.add_comm 1 i] using h (i + 1) (by simpa using hi)]
    simpa using h 0 (by simp)

theorem Memory.readBytes_append (m : Memory) (a n k : Nat) :
    m.readBytes a (n + k) = m.readBytes a n ++ m.readBytes (a + n) k := by
  induction n generalizing a with
  | zero => simp [Memory.readBytes]
  | succ n ih =>
    rw [Nat.succ_add]
    simp only [Memory.readBytes, List.cons_append]
    rw [ih]
    congr 3; omega

/-! ### Words -/

@[simp] theorem wordBytes_length (o : ByteOrder) (v : Word) : (wordBytes o v).length = 4 := by
  cases o <;> rfl

/-- A byte put below a bit vector, as a number. -/
theorem toNat_append_byte (n : Nat) (x : BitVec n) (y : Byte) :
    (x ++ y).toNat = x.toNat * 2 ^ 8 + y.toNat := by
  rw [BitVec.toNat_append, ← Nat.shiftLeft_add_eq_or_of_lt y.isLt, Nat.shiftLeft_eq]

/-- A word from its bytes as a number, most significant byte at the lowest address (R31). -/
theorem bytesWord_big_toNat (b0 b1 b2 b3 : Byte) :
    (bytesWord .big b0 b1 b2 b3).toNat =
      b0.toNat * 2 ^ 24 + b1.toNat * 2 ^ 16 + b2.toNat * 2 ^ 8 + b3.toNat := by
  simp only [bytesWord, toNat_append_byte]; omega

/-- A word from its bytes as a number, least significant byte at the lowest address (R31). -/
theorem bytesWord_little_toNat (b0 b1 b2 b3 : Byte) :
    (bytesWord .little b0 b1 b2 b3).toNat =
      b3.toNat * 2 ^ 24 + b2.toNat * 2 ^ 16 + b1.toNat * 2 ^ 8 + b0.toNat := by
  simp only [bytesWord, toNat_append_byte]; omega

/-- A byte of a word as a number. -/
theorem byteOf_toNat (v : Word) (lo : Nat) : (v.extractLsb' lo 8).toNat = v.toNat / 2 ^ lo % 2 ^ 8 := by
  rw [BitVec.extractLsb'_toNat, Nat.shiftRight_eq_div_pow]

/-- The word of a word's bytes is the word. -/
theorem bytesWord_wordBytes (o : ByteOrder) (v : Word) :
    bytesWord o ((wordBytes o v).getD 0 0) ((wordBytes o v).getD 1 0) ((wordBytes o v).getD 2 0)
      ((wordBytes o v).getD 3 0) = v := by
  have := v.isLt
  apply BitVec.eq_of_toNat_eq
  cases o <;> simp only [wordBytes, List.getD_cons_zero, List.getD_cons_succ, bytesWord_big_toNat,
    bytesWord_little_toNat, byteOf_toNat] <;> omega

/-- The bytes of a word made of bytes are those bytes. -/
theorem wordBytes_bytesWord (o : ByteOrder) (b0 b1 b2 b3 : Byte) :
    wordBytes o (bytesWord o b0 b1 b2 b3) = [b0, b1, b2, b3] := by
  have := b0.isLt; have := b1.isLt; have := b2.isLt; have := b3.isLt
  cases o <;> simp only [wordBytes, List.cons.injEq, and_true] <;>
  · refine ⟨?_, ?_, ?_, ?_⟩ <;> apply BitVec.eq_of_toNat_eq <;>
      simp only [byteOf_toNat, bytesWord_big_toNat, bytesWord_little_toNat] <;> omega

/-- A word written reads back. -/
theorem Memory.readWord_writeWord (o : ByteOrder) (m : Memory) (a : Nat) (v : Word) :
    (m.writeWord o a v).readWord o a = v := by
  unfold Memory.readWord Memory.writeWord
  have h := fun i (hi : i < 4) => Memory.read_writeBytes_inside m a (wordBytes o v) i (by simpa using hi)
  have h0 := h 0 (by decide)
  rw [Nat.add_zero] at h0
  rw [h0, h 1 (by decide), h 2 (by decide), h 3 (by decide), bytesWord_wordBytes]

/-- A byte outside a written word is as before. -/
theorem Memory.read_writeWord_outside (o : ByteOrder) (m : Memory) (a : Nat) (v : Word) (x : Nat)
    (h : ¬(a ≤ x ∧ x < a + 4)) : (m.writeWord o a v).read x = m.read x :=
  Memory.read_writeBytes_outside m a _ x (by simpa using h)

/-- A word read depends only on its four bytes. -/
theorem Memory.readWord_congr (o : ByteOrder) (m m' : Memory) (a : Nat)
    (h : ∀ x, a ≤ x → x < a + 4 → m'.read x = m.read x) : m'.readWord o a = m.readWord o a := by
  unfold Memory.readWord
  rw [h a (by omega) (by omega), h (a + 1) (by omega) (by omega), h (a + 2) (by omega) (by omega),
    h (a + 3) (by omega) (by omega)]

/-- A word apart from a written word is as before. -/
theorem Memory.readWord_writeWord_apart (o : ByteOrder) (m : Memory) (a b : Nat) (v : Word)
    (h : a + 4 ≤ b ∨ b + 4 ≤ a) : (m.writeWord o a v).readWord o b = m.readWord o b :=
  Memory.readWord_congr o m _ b fun x _ _ => Memory.read_writeWord_outside o m a v x (by omega)

/-! ### The canonical form and the bound of the space -/

theorem Memory.mem_insert (m : Memory) (a : Nat) (b : Byte) (c : Host.Cell) :
    c ∈ Memory.insert m a b ↔ c = (a, b) ∨ c ∈ m := by
  induction m with
  | nil => simp [Memory.insert]
  | cons d m ih =>
    obtain ⟨k, v⟩ := d
    simp only [Memory.insert]
    split
    · simp
    · simp only [List.mem_cons, ih]; tauto

theorem Memory.insert_rising (m : Memory) (a : Nat) (b : Byte)
    (hm : m.Pairwise fun c d => c.1 < d.1) (ha : ∀ c ∈ m, c.1 ≠ a) :
    (Memory.insert m a b).Pairwise fun c d => c.1 < d.1 := by
  induction m with
  | nil => simp [Memory.insert]
  | cons d m ih =>
    obtain ⟨k, v⟩ := d
    rw [List.pairwise_cons] at hm
    have hka : k ≠ a := ha (k, v) (by simp)
    simp only [Memory.insert]
    split
    · rename_i hlt
      rw [List.pairwise_cons]
      refine ⟨fun c hc => ?_, List.pairwise_cons.2 hm⟩
      rcases List.mem_cons.1 hc with rfl | hc
      · exact hlt
      · exact lt_trans hlt (hm.1 c hc)
    · rw [List.pairwise_cons]
      refine ⟨fun c hc => ?_, ih hm.2 fun c hc => ha c (by simp [hc])⟩
      rcases (Memory.mem_insert m a b c).1 hc with rfl | hc
      · simp only; omega
      · exact hm.1 c hc

/-- A write keeps the canonical form. -/
theorem Memory.write_wf (m : Memory) (a : Nat) (b : Byte) (h : m.wf) : (m.write a b).wf := by
  have hf : (m.filter fun c => c.1 ≠ a).Pairwise fun c d => c.1 < d.1 := h.1.filter _
  unfold Memory.write
  split
  · exact ⟨hf, fun c hc => h.2 c (List.mem_filter.1 hc).1⟩
  · rename_i hb
    refine ⟨Memory.insert_rising _ a b hf (by simp), fun c hc => ?_⟩
    rcases (Memory.mem_insert _ a b c).1 hc with rfl | hc
    · exact hb
    · exact h.2 c (List.mem_filter.1 hc).1

/-- A write inside the space lists no address outside it. -/
theorem Memory.write_within (m : Memory) (a n : Nat) (b : Byte) (ha : a < n)
    (h : ∀ c ∈ m, c.1 < n) : ∀ c ∈ m.write a b, c.1 < n := by
  intro c hc
  unfold Memory.write at hc
  split at hc
  · exact h c (List.mem_filter.1 hc).1
  · rcases (Memory.mem_insert _ a b c).1 hc with rfl | hc
    · exact ha
    · exact h c (List.mem_filter.1 hc).1

/-- Writing bytes keeps the canonical form. -/
theorem Memory.writeBytes_wf (m : Memory) (a : Nat) (bs : List Byte) (h : m.wf) :
    (m.writeBytes a bs).wf := by
  induction bs generalizing m a with
  | nil => exact h
  | cons b bs ih => exact ih _ _ (Memory.write_wf m a b h)

/-- Writing bytes inside the space lists no address outside it. -/
theorem Memory.writeBytes_within (m : Memory) (a n : Nat) (bs : List Byte)
    (ha : bs = [] ∨ a + bs.length ≤ n) (h : ∀ c ∈ m, c.1 < n) :
    ∀ c ∈ m.writeBytes a bs, c.1 < n := by
  induction bs generalizing m a with
  | nil => exact h
  | cons b bs ih =>
    simp only [List.length_cons, reduceCtorEq, false_or] at ha
    exact ih _ _ (by right; omega) (Memory.write_within m a n b (by omega) h)

/-- Writing a word keeps the canonical form. -/
theorem Memory.writeWord_wf (o : ByteOrder) (m : Memory) (a : Nat) (v : Word) (h : m.wf) :
    (m.writeWord o a v).wf := Memory.writeBytes_wf m a _ h

/-- Writing a word inside the space lists no address outside it. -/
theorem Memory.writeWord_within (o : ByteOrder) (m : Memory) (a n : Nat) (v : Word) (ha : a + 4 ≤ n)
    (h : ∀ c ∈ m, c.1 < n) : ∀ c ∈ m.writeWord o a v, c.1 < n :=
  Memory.writeBytes_within m a n _ (by right; simpa using ha) h

end Sys2Proof.Machine
end

