-- ==== Sys2Proof/Laws/Decode.lean ====
section
/-!
SUPPORT. Fields there and back: for each of the thirteen formats, what the decoder reads from encoded fields, and
what the fields must be where it reads an instruction.
-/

namespace Sys2Proof

theorem regField_regByte (r : Reg) : regField (regByte r) = .ok r := by revert r; decide

theorem bitField_bitByte (b : StatusBit) : bitField (bitByte b) = .ok b := by revert b; decide

/-- A register field that names a register is that register's byte (R56). -/
theorem regField_ok {n : Byte} {r : Reg} (h : regField n = .ok r) : n = regByte r := by
  unfold regField at h
  split at h
  · cases h; exact BitVec.eq_of_toNat_eq (by simp [regByte])
  · cases h

/-- A status-bit field that names a bit is that bit's byte (R57). -/
theorem bitField_ok {n : Byte} {b : StatusBit} (h : bitField n = .ok b) : n = bitByte b := by
  unfold bitField at h
  split at h
  · cases h; exact BitVec.eq_of_toNat_eq (by simp [bitByte])
  · cases h

theorem withReg_regByte (r : Reg) (use : Reg → Except DecodeError Instr) :
    withReg (regByte r) use = use r := by
  rw [withReg, regField_regByte]

theorem withBit_bitByte (b : StatusBit) (use : StatusBit → Except DecodeError Instr) :
    withBit (bitByte b) use = use b := by
  rw [withBit, bitField_bitByte]

theorem withReg_ok {n : Byte} {use : Reg → Except DecodeError Instr} {i : Instr}
    (h : withReg n use = .ok i) : ∃ r, n = regByte r ∧ use r = .ok i := by
  unfold withReg at h
  split at h
  · rename_i r hr; exact ⟨r, regField_ok hr, h⟩
  · cases h

theorem withBit_ok {n : Byte} {use : StatusBit → Except DecodeError Instr} {i : Instr}
    (h : withBit n use = .ok i) : ∃ b, n = bitByte b ∧ use b = .ok i := by
  unfold withBit at h
  split at h
  · rename_i b hb; exact ⟨b, bitField_ok hb, h⟩
  · cases h

/-- A word's bytes by name, and the word they make. -/
theorem wordBytes_split (o : ByteOrder) (v : Word) :
    ∃ b0 b1 b2 b3, wordBytes o v = [b0, b1, b2, b3] ∧ bytesWord o b0 b1 b2 b3 = v := by
  have h := Machine.bytesWord_wordBytes o v
  cases o <;> exact ⟨_, _, _, _, rfl, h⟩

/-- Where the opcode has a shape, decoding is reading that shape's fields (R55). -/
theorem decode_of_shape {c : Config} {op : Byte} {sh : Shape} (h : shapeOf c op = some sh) (fs : List Byte) :
    decode c (op :: fs) = sh.parse c.byteOrder fs := by
  simp only [decode, h]

/-! ### Reading encoded fields -/

theorem parse_n (o : ByteOrder) (mk : Instr) (rest : List Byte) :
    (Shape.n mk).parse o (rest) = .ok (mk) := by
  rfl

theorem parse_r (o : ByteOrder) (mk : Reg → Instr) (r0 : Reg) (rest : List Byte) :
    (Shape.r mk).parse o (regByte r0 :: rest) = .ok (mk r0) := by
  simp only [Shape.parse, withReg_regByte]

theorem parse_w (o : ByteOrder) (mk : Word → Instr) (w0 : Word) (rest : List Byte) :
    (Shape.w mk).parse o (wordBytes o w0 ++ rest) = .ok (mk w0) := by
  obtain ⟨a0, b0, c0, d0, h0, e0⟩ := wordBytes_split o w0
  simp only [h0, e0, Shape.parse, List.cons_append, List.nil_append]

theorem parse_rr (o : ByteOrder) (mk : Reg → Reg → Instr) (r0 : Reg) (r1 : Reg) (rest : List Byte) :
    (Shape.rr mk).parse o (regByte r0 :: regByte r1 :: rest) = .ok (mk r0 r1) := by
  simp only [Shape.parse, withReg_regByte]

theorem parse_rw (o : ByteOrder) (mk : Reg → Word → Instr) (r0 : Reg) (w1 : Word) (rest : List Byte) :
    (Shape.rw mk).parse o (regByte r0 :: (wordBytes o w1 ++ rest)) = .ok (mk r0 w1) := by
  obtain ⟨a0, b0, c0, d0, h0, e0⟩ := wordBytes_split o w1
  simp only [h0, e0, Shape.parse, withReg_regByte, List.cons_append, List.nil_append]

theorem parse_wr (o : ByteOrder) (mk : Word → Reg → Instr) (w0 : Word) (r1 : Reg) (rest : List Byte) :
    (Shape.wr mk).parse o (wordBytes o w0 ++ (regByte r1 :: rest)) = .ok (mk w0 r1) := by
  obtain ⟨a0, b0, c0, d0, h0, e0⟩ := wordBytes_split o w0
  simp only [h0, e0, Shape.parse, withReg_regByte, List.cons_append, List.nil_append]

theorem parse_ww (o : ByteOrder) (mk : Word → Word → Instr) (w0 : Word) (w1 : Word) (rest : List Byte) :
    (Shape.ww mk).parse o (wordBytes o w0 ++ (wordBytes o w1 ++ rest)) = .ok (mk w0 w1) := by
  obtain ⟨a0, b0, c0, d0, h0, e0⟩ := wordBytes_split o w0
  obtain ⟨a1, b1, c1, d1, h1, e1⟩ := wordBytes_split o w1
  simp only [h0, e0, h1, e1, Shape.parse, List.cons_append, List.nil_append]

theorem parse_bw (o : ByteOrder) (mk : StatusBit → Word → Instr) (b0 : StatusBit) (w1 : Word) (rest : List Byte) :
    (Shape.bw mk).parse o (bitByte b0 :: (wordBytes o w1 ++ rest)) = .ok (mk b0 w1) := by
  obtain ⟨a0, b0, c0, d0, h0, e0⟩ := wordBytes_split o w1
  simp only [h0, e0, Shape.parse, withBit_bitByte, List.cons_append, List.nil_append]

theorem parse_rrr (o : ByteOrder) (mk : Reg → Reg → Reg → Instr) (r0 : Reg) (r1 : Reg) (r2 : Reg) (rest : List Byte) :
    (Shape.rrr mk).parse o (regByte r0 :: regByte r1 :: regByte r2 :: rest) = .ok (mk r0 r1 r2) := by
  simp only [Shape.parse, withReg_regByte]

theorem parse_rrw (o : ByteOrder) (mk : Reg → Reg → Word → Instr) (r0 : Reg) (r1 : Reg) (w2 : Word) (rest : List Byte) :
    (Shape.rrw mk).parse o (regByte r0 :: regByte r1 :: (wordBytes o w2 ++ rest)) = .ok (mk r0 r1 w2) := by
  obtain ⟨a0, b0, c0, d0, h0, e0⟩ := wordBytes_split o w2
  simp only [h0, e0, Shape.parse, withReg_regByte, List.cons_append, List.nil_append]

theorem parse_rwr (o : ByteOrder) (mk : Reg → Word → Reg → Instr) (r0 : Reg) (w1 : Word) (r2 : Reg) (rest : List Byte) :
    (Shape.rwr mk).parse o (regByte r0 :: (wordBytes o w1 ++ (regByte r2 :: rest))) = .ok (mk r0 w1 r2) := by
  obtain ⟨a0, b0, c0, d0, h0, e0⟩ := wordBytes_split o w1
  simp only [h0, e0, Shape.parse, withReg_regByte, List.cons_append, List.nil_append]

theorem parse_wrr (o : ByteOrder) (mk : Word → Reg → Reg → Instr) (w0 : Word) (r1 : Reg) (r2 : Reg) (rest : List Byte) :
    (Shape.wrr mk).parse o (wordBytes o w0 ++ (regByte r1 :: regByte r2 :: rest)) = .ok (mk w0 r1 r2) := by
  obtain ⟨a0, b0, c0, d0, h0, e0⟩ := wordBytes_split o w0
  simp only [h0, e0, Shape.parse, withReg_regByte, List.cons_append, List.nil_append]

theorem parse_rww (o : ByteOrder) (mk : Reg → Word → Word → Instr) (r0 : Reg) (w1 : Word) (w2 : Word) (rest : List Byte) :
    (Shape.rww mk).parse o (regByte r0 :: (wordBytes o w1 ++ (wordBytes o w2 ++ rest))) = .ok (mk r0 w1 w2) := by
  obtain ⟨a0, b0, c0, d0, h0, e0⟩ := wordBytes_split o w1
  obtain ⟨a1, b1, c1, d1, h1, e1⟩ := wordBytes_split o w2
  simp only [h0, e0, h1, e1, Shape.parse, withReg_regByte, List.cons_append, List.nil_append]

/-! ### What fields that read must be -/

theorem parse_n_ok (o : ByteOrder) (mk : Instr) (fs : List Byte) (i : Instr)
    (h : (Shape.n mk).parse o fs = .ok i) :
    ∃ rest, fs = rest ∧ i = mk := by
  cases h; exact ⟨fs, rfl, rfl⟩

theorem parse_r_ok (o : ByteOrder) (mk : Reg → Instr) (fs : List Byte) (i : Instr)
    (h : (Shape.r mk).parse o fs = .ok i) :
    ∃ r0 rest, fs = regByte r0 :: rest ∧ i = mk r0 := by
  match fs, h with
  | r0n :: rest, h =>
    simp only [Shape.parse] at h
    obtain ⟨r0, rfl, hr0⟩ := withReg_ok h
    cases hr0
    exact ⟨r0, rest, rfl, rfl⟩
  | [], h => simp [Shape.parse] at h

theorem parse_w_ok (o : ByteOrder) (mk : Word → Instr) (fs : List Byte) (i : Instr)
    (h : (Shape.w mk).parse o fs = .ok i) :
    ∃ w0 rest, fs = wordBytes o w0 ++ rest ∧ i = mk w0 := by
  match fs, h with
  | w0a :: w0b :: w0c :: w0d :: rest, h =>
    simp only [Shape.parse] at h
    cases h
    exact ⟨bytesWord o w0a w0b w0c w0d, rest, by simp only [Machine.wordBytes_bytesWord, List.cons_append, List.nil_append], rfl⟩
  | [], h => simp [Shape.parse] at h
  | [_], h => simp [Shape.parse] at h
  | [_, _], h => simp [Shape.parse] at h
  | [_, _, _], h => simp [Shape.parse] at h

theorem parse_rr_ok (o : ByteOrder) (mk : Reg → Reg → Instr) (fs : List Byte) (i : Instr)
    (h : (Shape.rr mk).parse o fs = .ok i) :
    ∃ r0 r1 rest, fs = regByte r0 :: regByte r1 :: rest ∧ i = mk r0 r1 := by
  match fs, h with
  | r0n :: r1n :: rest, h =>
    simp only [Shape.parse] at h
    obtain ⟨r0, rfl, hr0⟩ := withReg_ok h
    obtain ⟨r1, rfl, hr1⟩ := withReg_ok hr0
    cases hr1
    exact ⟨r0, r1, rest, rfl, rfl⟩
  | [], h => simp [Shape.parse] at h
  | [_], h => simp [Shape.parse] at h

theorem parse_rw_ok (o : ByteOrder) (mk : Reg → Word → Instr) (fs : List Byte) (i : Instr)
    (h : (Shape.rw mk).parse o fs = .ok i) :
    ∃ r0 w1 rest, fs = regByte r0 :: (wordBytes o w1 ++ rest) ∧ i = mk r0 w1 := by
  match fs, h with
  | r0n :: w1a :: w1b :: w1c :: w1d :: rest, h =>
    simp only [Shape.parse] at h
    obtain ⟨r0, rfl, hr0⟩ := withReg_ok h
    cases hr0
    exact ⟨r0, bytesWord o w1a w1b w1c w1d, rest, by simp only [Machine.wordBytes_bytesWord, List.cons_append, List.nil_append], rfl⟩
  | [], h => simp [Shape.parse] at h
  | [_], h => simp [Shape.parse] at h
  | [_, _], h => simp [Shape.parse] at h
  | [_, _, _], h => simp [Shape.parse] at h
  | [_, _, _, _], h => simp [Shape.parse] at h

theorem parse_wr_ok (o : ByteOrder) (mk : Word → Reg → Instr) (fs : List Byte) (i : Instr)
    (h : (Shape.wr mk).parse o fs = .ok i) :
    ∃ w0 r1 rest, fs = wordBytes o w0 ++ (regByte r1 :: rest) ∧ i = mk w0 r1 := by
  match fs, h with
  | w0a :: w0b :: w0c :: w0d :: r1n :: rest, h =>
    simp only [Shape.parse] at h
    obtain ⟨r1, rfl, hr1⟩ := withReg_ok h
    cases hr1
    exact ⟨bytesWord o w0a w0b w0c w0d, r1, rest, by simp only [Machine.wordBytes_bytesWord, List.cons_append, List.nil_append], rfl⟩
  | [], h => simp [Shape.parse] at h
  | [_], h => simp [Shape.parse] at h
  | [_, _], h => simp [Shape.parse] at h
  | [_, _, _], h => simp [Shape.parse] at h
  | [_, _, _, _], h => simp [Shape.parse] at h

theorem parse_ww_ok (o : ByteOrder) (mk : Word → Word → Instr) (fs : List Byte) (i : Instr)
    (h : (Shape.ww mk).parse o fs = .ok i) :
    ∃ w0 w1 rest, fs = wordBytes o w0 ++ (wordBytes o w1 ++ rest) ∧ i = mk w0 w1 := by
  match fs, h with
  | w0a :: w0b :: w0c :: w0d :: w1a :: w1b :: w1c :: w1d :: rest, h =>
    simp only [Shape.parse] at h
    cases h
    exact ⟨bytesWord o w0a w0b w0c w0d, bytesWord o w1a w1b w1c w1d, rest, by simp only [Machine.wordBytes_bytesWord, List.cons_append, List.nil_append], rfl⟩
  | [], h => simp [Shape.parse] at h
  | [_], h => simp [Shape.parse] at h
  | [_, _], h => simp [Shape.parse] at h
  | [_, _, _], h => simp [Shape.parse] at h
  | [_, _, _, _], h => simp [Shape.parse] at h
  | [_, _, _, _, _], h => simp [Shape.parse] at h
  | [_, _, _, _, _, _], h => simp [Shape.parse] at h
  | [_, _, _, _, _, _, _], h => simp [Shape.parse] at h

theorem parse_bw_ok (o : ByteOrder) (mk : StatusBit → Word → Instr) (fs : List Byte) (i : Instr)
    (h : (Shape.bw mk).parse o fs = .ok i) :
    ∃ b0 w1 rest, fs = bitByte b0 :: (wordBytes o w1 ++ rest) ∧ i = mk b0 w1 := by
  match fs, h with
  | b0n :: w1a :: w1b :: w1c :: w1d :: rest, h =>
    simp only [Shape.parse] at h
    obtain ⟨b0, rfl, hb0⟩ := withBit_ok h
    cases hb0
    exact ⟨b0, bytesWord o w1a w1b w1c w1d, rest, by simp only [Machine.wordBytes_bytesWord, List.cons_append, List.nil_append], rfl⟩
  | [], h => simp [Shape.parse] at h
  | [_], h => simp [Shape.parse] at h
  | [_, _], h => simp [Shape.parse] at h
  | [_, _, _], h => simp [Shape.parse] at h
  | [_, _, _, _], h => simp [Shape.parse] at h

theorem parse_rrr_ok (o : ByteOrder) (mk : Reg → Reg → Reg → Instr) (fs : List Byte) (i : Instr)
    (h : (Shape.rrr mk).parse o fs = .ok i) :
    ∃ r0 r1 r2 rest, fs = regByte r0 :: regByte r1 :: regByte r2 :: rest ∧ i = mk r0 r1 r2 := by
  match fs, h with
  | r0n :: r1n :: r2n :: rest, h =>
    simp only [Shape.parse] at h
    obtain ⟨r0, rfl, hr0⟩ := withReg_ok h
    obtain ⟨r1, rfl, hr1⟩ := withReg_ok hr0
    obtain ⟨r2, rfl, hr2⟩ := withReg_ok hr1
    cases hr2
    exact ⟨r0, r1, r2, rest, rfl, rfl⟩
  | [], h => simp [Shape.parse] at h
  | [_], h => simp [Shape.parse] at h
  | [_, _], h => simp [Shape.parse] at h

theorem parse_rrw_ok (o : ByteOrder) (mk : Reg → Reg → Word → Instr) (fs : List Byte) (i : Instr)
    (h : (Shape.rrw mk).parse o fs = .ok i) :
    ∃ r0 r1 w2 rest, fs = regByte r0 :: regByte r1 :: (wordBytes o w2 ++ rest) ∧ i = mk r0 r1 w2 := by
  match fs, h with
  | r0n :: r1n :: w2a :: w2b :: w2c :: w2d :: rest, h =>
    simp only [Shape.parse] at h
    obtain ⟨r0, rfl, hr0⟩ := withReg_ok h
    obtain ⟨r1, rfl, hr1⟩ := withReg_ok hr0
    cases hr1
    exact ⟨r0, r1, bytesWord o w2a w2b w2c w2d, rest, by simp only [Machine.wordBytes_bytesWord, List.cons_append, List.nil_append], rfl⟩
  | [], h => simp [Shape.parse] at h
  | [_], h => simp [Shape.parse] at h
  | [_, _], h => simp [Shape.parse] at h
  | [_, _, _], h => simp [Shape.parse] at h
  | [_, _, _, _], h => simp [Shape.parse] at h
  | [_, _, _, _, _], h => simp [Shape.parse] at h

theorem parse_rwr_ok (o : ByteOrder) (mk : Reg → Word → Reg → Instr) (fs : List Byte) (i : Instr)
    (h : (Shape.rwr mk).parse o fs = .ok i) :
    ∃ r0 w1 r2 rest, fs = regByte r0 :: (wordBytes o w1 ++ (regByte r2 :: rest)) ∧ i = mk r0 w1 r2 := by
  match fs, h with
  | r0n :: w1a :: w1b :: w1c :: w1d :: r2n :: rest, h =>
    simp only [Shape.parse] at h
    obtain ⟨r0, rfl, hr0⟩ := withReg_ok h
    obtain ⟨r2, rfl, hr2⟩ := withReg_ok hr0
    cases hr2
    exact ⟨r0, bytesWord o w1a w1b w1c w1d, r2, rest, by simp only [Machine.wordBytes_bytesWord, List.cons_append, List.nil_append], rfl⟩
  | [], h => simp [Shape.parse] at h
  | [_], h => simp [Shape.parse] at h
  | [_, _], h => simp [Shape.parse] at h
  | [_, _, _], h => simp [Shape.parse] at h
  | [_, _, _, _], h => simp [Shape.parse] at h
  | [_, _, _, _, _], h => simp [Shape.parse] at h

theorem parse_wrr_ok (o : ByteOrder) (mk : Word → Reg → Reg → Instr) (fs : List Byte) (i : Instr)
    (h : (Shape.wrr mk).parse o fs = .ok i) :
    ∃ w0 r1 r2 rest, fs = wordBytes o w0 ++ (regByte r1 :: regByte r2 :: rest) ∧ i = mk w0 r1 r2 := by
  match fs, h with
  | w0a :: w0b :: w0c :: w0d :: r1n :: r2n :: rest, h =>
    simp only [Shape.parse] at h
    obtain ⟨r1, rfl, hr1⟩ := withReg_ok h
    obtain ⟨r2, rfl, hr2⟩ := withReg_ok hr1
    cases hr2
    exact ⟨bytesWord o w0a w0b w0c w0d, r1, r2, rest, by simp only [Machine.wordBytes_bytesWord, List.cons_append, List.nil_append], rfl⟩
  | [], h => simp [Shape.parse] at h
  | [_], h => simp [Shape.parse] at h
  | [_, _], h => simp [Shape.parse] at h
  | [_, _, _], h => simp [Shape.parse] at h
  | [_, _, _, _], h => simp [Shape.parse] at h
  | [_, _, _, _, _], h => simp [Shape.parse] at h

theorem parse_rww_ok (o : ByteOrder) (mk : Reg → Word → Word → Instr) (fs : List Byte) (i : Instr)
    (h : (Shape.rww mk).parse o fs = .ok i) :
    ∃ r0 w1 w2 rest, fs = regByte r0 :: (wordBytes o w1 ++ (wordBytes o w2 ++ rest)) ∧ i = mk r0 w1 w2 := by
  match fs, h with
  | r0n :: w1a :: w1b :: w1c :: w1d :: w2a :: w2b :: w2c :: w2d :: rest, h =>
    simp only [Shape.parse] at h
    obtain ⟨r0, rfl, hr0⟩ := withReg_ok h
    cases hr0
    exact ⟨r0, bytesWord o w1a w1b w1c w1d, bytesWord o w2a w2b w2c w2d, rest, by simp only [Machine.wordBytes_bytesWord, List.cons_append, List.nil_append], rfl⟩
  | [], h => simp [Shape.parse] at h
  | [_], h => simp [Shape.parse] at h
  | [_, _], h => simp [Shape.parse] at h
  | [_, _, _], h => simp [Shape.parse] at h
  | [_, _, _, _], h => simp [Shape.parse] at h
  | [_, _, _, _, _], h => simp [Shape.parse] at h
  | [_, _, _, _, _, _], h => simp [Shape.parse] at h
  | [_, _, _, _, _, _, _], h => simp [Shape.parse] at h
  | [_, _, _, _, _, _, _, _], h => simp [Shape.parse] at h

end Sys2Proof
end

