-- ==== Sys2Proof/Laws/State.lean ====
section
/-!
SUPPORT. One lemma per field per named update of the state, each true by unfolding, so that no proof unfolds an
update again; and what reading a register gives after each update.
-/

namespace Sys2Proof.Machine

/-! ### setReg -/

@[simp] theorem State.setReg_regs (s : State) (r : Reg) (v : Word) : (s.setReg r v).regs = s.regs.set r v := rfl
@[simp] theorem State.setReg_pc (s : State) (r : Reg) (v : Word) : (s.setReg r v).pc = s.pc := rfl
@[simp] theorem State.setReg_sp (s : State) (r : Reg) (v : Word) : (s.setReg r v).sp = s.sp := rfl
@[simp] theorem State.setReg_fp (s : State) (r : Reg) (v : Word) : (s.setReg r v).fp = s.fp := rfl
@[simp] theorem State.setReg_acc (s : State) (r : Reg) (v : Word) : (s.setReg r v).acc = s.acc := rfl
@[simp] theorem State.setReg_sr (s : State) (r : Reg) (v : Word) : (s.setReg r v).sr = s.sr := rfl
@[simp] theorem State.setReg_mem (s : State) (r : Reg) (v : Word) : (s.setReg r v).mem = s.mem := rfl
@[simp] theorem State.setReg_dev (s : State) (r : Reg) (v : Word) : (s.setReg r v).dev = s.dev := rfl
@[simp] theorem State.setReg_status (s : State) (r : Reg) (v : Word) : (s.setReg r v).status = s.status := rfl
@[simp] theorem State.setReg_cfg (s : State) (r : Reg) (v : Word) : (s.setReg r v).cfg = s.cfg := rfl

/-! ### setRegs -/

@[simp] theorem State.setRegs_regs (s : State) (v : Vector Word 8) : (s.setRegs v).regs = v := rfl
@[simp] theorem State.setRegs_pc (s : State) (v : Vector Word 8) : (s.setRegs v).pc = s.pc := rfl
@[simp] theorem State.setRegs_sp (s : State) (v : Vector Word 8) : (s.setRegs v).sp = s.sp := rfl
@[simp] theorem State.setRegs_fp (s : State) (v : Vector Word 8) : (s.setRegs v).fp = s.fp := rfl
@[simp] theorem State.setRegs_acc (s : State) (v : Vector Word 8) : (s.setRegs v).acc = s.acc := rfl
@[simp] theorem State.setRegs_sr (s : State) (v : Vector Word 8) : (s.setRegs v).sr = s.sr := rfl
@[simp] theorem State.setRegs_mem (s : State) (v : Vector Word 8) : (s.setRegs v).mem = s.mem := rfl
@[simp] theorem State.setRegs_dev (s : State) (v : Vector Word 8) : (s.setRegs v).dev = s.dev := rfl
@[simp] theorem State.setRegs_status (s : State) (v : Vector Word 8) : (s.setRegs v).status = s.status := rfl
@[simp] theorem State.setRegs_cfg (s : State) (v : Vector Word 8) : (s.setRegs v).cfg = s.cfg := rfl

/-! ### setPc -/

@[simp] theorem State.setPc_regs (s : State) (v : Word) : (s.setPc v).regs = s.regs := rfl
@[simp] theorem State.setPc_pc (s : State) (v : Word) : (s.setPc v).pc = v := rfl
@[simp] theorem State.setPc_sp (s : State) (v : Word) : (s.setPc v).sp = s.sp := rfl
@[simp] theorem State.setPc_fp (s : State) (v : Word) : (s.setPc v).fp = s.fp := rfl
@[simp] theorem State.setPc_acc (s : State) (v : Word) : (s.setPc v).acc = s.acc := rfl
@[simp] theorem State.setPc_sr (s : State) (v : Word) : (s.setPc v).sr = s.sr := rfl
@[simp] theorem State.setPc_mem (s : State) (v : Word) : (s.setPc v).mem = s.mem := rfl
@[simp] theorem State.setPc_dev (s : State) (v : Word) : (s.setPc v).dev = s.dev := rfl
@[simp] theorem State.setPc_status (s : State) (v : Word) : (s.setPc v).status = s.status := rfl
@[simp] theorem State.setPc_cfg (s : State) (v : Word) : (s.setPc v).cfg = s.cfg := rfl
@[simp] theorem State.setPc_reg (s : State) (v : Word) (e : Reg) : (s.setPc v).reg e = s.reg e := rfl

/-! ### setSp -/

@[simp] theorem State.setSp_regs (s : State) (v : Word) : (s.setSp v).regs = s.regs := rfl
@[simp] theorem State.setSp_pc (s : State) (v : Word) : (s.setSp v).pc = s.pc := rfl
@[simp] theorem State.setSp_sp (s : State) (v : Word) : (s.setSp v).sp = v := rfl
@[simp] theorem State.setSp_fp (s : State) (v : Word) : (s.setSp v).fp = s.fp := rfl
@[simp] theorem State.setSp_acc (s : State) (v : Word) : (s.setSp v).acc = s.acc := rfl
@[simp] theorem State.setSp_sr (s : State) (v : Word) : (s.setSp v).sr = s.sr := rfl
@[simp] theorem State.setSp_mem (s : State) (v : Word) : (s.setSp v).mem = s.mem := rfl
@[simp] theorem State.setSp_dev (s : State) (v : Word) : (s.setSp v).dev = s.dev := rfl
@[simp] theorem State.setSp_status (s : State) (v : Word) : (s.setSp v).status = s.status := rfl
@[simp] theorem State.setSp_cfg (s : State) (v : Word) : (s.setSp v).cfg = s.cfg := rfl
@[simp] theorem State.setSp_reg (s : State) (v : Word) (e : Reg) : (s.setSp v).reg e = s.reg e := rfl

/-! ### setAcc -/

@[simp] theorem State.setAcc_regs (s : State) (v : Word) : (s.setAcc v).regs = s.regs := rfl
@[simp] theorem State.setAcc_pc (s : State) (v : Word) : (s.setAcc v).pc = s.pc := rfl
@[simp] theorem State.setAcc_sp (s : State) (v : Word) : (s.setAcc v).sp = s.sp := rfl
@[simp] theorem State.setAcc_fp (s : State) (v : Word) : (s.setAcc v).fp = s.fp := rfl
@[simp] theorem State.setAcc_acc (s : State) (v : Word) : (s.setAcc v).acc = v := rfl
@[simp] theorem State.setAcc_sr (s : State) (v : Word) : (s.setAcc v).sr = s.sr := rfl
@[simp] theorem State.setAcc_mem (s : State) (v : Word) : (s.setAcc v).mem = s.mem := rfl
@[simp] theorem State.setAcc_dev (s : State) (v : Word) : (s.setAcc v).dev = s.dev := rfl
@[simp] theorem State.setAcc_status (s : State) (v : Word) : (s.setAcc v).status = s.status := rfl
@[simp] theorem State.setAcc_cfg (s : State) (v : Word) : (s.setAcc v).cfg = s.cfg := rfl
@[simp] theorem State.setAcc_reg (s : State) (v : Word) (e : Reg) : (s.setAcc v).reg e = s.reg e := rfl

/-! ### setSr -/

@[simp] theorem State.setSr_regs (s : State) (v : Word) : (s.setSr v).regs = s.regs := rfl
@[simp] theorem State.setSr_pc (s : State) (v : Word) : (s.setSr v).pc = s.pc := rfl
@[simp] theorem State.setSr_sp (s : State) (v : Word) : (s.setSr v).sp = s.sp := rfl
@[simp] theorem State.setSr_fp (s : State) (v : Word) : (s.setSr v).fp = s.fp := rfl
@[simp] theorem State.setSr_acc (s : State) (v : Word) : (s.setSr v).acc = s.acc := rfl
@[simp] theorem State.setSr_sr (s : State) (v : Word) : (s.setSr v).sr = v := rfl
@[simp] theorem State.setSr_mem (s : State) (v : Word) : (s.setSr v).mem = s.mem := rfl
@[simp] theorem State.setSr_dev (s : State) (v : Word) : (s.setSr v).dev = s.dev := rfl
@[simp] theorem State.setSr_status (s : State) (v : Word) : (s.setSr v).status = s.status := rfl
@[simp] theorem State.setSr_cfg (s : State) (v : Word) : (s.setSr v).cfg = s.cfg := rfl
@[simp] theorem State.setSr_reg (s : State) (v : Word) (e : Reg) : (s.setSr v).reg e = s.reg e := rfl

/-! ### setMem -/

@[simp] theorem State.setMem_regs (s : State) (m : Memory) : (s.setMem m).regs = s.regs := rfl
@[simp] theorem State.setMem_pc (s : State) (m : Memory) : (s.setMem m).pc = s.pc := rfl
@[simp] theorem State.setMem_sp (s : State) (m : Memory) : (s.setMem m).sp = s.sp := rfl
@[simp] theorem State.setMem_fp (s : State) (m : Memory) : (s.setMem m).fp = s.fp := rfl
@[simp] theorem State.setMem_acc (s : State) (m : Memory) : (s.setMem m).acc = s.acc := rfl
@[simp] theorem State.setMem_sr (s : State) (m : Memory) : (s.setMem m).sr = s.sr := rfl
@[simp] theorem State.setMem_mem (s : State) (m : Memory) : (s.setMem m).mem = m := rfl
@[simp] theorem State.setMem_dev (s : State) (m : Memory) : (s.setMem m).dev = s.dev := rfl
@[simp] theorem State.setMem_status (s : State) (m : Memory) : (s.setMem m).status = s.status := rfl
@[simp] theorem State.setMem_cfg (s : State) (m : Memory) : (s.setMem m).cfg = s.cfg := rfl
@[simp] theorem State.setMem_reg (s : State) (m : Memory) (e : Reg) : (s.setMem m).reg e = s.reg e := rfl

/-! ### setDev -/

@[simp] theorem State.setDev_regs (s : State) (d : Device) : (s.setDev d).regs = s.regs := rfl
@[simp] theorem State.setDev_pc (s : State) (d : Device) : (s.setDev d).pc = s.pc := rfl
@[simp] theorem State.setDev_sp (s : State) (d : Device) : (s.setDev d).sp = s.sp := rfl
@[simp] theorem State.setDev_fp (s : State) (d : Device) : (s.setDev d).fp = s.fp := rfl
@[simp] theorem State.setDev_acc (s : State) (d : Device) : (s.setDev d).acc = s.acc := rfl
@[simp] theorem State.setDev_sr (s : State) (d : Device) : (s.setDev d).sr = s.sr := rfl
@[simp] theorem State.setDev_mem (s : State) (d : Device) : (s.setDev d).mem = s.mem := rfl
@[simp] theorem State.setDev_dev (s : State) (d : Device) : (s.setDev d).dev = d := rfl
@[simp] theorem State.setDev_status (s : State) (d : Device) : (s.setDev d).status = s.status := rfl
@[simp] theorem State.setDev_cfg (s : State) (d : Device) : (s.setDev d).cfg = s.cfg := rfl
@[simp] theorem State.setDev_reg (s : State) (d : Device) (e : Reg) : (s.setDev d).reg e = s.reg e := rfl

/-! ### setStatus -/

@[simp] theorem State.setStatus_regs (s : State) (x : Status) : (s.setStatus x).regs = s.regs := rfl
@[simp] theorem State.setStatus_pc (s : State) (x : Status) : (s.setStatus x).pc = s.pc := rfl
@[simp] theorem State.setStatus_sp (s : State) (x : Status) : (s.setStatus x).sp = s.sp := rfl
@[simp] theorem State.setStatus_fp (s : State) (x : Status) : (s.setStatus x).fp = s.fp := rfl
@[simp] theorem State.setStatus_acc (s : State) (x : Status) : (s.setStatus x).acc = s.acc := rfl
@[simp] theorem State.setStatus_sr (s : State) (x : Status) : (s.setStatus x).sr = s.sr := rfl
@[simp] theorem State.setStatus_mem (s : State) (x : Status) : (s.setStatus x).mem = s.mem := rfl
@[simp] theorem State.setStatus_dev (s : State) (x : Status) : (s.setStatus x).dev = s.dev := rfl
@[simp] theorem State.setStatus_status (s : State) (x : Status) : (s.setStatus x).status = x := rfl
@[simp] theorem State.setStatus_cfg (s : State) (x : Status) : (s.setStatus x).cfg = s.cfg := rfl
@[simp] theorem State.setStatus_reg (s : State) (x : Status) (e : Reg) : (s.setStatus x).reg e = s.reg e := rfl

/-! ### setWord -/

@[simp] theorem State.setWord_regs (s : State) (a : Nat) (v : Word) : (s.setWord a v).regs = s.regs := rfl
@[simp] theorem State.setWord_pc (s : State) (a : Nat) (v : Word) : (s.setWord a v).pc = s.pc := rfl
@[simp] theorem State.setWord_sp (s : State) (a : Nat) (v : Word) : (s.setWord a v).sp = s.sp := rfl
@[simp] theorem State.setWord_fp (s : State) (a : Nat) (v : Word) : (s.setWord a v).fp = s.fp := rfl
@[simp] theorem State.setWord_acc (s : State) (a : Nat) (v : Word) : (s.setWord a v).acc = s.acc := rfl
@[simp] theorem State.setWord_sr (s : State) (a : Nat) (v : Word) : (s.setWord a v).sr = s.sr := rfl
@[simp] theorem State.setWord_mem (s : State) (a : Nat) (v : Word) : (s.setWord a v).mem = s.mem.writeWord s.cfg.byteOrder a v := rfl
@[simp] theorem State.setWord_dev (s : State) (a : Nat) (v : Word) : (s.setWord a v).dev = s.dev := rfl
@[simp] theorem State.setWord_status (s : State) (a : Nat) (v : Word) : (s.setWord a v).status = s.status := rfl
@[simp] theorem State.setWord_cfg (s : State) (a : Nat) (v : Word) : (s.setWord a v).cfg = s.cfg := rfl
@[simp] theorem State.setWord_reg (s : State) (a : Nat) (v : Word) (e : Reg) : (s.setWord a v).reg e = s.reg e := rfl

/-! ### advance -/

@[simp] theorem State.advance_regs (s : State) (f : Format) : (s.advance f).regs = s.regs := rfl
@[simp] theorem State.advance_pc (s : State) (f : Format) : (s.advance f).pc = s.nextPc f := rfl
@[simp] theorem State.advance_sp (s : State) (f : Format) : (s.advance f).sp = s.sp := rfl
@[simp] theorem State.advance_fp (s : State) (f : Format) : (s.advance f).fp = s.fp := rfl
@[simp] theorem State.advance_acc (s : State) (f : Format) : (s.advance f).acc = s.acc := rfl
@[simp] theorem State.advance_sr (s : State) (f : Format) : (s.advance f).sr = s.sr := rfl
@[simp] theorem State.advance_mem (s : State) (f : Format) : (s.advance f).mem = s.mem := rfl
@[simp] theorem State.advance_dev (s : State) (f : Format) : (s.advance f).dev = s.dev := rfl
@[simp] theorem State.advance_status (s : State) (f : Format) : (s.advance f).status = s.status := rfl
@[simp] theorem State.advance_cfg (s : State) (f : Format) : (s.advance f).cfg = s.cfg := rfl
@[simp] theorem State.advance_reg (s : State) (f : Format) (e : Reg) : (s.advance f).reg e = s.reg e := rfl

/-! ### raise -/

@[simp] theorem State.raise_regs (s : State) (f : RunFault) : (s.raise f).regs = s.regs := rfl
@[simp] theorem State.raise_pc (s : State) (f : RunFault) : (s.raise f).pc = s.pc := rfl
@[simp] theorem State.raise_sp (s : State) (f : RunFault) : (s.raise f).sp = s.sp := rfl
@[simp] theorem State.raise_fp (s : State) (f : RunFault) : (s.raise f).fp = s.fp := rfl
@[simp] theorem State.raise_acc (s : State) (f : RunFault) : (s.raise f).acc = s.acc := rfl
@[simp] theorem State.raise_sr (s : State) (f : RunFault) : (s.raise f).sr = s.sr := rfl
@[simp] theorem State.raise_mem (s : State) (f : RunFault) : (s.raise f).mem = s.mem := rfl
@[simp] theorem State.raise_dev (s : State) (f : RunFault) : (s.raise f).dev = s.dev := rfl
@[simp] theorem State.raise_status (s : State) (f : RunFault) : (s.raise f).status = .faulted f := rfl
@[simp] theorem State.raise_cfg (s : State) (f : RunFault) : (s.raise f).cfg = s.cfg := rfl
@[simp] theorem State.raise_reg (s : State) (f : RunFault) (e : Reg) : (s.raise f).reg e = s.reg e := rfl

/-! ### push -/

@[simp] theorem State.push_regs (s : State) (v : Word) : (s.push v).regs = s.regs := rfl
@[simp] theorem State.push_pc (s : State) (v : Word) : (s.push v).pc = s.pc := rfl
@[simp] theorem State.push_sp (s : State) (v : Word) : (s.push v).sp = s.sp + 4 := rfl
@[simp] theorem State.push_fp (s : State) (v : Word) : (s.push v).fp = s.fp := rfl
@[simp] theorem State.push_acc (s : State) (v : Word) : (s.push v).acc = s.acc := rfl
@[simp] theorem State.push_sr (s : State) (v : Word) : (s.push v).sr = s.sr := rfl
@[simp] theorem State.push_mem (s : State) (v : Word) : (s.push v).mem = s.mem.writeWord s.cfg.byteOrder (pushAddr s.sp 1) v := rfl
@[simp] theorem State.push_dev (s : State) (v : Word) : (s.push v).dev = s.dev := rfl
@[simp] theorem State.push_status (s : State) (v : Word) : (s.push v).status = s.status := rfl
@[simp] theorem State.push_cfg (s : State) (v : Word) : (s.push v).cfg = s.cfg := rfl
@[simp] theorem State.push_reg (s : State) (v : Word) (e : Reg) : (s.push v).reg e = s.reg e := rfl

/-! ### Registers -/

theorem State.setReg_reg (s : State) (r : Reg) (v : Word) (e : Reg) :
    (s.setReg r v).reg e = if e = r then v else s.reg e := by
  simp only [State.reg, State.setReg, Fin.getElem_fin, Vector.getElem_set]
  by_cases h : e = r
  · subst h; simp
  · have : (r : Nat) ≠ e := fun h' => h (Fin.ext h'.symm)
    simp [h, this]

@[simp] theorem State.setReg_reg_same (s : State) (r : Reg) (v : Word) : (s.setReg r v).reg r = v := by
  simp [State.setReg_reg]

@[simp] theorem State.setReg_reg_other (s : State) (r : Reg) (v : Word) (e : Reg) (h : e ≠ r) :
    (s.setReg r v).reg e = s.reg e := by
  simp [State.setReg_reg, h]

@[simp] theorem State.setRegs_reg (s : State) (v : Vector Word 8) (e : Reg) :
    (s.setRegs v).reg e = v[e] := rfl

/-- Two register files that agree on every register are equal. -/
theorem State.regs_ext (s t : State) (h : ∀ r, t.reg r = s.reg r) : t.regs = s.regs := by
  apply Vector.ext
  intro j hj
  exact h ⟨j, hj⟩

/-- PC after the implicit advance, as a number (R11). -/
theorem State.nextPc_toNat (s : State) (f : Format) :
    (s.nextPc f).toNat = (s.pc.toNat + f.length) % 2 ^ 32 := by
  have : f.length < 2 ^ 32 := by cases f <;> decide
  simp [State.nextPc, BitVec.toNat_add]

end Sys2Proof.Machine
end

