-- ==== Sys2Proof/Laws/Flags.lean ====
section
/-!
SUPPORT. The flags bit by bit, and what the result operations answer.
-/

namespace Sys2Proof.Machine

/-! ### Bits of SR -/

/-- `putZ` writes bit 0 and no other. -/
theorem putZ_getLsbD (sr : Word) (c : Bool) (j : Nat) :
    (putZ sr c).getLsbD j = if j = 0 then c else sr.getLsbD j := by
  by_cases hj : j < 32
  · have hm : ∀ j : Fin 32, (0xFFFFFFFE#32).getLsbD j = decide (j.val ≠ 0) := by decide
    have h1 : ∀ j : Fin 32, (1#32).getLsbD j = decide (j.val = 0) := by decide
    simp only [putZ, BitVec.getLsbD_or, BitVec.getLsbD_and, hm ⟨j, hj⟩]
    by_cases h0 : j = 0
    · subst h0; cases c <;> simp
    · cases c
      · simp [h0]
      · simp only [if_true, h1 ⟨j, hj⟩]; simp [h0]
  · have h0 : j ≠ 0 := by omega
    rw [if_neg h0, BitVec.getLsbD_of_ge _ _ (by omega), BitVec.getLsbD_of_ge _ _ (by omega)]

/-- `putO` writes bit 1 and no other. -/
theorem putO_getLsbD (sr : Word) (c : Bool) (j : Nat) :
    (putO sr c).getLsbD j = if j = 1 then c else sr.getLsbD j := by
  by_cases hj : j < 32
  · have hm : ∀ j : Fin 32, (0xFFFFFFFD#32).getLsbD j = decide (j.val ≠ 1) := by decide
    have h1 : ∀ j : Fin 32, (2#32).getLsbD j = decide (j.val = 1) := by decide
    simp only [putO, BitVec.getLsbD_or, BitVec.getLsbD_and, hm ⟨j, hj⟩]
    by_cases h0 : j = 1
    · subst h0; cases c <;> simp
    · cases c
      · simp [h0]
      · simp only [if_true, h1 ⟨j, hj⟩]; simp [h0]
  · have h0 : j ≠ 1 := by omega
    rw [if_neg h0, BitVec.getLsbD_of_ge _ _ (by omega), BitVec.getLsbD_of_ge _ _ (by omega)]

/-- SR holds its flags in bits 1 and 0 alone exactly when it is below 4 (R15). -/
theorem sr_lt_four_iff (sr : Word) : sr.toNat < 4 ↔ ∀ j, 2 ≤ j → sr.getLsbD j = false := by
  constructor
  · intro h j hj
    rw [BitVec.getLsbD, Nat.testBit_lt_two_pow]
    calc sr.toNat < 2 ^ 2 := by simpa using h
      _ ≤ 2 ^ j := Nat.pow_le_pow_right (by decide) hj
  · intro h
    have := Nat.lt_pow_two_of_testBit sr.toNat (n := 2) fun j hj => h j hj
    simpa using this

/-- `putZ` leaves bits 31:2 at 0. -/
theorem putZ_lt_four (sr : Word) (c : Bool) (h : sr.toNat < 4) : (putZ sr c).toNat < 4 := by
  rw [sr_lt_four_iff] at h ⊢
  intro j hj
  rw [putZ_getLsbD, if_neg (by omega), h j hj]

/-- `putO` leaves bits 31:2 at 0. -/
theorem putO_lt_four (sr : Word) (c : Bool) (h : sr.toNat < 4) : (putO sr c).toNat < 4 := by
  rw [sr_lt_four_iff] at h ⊢
  intro j hj
  rw [putO_getLsbD, if_neg (by omega), h j hj]

/-- SR after a write of both flags, bit by bit. -/
theorem flagsZO_getLsbD (sr v : Word) (o : Bool) (j : Nat) :
    (flagsZO sr v o).getLsbD j = if j = 1 then o else if j = 0 then isZero v else sr.getLsbD j := by
  rw [flagsZO, putO_getLsbD, putZ_getLsbD]

/-- SR after a write of Z, bit by bit. -/
theorem flagsZ_getLsbD (sr v : Word) (j : Nat) :
    (flagsZ sr v).getLsbD j = if j = 0 then isZero v else sr.getLsbD j := putZ_getLsbD sr _ j

theorem flagsZO_lt_four (sr v : Word) (o : Bool) (h : sr.toNat < 4) : (flagsZO sr v o).toNat < 4 :=
  putO_lt_four _ _ (putZ_lt_four _ _ h)

theorem flagsZ_lt_four (sr v : Word) (h : sr.toNat < 4) : (flagsZ sr v).toNat < 4 := putZ_lt_four _ _ h

theorem isZero_iff (v : Word) : isZero v = true ↔ v.toNat = 0 := by
  simp only [isZero, decide_eq_true_eq]
  exact ⟨fun h => by simp [h], fun h => BitVec.eq_of_toNat_eq (by simpa using h)⟩

theorem overflows_iff (e : Int) : overflows e = true ↔ e < 0 ∨ e > 2 ^ 32 - 1 := by
  simp [overflows]

/-- The stored result is the exact one modulo 2^32 (R92). -/
theorem wrap_toNat (e : Int) : ((wrap e).toNat : Int) = e % 2 ^ 32 := by
  rw [wrap, BitVec.toNat_ofInt]
  have : (0 : Int) ≤ e % 2 ^ 32 := Int.emod_nonneg _ (by decide)
  simpa using this

/-! ### What the result operations answer -/

/-- A state whose SR is the old one with both flags written. -/
theorem flagsZO_of_sr (s t : State) (v : Word) (o : Bool) (h : t.sr = flagsZO s.sr v o) :
    FlagsZO s t v (o = true) := by
  refine ⟨?_, ?_, ?_⟩
  · rw [State.z, h, flagsZO_getLsbD]; simpa using isZero_iff v
  · rw [State.o, h, flagsZO_getLsbD]; simp
  · intro j hj
    rw [h, flagsZO_getLsbD, if_neg (by omega), if_neg (by omega)]

/-- A state whose SR is the old one with Z written. -/
theorem flagsZ_of_sr (s t : State) (v : Word) (h : t.sr = flagsZ s.sr v) : FlagsZ s t v := by
  refine ⟨?_, ?_, ?_⟩
  · rw [State.z, h, flagsZ_getLsbD]; simpa using isZero_iff v
  · rw [State.o, h, flagsZ_getLsbD]; simp [State.o]
  · intro j hj
    rw [h, flagsZ_getLsbD, if_neg (by omega)]

/-- Everything `accResult` can do: it answers a next state, ACC and SR written from the exact result. -/
theorem accResult_spec (s : State) (f : Format) (e : Int) :
    ∃ t, accResult s f e = .next t ∧ (t.acc.toNat : Int) = e % 2 ^ 32 ∧
      FlagsZO s t t.acc (e < 0 ∨ e > 2 ^ 32 - 1) ∧
      Frame s t { acc := true, sr := true } ∧ PcMoved s t f.length := by
  refine ⟨_, rfl, wrap_toNat e, ?_, ?_, State.nextPc_toNat s f⟩
  · have := flagsZO_of_sr s (((s.setAcc (wrap e)).setSr (flagsZO s.sr (wrap e) (overflows e))).advance f)
      (wrap e) (overflows e) rfl
    rwa [overflows_iff] at this
  · simp [Frame]

/-- Everything `regResult` can do: it answers a next state, `Rd` and SR written from the exact result. -/
theorem regResult_spec (s : State) (f : Format) (Rd : Reg) (e : Int) :
    ∃ t, regResult s f Rd e = .next t ∧ ((t.reg Rd).toNat : Int) = e % 2 ^ 32 ∧
      FlagsZO s t (t.reg Rd) (e < 0 ∨ e > 2 ^ 32 - 1) ∧
      Frame s t { regs := [Rd], sr := true } ∧ PcMoved s t f.length := by
  refine ⟨_, rfl, by simpa using wrap_toNat e, ?_, ?_, State.nextPc_toNat s f⟩
  · have := flagsZO_of_sr s (((s.setReg Rd (wrap e)).setSr (flagsZO s.sr (wrap e) (overflows e))).advance f)
      (wrap e) (overflows e) rfl
    rw [overflows_iff] at this
    simpa using this
  · refine ⟨fun r hr => ?_, by simp⟩
    simp only [List.mem_singleton] at hr
    simp [hr]

/-- Everything `inPlace` can do: it answers a next state, `Rd` and Z written. -/
theorem inPlace_spec (s : State) (f : Format) (Rd : Reg) (v : Word) :
    ∃ t, inPlace s f Rd v = .next t ∧ t.reg Rd = v ∧ FlagsZ s t v ∧
      Frame s t { regs := [Rd], sr := true } ∧ PcMoved s t f.length := by
  refine ⟨_, rfl, by simp, flagsZ_of_sr s _ v rfl, ?_, State.nextPc_toNat s f⟩
  refine ⟨fun r hr => ?_, by simp⟩
  simp only [List.mem_singleton] at hr
  simp [hr]

/-- Everything `divide` can do: `DivideByZero`, or a next state with the quotient in ACC, Z written and O
cleared. -/
theorem divide_spec (s : State) (f : Format) (a b : Word) :
    (b.toNat = 0 ∧ divide s f a b = trap s .divideByZero) ∨
    (b.toNat ≠ 0 ∧ ∃ t, divide s f a b = .next t ∧ t.acc.toNat = a.toNat / b.toNat ∧
      FlagsZO s t t.acc False ∧ Frame s t { acc := true, sr := true } ∧ PcMoved s t f.length) := by
  by_cases h : b.toNat = 0
  · exact .inl ⟨h, by simp [divide, h]⟩
  · refine .inr ⟨h, (((s.setAcc (quotient a b)).setSr (flagsZO s.sr (quotient a b) false)).advance f),
      by rw [divide, if_neg h], ?_, ?_, ?_, State.nextPc_toNat s f⟩
    · simp only [State.advance_acc, State.setSr_acc, State.setAcc_acc, quotient, BitVec.toNat_ofNat]
      exact Nat.mod_eq_of_lt (lt_of_le_of_lt (Nat.div_le_self _ _) a.isLt)
    · have := flagsZO_of_sr s
        (((s.setAcc (quotient a b)).setSr (flagsZO s.sr (quotient a b) false)).advance f)
        (quotient a b) false rfl
      simpa using this
    · simp [Frame]

end Sys2Proof.Machine
end

