-- ==== Sys2Proof/Laws/Ops.lean ====
section
/-!
SUPPORT. For each shared operation, once, everything it can do.
-/

namespace Sys2Proof.Machine

/-! ### Faults and range checks -/

theorem memValid_iff (s : State) (a n : Nat) : memValid s a n = true ↔ n = 0 ∨ a + n ≤ s.cfg.memSize := by
  simp [memValid]

/-- A word access is valid exactly when its four bytes are in memory. -/
theorem memValid_word_iff (s : State) (a : Nat) : memValid s a 4 = true ↔ a + 4 ≤ s.cfg.memSize := by
  simp [memValid]

/-- Taking a fault answers the state whose status records it and which differs in nothing else (R162). -/
theorem trap_faults (s : State) (f : RunFault) : Faults (trap s f) s f := rfl

/-- Everything `withWord` can do. -/
theorem withWord_spec (s : State) (a : Nat) (use : Word → Result) :
    (a + 4 ≤ s.cfg.memSize ∧ withWord s a use = use (s.word a)) ∨
    (¬ a + 4 ≤ s.cfg.memSize ∧ withWord s a use = trap s (.memoryOutOfRange a 4)) := by
  unfold withWord
  split
  · rename_i h; exact .inl ⟨(memValid_word_iff s a).1 h, rfl⟩
  · rename_i h; exact .inr ⟨fun h' => h ((memValid_word_iff s a).2 h'), rfl⟩

/-! ### Loads and stores of a word -/

/-- Everything `loadWord` can do: the word into `Rd`, or `MemoryOutOfRange`. -/
theorem loadWord_spec (s : State) (f : Format) (a : Nat) (Rd : Reg) :
    (a + 4 ≤ s.cfg.memSize ∧ ∃ t, loadWord s f a Rd = .next t ∧ t.reg Rd = s.word a ∧
      Frame s t { regs := [Rd] } ∧ PcMoved s t f.length) ∨
    (¬ a + 4 ≤ s.cfg.memSize ∧ Faults (loadWord s f a Rd) s (.memoryOutOfRange a 4)) := by
  rcases withWord_spec s a fun v => .next ((s.setReg Rd v).advance f) with ⟨h, e⟩ | ⟨h, e⟩
  · refine .inl ⟨h, (s.setReg Rd (s.word a)).advance f, e, by simp, ⟨fun r hr => ?_, by simp⟩,
      State.nextPc_toNat s f⟩
    simp only [List.mem_singleton] at hr
    simp [hr]
  · exact .inr ⟨h, e⟩

/-- The word just stored reads back. -/
theorem State.setWord_word (s : State) (a : Nat) (v : Word) : (s.setWord a v).word a = v :=
  Memory.readWord_writeWord _ _ a v

/-- A word apart from the stored one is as before. -/
theorem State.setWord_word_apart (s : State) (a b : Nat) (v : Word) (h : a + 4 ≤ b ∨ b + 4 ≤ a) :
    (s.setWord a v).word b = s.word b :=
  Memory.readWord_writeWord_apart _ _ a b v h

/-- A byte outside the stored word is as before. -/
theorem State.setWord_read_outside (s : State) (a : Nat) (v : Word) (x : Nat)
    (h : ¬(a ≤ x ∧ x < a + 4)) : (s.setWord a v).mem.read x = s.mem.read x :=
  Memory.read_writeWord_outside _ _ a v x h

/-- Everything `storeWord` can do: the word at `a`, or `MemoryOutOfRange`. -/
theorem storeWord_spec (s : State) (f : Format) (a : Nat) (v : Word) :
    (a + 4 ≤ s.cfg.memSize ∧ ∃ t, storeWord s f a v = .next t ∧ t.word a = v ∧
      Frame s t { stored := [(a, 4)] } ∧ PcMoved s t f.length) ∨
    (¬ a + 4 ≤ s.cfg.memSize ∧ Faults (storeWord s f a v) s (.memoryOutOfRange a 4)) := by
  unfold storeWord
  split
  · rename_i h
    refine .inl ⟨(memValid_word_iff s a).1 h, (s.setWord a v).advance f, rfl, State.setWord_word s a v, ?_,
      State.nextPc_toNat s f⟩
    refine ⟨fun r _ => rfl, fun _ => rfl, rfl, fun _ => rfl, fun _ => rfl, fun x hx => ?_, fun _ => rfl,
      fun _ => rfl, rfl⟩
    exact State.setWord_read_outside s a v x (hx (a, 4) (by simp))
  · rename_i h
    exact .inr ⟨fun h' => h ((memValid_word_iff s a).2 h'), rfl⟩

/-! ### The stack -/

theorem pushAddr_eq (sp : Word) (j : Nat) : pushAddr sp j = (sp.toNat + 4 * j) % 2 ^ 32 := by
  simp [pushAddr, BitVec.toNat_add]

theorem popAddr_eq (sp : Word) (j : Nat) (h : 4 * j ≤ 2 ^ 32) :
    popAddr sp j = (sp.toNat + (2 ^ 32 - 4 * j)) % 2 ^ 32 := by
  unfold popAddr
  rw [BitVec.toNat_sub, BitVec.toNat_ofNat]
  have := sp.isLt
  omega

/-- The addresses of two pushes of one instruction are a word apart. -/
theorem pushAddr_apart (sp : Word) (i j : Nat) (hij : i < j) (h : 4 * j < 2 ^ 32) :
    pushAddr sp i + 4 ≤ pushAddr sp j ∨ pushAddr sp j + 4 ≤ pushAddr sp i ∨ 4 * (j - i) > 2 ^ 32 - 4 := by
  rw [pushAddr_eq, pushAddr_eq]; omega

theorem pushAddr_succ (sp : Word) (j : Nat) : pushAddr (sp + 4) j = pushAddr sp (j + 1) := by
  rw [pushAddr_eq, pushAddr_eq, BitVec.toNat_add]
  simp; omega

@[simp] theorem State.push_word_top (s : State) (v : Word) : (s.push v).word (pushAddr s.sp 1) = v :=
  State.setWord_word s _ v

@[simp] theorem State.pushAll_regs (s : State) (ws : List Word) : (s.pushAll ws).regs = s.regs := by
  induction ws generalizing s with
  | nil => rfl
  | cons v vs ih => simp [State.pushAll, ih]

@[simp] theorem State.pushAll_reg (s : State) (ws : List Word) (r : Reg) :
    (s.pushAll ws).reg r = s.reg r := by
  simp [State.reg]

@[simp] theorem State.pushAll_pc (s : State) (ws : List Word) : (s.pushAll ws).pc = s.pc := by
  induction ws generalizing s with
  | nil => rfl
  | cons v vs ih => simp [State.pushAll, ih]

@[simp] theorem State.pushAll_fp (s : State) (ws : List Word) : (s.pushAll ws).fp = s.fp := by
  induction ws generalizing s with
  | nil => rfl
  | cons v vs ih => simp [State.pushAll, ih]

@[simp] theorem State.pushAll_acc (s : State) (ws : List Word) : (s.pushAll ws).acc = s.acc := by
  induction ws generalizing s with
  | nil => rfl
  | cons v vs ih => simp [State.pushAll, ih]

@[simp] theorem State.pushAll_sr (s : State) (ws : List Word) : (s.pushAll ws).sr = s.sr := by
  induction ws generalizing s with
  | nil => rfl
  | cons v vs ih => simp [State.pushAll, ih]

@[simp] theorem State.pushAll_dev (s : State) (ws : List Word) : (s.pushAll ws).dev = s.dev := by
  induction ws generalizing s with
  | nil => rfl
  | cons v vs ih => simp [State.pushAll, ih]

@[simp] theorem State.pushAll_status (s : State) (ws : List Word) : (s.pushAll ws).status = s.status := by
  induction ws generalizing s with
  | nil => rfl
  | cons v vs ih => simp [State.pushAll, ih]

@[simp] theorem State.pushAll_cfg (s : State) (ws : List Word) : (s.pushAll ws).cfg = s.cfg := by
  induction ws generalizing s with
  | nil => rfl
  | cons v vs ih => simp [State.pushAll, ih]

theorem State.pushAll_sp (s : State) (ws : List Word) :
    (s.pushAll ws).sp = s.sp + BitVec.ofNat 32 (4 * ws.length) := by
  induction ws generalizing s with
  | nil => simp [State.pushAll]
  | cons v vs ih =>
    rw [State.pushAll, ih, State.push_sp]
    apply BitVec.eq_of_toNat_eq
    simp [BitVec.toNat_add]; omega

/-- Outside the pushed words nothing changes. -/
theorem State.pushAll_read_outside (s : State) (ws : List Word) (x : Nat)
    (h : ∀ j, j < ws.length → ¬(pushAddr s.sp (j + 1) ≤ x ∧ x < pushAddr s.sp (j + 1) + 4)) :
    (s.pushAll ws).mem.read x = s.mem.read x := by
  induction ws generalizing s with
  | nil => rfl
  | cons v vs ih =>
    rw [State.pushAll, ih (s.push v) fun j hj => by
      rw [State.push_sp, pushAddr_succ]; exact h (j + 1) (by simpa using hj)]
    exact State.setWord_read_outside s _ v x (h 0 (by simp))

/-- Each pushed word stands at the address of its push. -/
theorem State.pushAll_word (s : State) (ws : List Word) (j : Nat) (hj : j < ws.length)
    (h : 4 * ws.length < 2 ^ 32) : (s.pushAll ws).word (pushAddr s.sp (j + 1)) = ws[j] := by
  induction ws generalizing s j with
  | nil => simp at hj
  | cons v vs ih =>
    simp only [List.length_cons] at h hj
    cases j with
    | zero =>
      have hm : ((s.push v).pushAll vs).word (pushAddr s.sp 1) = (s.push v).word (pushAddr s.sp 1) := by
        unfold State.word
        rw [State.pushAll_cfg]
        apply Memory.readWord_congr
        intro x h1 h2
        apply State.pushAll_read_outside
        intro i hi
        rw [State.push_sp, pushAddr_succ]
        have hap := pushAddr_apart s.sp 1 (i + 1 + 1) (by omega) (by omega)
        omega
      exact hm.trans (State.push_word_top s v)
    | succ j =>
      have := ih (s.push v) j (by omega) (by omega)
      rw [State.push_sp, pushAddr_succ] at this
      simpa [State.pushAll] using this

/-- Everything `pushWord` can do: the word at the new top, or `MemoryOutOfRange` with SP unmoved. -/
theorem pushWord_spec (s : State) (f : Format) (v : Word) :
    (pushAddr s.sp 1 + 4 ≤ s.cfg.memSize ∧ ∃ t, pushWord s f v = .next t ∧
      t.sp.toNat = (s.sp.toNat + 4) % 2 ^ 32 ∧ t.word t.sp.toNat = v ∧
      Frame s t { sp := true, stored := [(pushAddr s.sp 1, 4)] } ∧ PcMoved s t f.length) ∨
    (¬ pushAddr s.sp 1 + 4 ≤ s.cfg.memSize ∧
      Faults (pushWord s f v) s (.memoryOutOfRange (pushAddr s.sp 1) 4)) := by
  unfold pushWord
  split
  · rename_i h
    have hsp : ((s.push v).advance f).sp.toNat = (s.sp.toNat + 4) % 2 ^ 32 := by
      simp [BitVec.toNat_add]
    refine .inl ⟨(memValid_word_iff s _).1 h, (s.push v).advance f, rfl, hsp, ?_, ?_,
      State.nextPc_toNat s f⟩
    · rw [hsp, show (s.sp.toNat + 4) % 2 ^ 32 = pushAddr s.sp 1 by rw [pushAddr_eq]]
      exact State.push_word_top s v
    · refine ⟨fun r _ => rfl, by simp, rfl, fun _ => rfl, fun _ => rfl, fun x hx => ?_, fun _ => rfl,
        fun _ => rfl, rfl⟩
      exact State.setWord_read_outside s _ v x (hx (pushAddr s.sp 1, 4) (by simp))
  · rename_i h
    exact .inr ⟨fun h' => h ((memValid_word_iff s _).2 h'), rfl⟩

theorem popAddr_zero (sp : Word) : popAddr sp 0 = sp.toNat := by simp [popAddr]

/-- Everything `popWord` can do: the top word into `Rd` and SP down by 4, or `MemoryOutOfRange`. -/
theorem popWord_spec (s : State) (f : Format) (Rd : Reg) :
    (s.sp.toNat + 4 ≤ s.cfg.memSize ∧ ∃ t, popWord s f Rd = .next t ∧ t.reg Rd = s.word s.sp.toNat ∧
      t.sp.toNat = (s.sp.toNat + (2 ^ 32 - 4)) % 2 ^ 32 ∧
      Frame s t { regs := [Rd], sp := true } ∧ PcMoved s t f.length) ∨
    (¬ s.sp.toNat + 4 ≤ s.cfg.memSize ∧
      Faults (popWord s f Rd) s (.memoryOutOfRange s.sp.toNat 4)) := by
  unfold popWord
  rw [popAddr_zero]
  rcases withWord_spec s s.sp.toNat fun v => .next (((s.setReg Rd v).setSp (s.sp - 4)).advance f) with
    ⟨h, e⟩ | ⟨h, e⟩
  · refine .inl ⟨h, ((s.setReg Rd (s.word s.sp.toNat)).setSp (s.sp - 4)).advance f, e, by simp, ?_,
      ⟨fun r hr => ?_, by simp⟩, State.nextPc_toNat s f⟩
    · simp [BitVec.toNat_sub, Nat.add_comm]
    · simp only [List.mem_singleton] at hr
      simp [hr]
  · exact .inr ⟨h, e⟩

/-! ### Checking a list of addresses -/

theorem firstBad_none_iff (s : State) (as : List Nat) :
    firstBad s as = none ↔ ∀ a ∈ as, a + 4 ≤ s.cfg.memSize := by
  induction as with
  | nil => simp [firstBad]
  | cons a as ih =>
    simp only [firstBad, List.forall_mem_cons]
    split
    · rename_i h; rw [ih]; simp [(memValid_word_iff s a).1 h]
    · rename_i h
      simp only [reduceCtorEq, false_iff, not_and]
      exact fun h' => absurd ((memValid_word_iff s a).2 h') h

/-- The first bad one of addresses `g 0, g 1, ...`: it is bad and the ones before it are good. -/
theorem firstBad_some (s : State) (g : Nat → Nat) (n k a : Nat)
    (h : firstBad s ((List.range' k n).map g) = some a) :
    ∃ j, k ≤ j ∧ j < k + n ∧ a = g j ∧ ¬ g j + 4 ≤ s.cfg.memSize ∧
      ∀ i, k ≤ i → i < j → g i + 4 ≤ s.cfg.memSize := by
  induction n generalizing k with
  | zero => simp [firstBad] at h
  | succ n ih =>
    simp only [List.range'_succ, List.map_cons, firstBad] at h
    split at h
    · rename_i hv
      obtain ⟨j, h1, h2, h3, h4, h5⟩ := ih (k + 1) h
      refine ⟨j, by omega, by omega, h3, h4, fun i hi hij => ?_⟩
      by_cases hik : i = k
      · subst hik; exact (memValid_word_iff s _).1 hv
      · exact h5 i (by omega) hij
    · rename_i hv
      refine ⟨k, le_refl k, by omega, by simpa using h.symm, ?_, fun i hi hij => by omega⟩
      exact fun h' => hv ((memValid_word_iff s _).2 h')

/-! ### Calls and returns -/

theorem frameWords_length (s : State) (ret : Word) : (frameWords s ret).length = 9 := by
  simp [frameWords]

/-- Everything `callTo` can do. Where all nine words fit in memory: the registers and the return address on the
stack in push order, SP up by 36, PC at the target; else the first address that does not fit is reported. -/
theorem callTo_spec (s : State) (f : Format) (target : Word) :
    ((∀ j, 1 ≤ j → j ≤ 9 → pushAddr s.sp j + 4 ≤ s.cfg.memSize) ∧ ∃ t, callTo s f target = .next t ∧
      (∀ r : Reg, t.word (pushAddr s.sp (r.val + 1)) = s.reg r) ∧
      t.word (pushAddr s.sp 9) = s.nextPc f ∧
      t.sp.toNat = (s.sp.toNat + 36) % 2 ^ 32 ∧ t.pc = target ∧
      Frame s t { sp := true, stored := (List.range 9).map fun j => (pushAddr s.sp (j + 1), 4) }) ∨
    (∃ j, 1 ≤ j ∧ j ≤ 9 ∧ ¬ pushAddr s.sp j + 4 ≤ s.cfg.memSize ∧
      (∀ i, 1 ≤ i → i < j → pushAddr s.sp i + 4 ≤ s.cfg.memSize) ∧
      Faults (callTo s f target) s (.memoryOutOfRange (pushAddr s.sp j) 4)) := by
  unfold callTo
  split
  · rename_i a h
    rw [List.range_eq_range'] at h
    obtain ⟨j, h1, h2, h3, h4, h5⟩ := firstBad_some s (fun j => pushAddr s.sp (j + 1)) 9 0 a h
    subst h3
    exact .inr ⟨j + 1, by omega, by omega, h4, fun i hi hij => by
      have := h5 (i - 1) (by omega) (by omega)
      rwa [Nat.sub_add_cancel hi] at this, rfl⟩
  · rename_i h
    rw [firstBad_none_iff] at h
    refine .inl ⟨fun j h1 h9 => h _ (List.mem_map.2 ⟨j - 1, by simp; omega, by
      rw [Nat.sub_add_cancel h1]⟩), _, rfl, ?_, ?_, ?_, rfl, ?_⟩
    · intro r
      have := State.pushAll_word s (frameWords s (s.nextPc f)) r.val (by rw [frameWords_length]; omega)
        (by rw [frameWords_length]; omega)
      refine Eq.trans this ?_
      simp only [frameWords]
      rw [List.getElem_append_left (by simp)]
      simp [State.reg]
    · have := State.pushAll_word s (frameWords s (s.nextPc f)) 8 (by rw [frameWords_length]; omega)
        (by rw [frameWords_length]; omega)
      refine Eq.trans this ?_
      simp only [frameWords]
      rw [List.getElem_append_right (by simp)]
      simp
    · simp only [State.setPc_sp, State.pushAll_sp, frameWords_length]
      simp [BitVec.toNat_add]
    · refine ⟨fun r _ => by simp, by simp, by simp, by simp, by simp, fun x hx => ?_, by simp, by simp,
        by simp⟩
      apply State.pushAll_read_outside
      intro j hj
      rw [frameWords_length] at hj
      exact hx (pushAddr s.sp (j + 1), 4) (List.mem_map.2 ⟨j, by simpa using hj, rfl⟩)

/-- Everything `returnFrom` can do. Where all nine words lie in memory: the registers and PC from the stack and
SP down by 36; else the first address that does not fit is reported. -/
theorem returnFrom_spec (s : State) :
    ((∀ j, j ≤ 8 → popAddr s.sp j + 4 ≤ s.cfg.memSize) ∧ ∃ t, returnFrom s = .next t ∧
      (∀ r : Reg, t.reg r = s.word (popAddr s.sp (8 - r.val))) ∧
      t.pc = s.word (popAddr s.sp 0) ∧
      t.sp.toNat = (s.sp.toNat + (2 ^ 32 - 36)) % 2 ^ 32 ∧
      Frame s t { regs := [0, 1, 2, 3, 4, 5, 6, 7], sp := true }) ∨
    (∃ j, j ≤ 8 ∧ ¬ popAddr s.sp j + 4 ≤ s.cfg.memSize ∧
      (∀ i, i < j → popAddr s.sp i + 4 ≤ s.cfg.memSize) ∧
      Faults (returnFrom s) s (.memoryOutOfRange (popAddr s.sp j) 4)) := by
  unfold returnFrom
  split
  · rename_i a h
    rw [List.range_eq_range'] at h
    obtain ⟨j, h1, h2, h3, h4, h5⟩ := firstBad_some s (fun j => popAddr s.sp j) 9 0 a h
    subst h3
    exact .inr ⟨j, by omega, h4, fun i hij => h5 i (by omega) hij, rfl⟩
  · rename_i h
    rw [firstBad_none_iff] at h
    refine .inl ⟨fun j hj => h _ (List.mem_map.2 ⟨j, by simp; omega, rfl⟩), _, rfl, ?_, rfl, ?_, ?_⟩
    · intro r
      simp only [State.setPc_reg, State.setSp_reg, State.setRegs_reg, poppedRegs]
      simp
    · simp [BitVec.toNat_sub, Nat.add_comm]
    · refine ⟨fun r hr => ?_, by simp, rfl, fun _ => rfl, fun _ => rfl, fun _ _ => rfl, fun _ => rfl,
        fun _ => rfl, rfl⟩
      exact absurd (by revert r; decide) hr

/-! ### The device space -/

theorem devBytes_length (s : State) (a n : Nat) : (devBytes s a n).length = n := by
  unfold devBytes; split <;> simp

/-- Everything `copyDevToMem` can do, the checks in order. -/
theorem copyDevToMem_spec (s : State) (f : Format) (src n dst : Nat) :
    (devValid s src n = false ∧ Faults (copyDevToMem s f src n dst) s (.deviceOutOfRange src n)) ∨
    (devValid s src n = true ∧ memValid s dst n = false ∧
      Faults (copyDevToMem s f src n dst) s (.memoryOutOfRange dst n)) ∨
    (devValid s src n = true ∧ memValid s dst n = true ∧ ∃ t, copyDevToMem s f src n dst = .next t ∧
      (∀ i, i < n → t.mem.read (dst + i) = (devBytes s src n).getD i 0) ∧
      t.dev = devAfterRead s src n ∧
      Frame s t { stored := [(dst, n)], dev := true } ∧ PcMoved s t f.length) := by
  unfold copyDevToMem
  cases hd : devValid s src n
  · exact .inl ⟨rfl, rfl⟩
  · cases hm : memValid s dst n
    · exact .inr (.inl ⟨rfl, rfl, rfl⟩)
    · refine .inr (.inr ⟨rfl, rfl, _, rfl, fun i hi => ?_, rfl, ?_, State.nextPc_toNat s f⟩)
      · exact Memory.read_writeBytes_inside s.mem dst _ i (by rwa [devBytes_length])
      · refine ⟨fun r _ => rfl, fun _ => rfl, rfl, fun _ => rfl, fun _ => rfl, fun x hx => ?_, by simp,
          fun _ => rfl, rfl⟩
        refine Memory.read_writeBytes_outside s.mem dst _ x ?_
        rw [devBytes_length]
        exact hx (dst, n) (by simp)

/-- Everything `copyMemToDev` can do, the checks in order. -/
theorem copyMemToDev_spec (s : State) (f : Format) (src n dst : Nat) :
    (memValid s src n = false ∧ Faults (copyMemToDev s f src n dst) s (.memoryOutOfRange src n)) ∨
    (memValid s src n = true ∧ devValid s dst n = false ∧
      Faults (copyMemToDev s f src n dst) s (.deviceOutOfRange dst n)) ∨
    (memValid s src n = true ∧ devValid s dst n = true ∧ ∃ t, copyMemToDev s f src n dst = .next t ∧
      t.dev = devAfterWrite s dst (s.mem.readBytes src n) ∧
      Frame s t { dev := true } ∧ PcMoved s t f.length) := by
  unfold copyMemToDev
  cases hm : memValid s src n
  · exact .inl ⟨rfl, rfl⟩
  · cases hd : devValid s dst n
    · exact .inr (.inl ⟨rfl, rfl, rfl⟩)
    · refine .inr (.inr ⟨rfl, rfl, _, rfl, rfl, ?_, State.nextPc_toNat s f⟩)
      exact ⟨fun r _ => rfl, fun _ => rfl, rfl, fun _ => rfl, fun _ => rfl, fun _ _ => rfl, by simp,
        fun _ => rfl, rfl⟩

/-- Everything `withPointer` can do. -/
theorem withPointer_spec (s : State) (M : Word) (use : Nat → Result) :
    (M.toNat + 4 ≤ s.cfg.memSize ∧ withPointer s M use = use (s.word M.toNat).toNat) ∨
    (¬ M.toNat + 4 ≤ s.cfg.memSize ∧ Faults (withPointer s M use) s (.memoryOutOfRange M.toNat 4)) :=
  withWord_spec s M.toNat fun p => use p.toNat

/-! ### Branches -/

/-- Everything `branchIf` can do: PC at `k` or at the next instruction, nothing else. -/
theorem branchIf_spec (s : State) (f : Format) (c : Bool) (k : Word) :
    ∃ t, branchIf s f c k = .next t ∧ Frame s t {} ∧
      (c = true → t.pc = k) ∧ (c = false → PcMoved s t f.length) := by
  cases c
  · refine ⟨s.advance f, rfl, ?_, by simp, fun _ => State.nextPc_toNat s f⟩
    simp [Frame]
  · exact ⟨s.setPc k, rfl, by simp [Frame], by simp, by simp⟩

/-! ### Fetch and step -/

theorem fetchBytes_length (s : State) :
    (fetchBytes s).length = min 10 (s.cfg.memSize - s.pc.toNat) := by
  simp [fetchBytes]

/-- What a step can do: nothing for a stopped machine, the decoded instruction's meaning, or a fetch or decode
fault. -/
theorem step_cases (s : State) :
    (∃ r, stoppedBy s.status = some r ∧ step s = .fault r) ∨
    (s.status = .running ∧ ∃ i, fetchDecode s = .ok i ∧ step s = exec i s) ∨
    (s.status = .running ∧ ∃ f, fetchDecode s = .error f ∧ step s = trap s f) := by
  unfold step
  cases hs : s.status with
  | running =>
    simp only [stoppedBy]
    cases hf : fetchDecode s with
    | ok i => exact .inr (.inl ⟨trivial, i, rfl, rfl⟩)
    | error f => exact .inr (.inr ⟨trivial, f, rfl, rfl⟩)
  | halted => exact .inl ⟨_, rfl, rfl⟩
  | faulted f => exact .inl ⟨_, rfl, rfl⟩

end Sys2Proof.Machine
end

