-- ==== Sys2Proof/Laws/PerInstr.lean ====
section
/-!
SUPPORT. The per-instruction family `EncodedLength` of LAWS.json: an instruction's encoding has the length its
opcode fixes (R54).
-/

namespace Sys2Proof.Laws

open Sys2Proof.Machine

/-- R54: the encoding of an instruction has the instruction's length, in either byte order. -/
def EncodedLength.Statement (i : Instr) : Prop := ∀ c : Config, (encode c i).length = i.length

/-- Every instruction at once; the lemmas below name the constructors. -/
theorem encode_length (c : Config) (i : Instr) : (encode c i).length = i.length := by
  cases i <;> simp [encode, Instr.length, Instr.format, Format.length]

theorem EncodedLength.nop : EncodedLength.Statement .nop :=
  fun c => encode_length c .nop

theorem EncodedLength.jmp (k : Word) : EncodedLength.Statement (.jmp k) :=
  fun c => encode_length c (.jmp k)

theorem EncodedLength.call (k : Word) : EncodedLength.Statement (.call k) :=
  fun c => encode_length c (.call k)

theorem EncodedLength.callr (R : Reg) : EncodedLength.Statement (.callr R) :=
  fun c => encode_length c (.callr R)

theorem EncodedLength.ret : EncodedLength.Statement .ret :=
  fun c => encode_length c .ret

theorem EncodedLength.pop (Rd : Reg) : EncodedLength.Statement (.pop Rd) :=
  fun c => encode_length c (.pop Rd)

theorem EncodedLength.movr (K : Word) (Rd : Reg) : EncodedLength.Statement (.movr K Rd) :=
  fun c => encode_length c (.movr K Rd)

theorem EncodedLength.movm (K : Word) (k : Word) : EncodedLength.Statement (.movm K k) :=
  fun c => encode_length c (.movm K k)

theorem EncodedLength.movrr (Ro : Reg) (Rd : Reg) : EncodedLength.Statement (.movrr Ro Rd) :=
  fun c => encode_length c (.movrr Ro Rd)

theorem EncodedLength.movrm (Ro : Reg) (k : Word) : EncodedLength.Statement (.movrm Ro k) :=
  fun c => encode_length c (.movrm Ro k)

theorem EncodedLength.movmr (k : Word) (Rd : Reg) : EncodedLength.Statement (.movmr k Rd) :=
  fun c => encode_length c (.movmr k Rd)

theorem EncodedLength.push (K : Word) : EncodedLength.Statement (.push K) :=
  fun c => encode_length c (.push K)

theorem EncodedLength.pushr (Ro : Reg) : EncodedLength.Statement (.pushr Ro) :=
  fun c => encode_length c (.pushr Ro)

theorem EncodedLength.movrpr (Ro : Reg) (Rd : Reg) : EncodedLength.Statement (.movrpr Ro Rd) :=
  fun c => encode_length c (.movrpr Ro Rd)

theorem EncodedLength.movror (Ro : Reg) (K : Word) (Rd : Reg) : EncodedLength.Statement (.movror Ro K Rd) :=
  fun c => encode_length c (.movror Ro K Rd)

theorem EncodedLength.load (Ro : Reg) (R : Reg) (k : Word) : EncodedLength.Statement (.load Ro R k) :=
  fun c => encode_length c (.load Ro R k)

theorem EncodedLength.loadr (Ro : Reg) (R : Reg) (Rd : Reg) : EncodedLength.Statement (.loadr Ro R Rd) :=
  fun c => encode_length c (.loadr Ro R Rd)

theorem EncodedLength.loadm (Ro : Reg) (R : Reg) (Md : Word) : EncodedLength.Statement (.loadm Ro R Md) :=
  fun c => encode_length c (.loadm Ro R Md)

theorem EncodedLength.store (k : Word) (R : Reg) (Rd : Reg) : EncodedLength.Statement (.store k R Rd) :=
  fun c => encode_length c (.store k R Rd)

theorem EncodedLength.storer (Ro : Reg) (R : Reg) (Rd : Reg) : EncodedLength.Statement (.storer Ro R Rd) :=
  fun c => encode_length c (.storer Ro R Rd)

theorem EncodedLength.storem (Mo : Word) (R : Reg) (Rd : Reg) : EncodedLength.Statement (.storem Mo R Rd) :=
  fun c => encode_length c (.storem Mo R Rd)

theorem EncodedLength.add (K : Word) (R : Reg) : EncodedLength.Statement (.add K R) :=
  fun c => encode_length c (.add K R)

theorem EncodedLength.addr (R1 : Reg) (R2 : Reg) : EncodedLength.Statement (.addr R1 R2) :=
  fun c => encode_length c (.addr R1 R2)

theorem EncodedLength.sub (R : Reg) (K : Word) : EncodedLength.Statement (.sub R K) :=
  fun c => encode_length c (.sub R K)

theorem EncodedLength.subr (R1 : Reg) (R2 : Reg) : EncodedLength.Statement (.subr R1 R2) :=
  fun c => encode_length c (.subr R1 R2)

theorem EncodedLength.subwr (K : Word) (R : Reg) : EncodedLength.Statement (.subwr K R) :=
  fun c => encode_length c (.subwr K R)

theorem EncodedLength.mult (K : Word) (R : Reg) : EncodedLength.Statement (.mult K R) :=
  fun c => encode_length c (.mult K R)

theorem EncodedLength.multr (R1 : Reg) (R2 : Reg) : EncodedLength.Statement (.multr R1 R2) :=
  fun c => encode_length c (.multr R1 R2)

theorem EncodedLength.div (R : Reg) (K : Word) : EncodedLength.Statement (.div R K) :=
  fun c => encode_length c (.div R K)

theorem EncodedLength.divwr (K : Word) (R : Reg) : EncodedLength.Statement (.divwr K R) :=
  fun c => encode_length c (.divwr K R)

theorem EncodedLength.divr (R1 : Reg) (R2 : Reg) : EncodedLength.Statement (.divr R1 R2) :=
  fun c => encode_length c (.divr R1 R2)

theorem EncodedLength.inc (Rd : Reg) : EncodedLength.Statement (.inc Rd) :=
  fun c => encode_length c (.inc Rd)

theorem EncodedLength.dec (Rd : Reg) : EncodedLength.Statement (.dec Rd) :=
  fun c => encode_length c (.dec Rd)

theorem EncodedLength.brbs (Sb : StatusBit) (k : Word) : EncodedLength.Statement (.brbs Sb k) :=
  fun c => encode_length c (.brbs Sb k)

theorem EncodedLength.brbc (Sb : StatusBit) (k : Word) : EncodedLength.Statement (.brbc Sb k) :=
  fun c => encode_length c (.brbc Sb k)

theorem EncodedLength.breq (K : Word) (k : Word) : EncodedLength.Statement (.breq K k) :=
  fun c => encode_length c (.breq K k)

theorem EncodedLength.breqr (R : Reg) (k : Word) : EncodedLength.Statement (.breqr R k) :=
  fun c => encode_length c (.breqr R k)

theorem EncodedLength.breqrw (R : Reg) (K : Word) (k : Word) : EncodedLength.Statement (.breqrw R K k) :=
  fun c => encode_length c (.breqrw R K k)

theorem EncodedLength.breqrr (R1 : Reg) (R2 : Reg) (k : Word) : EncodedLength.Statement (.breqrr R1 R2 k) :=
  fun c => encode_length c (.breqrr R1 R2 k)

theorem EncodedLength.brnq (K : Word) (k : Word) : EncodedLength.Statement (.brnq K k) :=
  fun c => encode_length c (.brnq K k)

theorem EncodedLength.brnqr (R : Reg) (k : Word) : EncodedLength.Statement (.brnqr R k) :=
  fun c => encode_length c (.brnqr R k)

theorem EncodedLength.brnqrw (R : Reg) (K : Word) (k : Word) : EncodedLength.Statement (.brnqrw R K k) :=
  fun c => encode_length c (.brnqrw R K k)

theorem EncodedLength.brnqrr (R1 : Reg) (R2 : Reg) (k : Word) : EncodedLength.Statement (.brnqrr R1 R2 k) :=
  fun c => encode_length c (.brnqrr R1 R2 k)

theorem EncodedLength.brlt (K : Word) (k : Word) : EncodedLength.Statement (.brlt K k) :=
  fun c => encode_length c (.brlt K k)

theorem EncodedLength.brltr (R : Reg) (k : Word) : EncodedLength.Statement (.brltr R k) :=
  fun c => encode_length c (.brltr R k)

theorem EncodedLength.brltrw (R : Reg) (K : Word) (k : Word) : EncodedLength.Statement (.brltrw R K k) :=
  fun c => encode_length c (.brltrw R K k)

theorem EncodedLength.brltrr (R1 : Reg) (R2 : Reg) (k : Word) : EncodedLength.Statement (.brltrr R1 R2 k) :=
  fun c => encode_length c (.brltrr R1 R2 k)

theorem EncodedLength.brgt (K : Word) (k : Word) : EncodedLength.Statement (.brgt K k) :=
  fun c => encode_length c (.brgt K k)

theorem EncodedLength.brgtr (R : Reg) (k : Word) : EncodedLength.Statement (.brgtr R k) :=
  fun c => encode_length c (.brgtr R k)

theorem EncodedLength.brgtrw (R : Reg) (K : Word) (k : Word) : EncodedLength.Statement (.brgtrw R K k) :=
  fun c => encode_length c (.brgtrw R K k)

theorem EncodedLength.brgtrr (R1 : Reg) (R2 : Reg) (k : Word) : EncodedLength.Statement (.brgtrr R1 R2 k) :=
  fun c => encode_length c (.brgtrr R1 R2 k)

theorem EncodedLength.brlte (K : Word) (k : Word) : EncodedLength.Statement (.brlte K k) :=
  fun c => encode_length c (.brlte K k)

theorem EncodedLength.brlter (R : Reg) (k : Word) : EncodedLength.Statement (.brlter R k) :=
  fun c => encode_length c (.brlter R k)

theorem EncodedLength.brlterw (R : Reg) (K : Word) (k : Word) : EncodedLength.Statement (.brlterw R K k) :=
  fun c => encode_length c (.brlterw R K k)

theorem EncodedLength.brlterr (R1 : Reg) (R2 : Reg) (k : Word) : EncodedLength.Statement (.brlterr R1 R2 k) :=
  fun c => encode_length c (.brlterr R1 R2 k)

theorem EncodedLength.brgte (K : Word) (k : Word) : EncodedLength.Statement (.brgte K k) :=
  fun c => encode_length c (.brgte K k)

theorem EncodedLength.brgter (R : Reg) (k : Word) : EncodedLength.Statement (.brgter R k) :=
  fun c => encode_length c (.brgter R k)

theorem EncodedLength.brgterw (R : Reg) (K : Word) (k : Word) : EncodedLength.Statement (.brgterw R K k) :=
  fun c => encode_length c (.brgterw R K k)

theorem EncodedLength.brgterr (R1 : Reg) (R2 : Reg) (k : Word) : EncodedLength.Statement (.brgterr R1 R2 k) :=
  fun c => encode_length c (.brgterr R1 R2 k)

theorem EncodedLength.lsf (Rd : Reg) (K : Word) : EncodedLength.Statement (.lsf Rd K) :=
  fun c => encode_length c (.lsf Rd K)

theorem EncodedLength.lsfr (Rd : Reg) (R : Reg) : EncodedLength.Statement (.lsfr Rd R) :=
  fun c => encode_length c (.lsfr Rd R)

theorem EncodedLength.rsf (Rd : Reg) (K : Word) : EncodedLength.Statement (.rsf Rd K) :=
  fun c => encode_length c (.rsf Rd K)

theorem EncodedLength.rsfr (Rd : Reg) (R : Reg) : EncodedLength.Statement (.rsfr Rd R) :=
  fun c => encode_length c (.rsfr Rd R)

theorem EncodedLength.wlsf (Rd : Reg) (K : Word) : EncodedLength.Statement (.wlsf Rd K) :=
  fun c => encode_length c (.wlsf Rd K)

theorem EncodedLength.wlsfr (Rd : Reg) (R : Reg) : EncodedLength.Statement (.wlsfr Rd R) :=
  fun c => encode_length c (.wlsfr Rd R)

theorem EncodedLength.wrsf (Rd : Reg) (K : Word) : EncodedLength.Statement (.wrsf Rd K) :=
  fun c => encode_length c (.wrsf Rd K)

theorem EncodedLength.wrsfr (Rd : Reg) (R : Reg) : EncodedLength.Statement (.wrsfr Rd R) :=
  fun c => encode_length c (.wrsfr Rd R)

theorem EncodedLength.and (Rd : Reg) (K : Word) : EncodedLength.Statement (.and Rd K) :=
  fun c => encode_length c (.and Rd K)

theorem EncodedLength.andr (Rd : Reg) (R : Reg) : EncodedLength.Statement (.andr Rd R) :=
  fun c => encode_length c (.andr Rd R)

theorem EncodedLength.or (Rd : Reg) (K : Word) : EncodedLength.Statement (.or Rd K) :=
  fun c => encode_length c (.or Rd K)

theorem EncodedLength.orr (Rd : Reg) (R : Reg) : EncodedLength.Statement (.orr Rd R) :=
  fun c => encode_length c (.orr Rd R)

theorem EncodedLength.xor (Rd : Reg) (K : Word) : EncodedLength.Statement (.xor Rd K) :=
  fun c => encode_length c (.xor Rd K)

theorem EncodedLength.xorr (Rd : Reg) (R : Reg) : EncodedLength.Statement (.xorr Rd R) :=
  fun c => encode_length c (.xorr Rd R)

theorem EncodedLength.not (Rd : Reg) : EncodedLength.Statement (.not Rd) :=
  fun c => encode_length c (.not Rd)

theorem EncodedLength.halt : EncodedLength.Statement .halt :=
  fun c => encode_length c .halt

end Sys2Proof.Laws
end

