-- ==== Sys2Proof/Tests/Slice0.lean ====
section
/-!
SUPPORT. The model's own tests: the well-formedness smoke test, every instruction's decoding from bytes the spec
writes out, single steps from the tables of `95_test_vectors.md`, and a witness for the hypotheses of each
statement. Expected values are the spec's.
-/

namespace Sys2Proof.Tests

open Sys2Proof.Machine

/-! ### The start state of the vectors (section 2 of `95_test_vectors.md`) -/

/-- 64 bytes of memory, big-endian, SUBWR at `0x24`, no device bytes, everything zero, running. -/
def machine : State where
  regs := Vector.replicate 8 0
  pc := 0
  sp := 0
  fp := 0
  acc := 0
  sr := 0
  mem := []
  dev := { cells := [], history := [] }
  status := .running
  cfg := { memSize := 64, byteOrder := .big, subwrOpcode := .at24, device := .byteStore, diskSize := 0, displaySize := 0 }

/-- The same machine with the reference device of 16 bytes. -/
def machine16 : State := { machine with cfg := { machine.cfg with diskSize := 16 } }

/-- The machine with bytes of memory set. -/
def inMem (a : Nat) (bs : List Byte) (s : State) : State := s.setMem (s.mem.writeBytes a bs)

/-- The machine with bytes of the device set. -/
def onDisk (a : Nat) (bs : List Byte) (s : State) : State :=
  s.setDev { s.dev with cells := s.dev.cells.writeBytes a bs }

/-- One step on an instruction's bytes at PC, and what a view of the next state shows. -/
def after {α : Type} (bs : List Byte) (s : State) (view : State → α) : Option α :=
  match step (inMem s.pc.toNat bs s) with
  | .next t => some (view t)
  | _ => none

/-- One step on an instruction's bytes at PC raises the fault and changes nothing else. -/
abbrev Stops (bs : List Byte) (s : State) (f : RunFault) : Prop :=
  after bs s id = some { inMem s.pc.toNat bs s with status := .faulted f }

/-- PC, ACC and SR. -/
def accView (t : State) : Word × Word × Word := (t.pc, t.acc, t.sr)

/-- PC, a general register and SR. -/
def regView (r : Reg) (t : State) : Word × Word × Word := (t.pc, t.reg r, t.sr)

/-! ### Well-formedness (R61): SUBWR needs an opcode -/

/-- The parameters with `SUBWR_OPCODE = none`. -/
def noSubwr : Config := { Config.reset with subwrOpcode := .none }

theorem test_wellFormed_refuses_subwr_without_opcode : ¬WellFormed noSubwr (.subwr 10 1) := by decide

theorem test_wellFormed_accepts :
    WellFormed Config.reset (.subwr 10 1) ∧ WellFormed noSubwr (.sub 1 10) ∧ WellFormed noSubwr .halt := by decide

/-! ### Decoding: the encodings that the rules' own examples write out -/

theorem test_decode_halt_nop :
    decode Config.reset [0xFF] = .ok .halt ∧
    decode Config.reset [0x00] = .ok .nop := by decide

theorem test_decode_moves :
    decode Config.reset [0x10, 0xDE, 0xAD, 0xBE, 0xEF, 0x03] = .ok (.movr 0xDEADBEEF 3) ∧
    decode Config.reset [0x11, 0x11, 0x22, 0x33, 0x44, 0x00, 0x00, 0x01, 0x00] = .ok (.movm 0x11223344 0x100) ∧
    decode Config.reset [0x12, 0x01, 0x02] = .ok (.movrr 1 2) ∧
    decode Config.reset [0x13, 0x04, 0x00, 0x00, 0x00, 0x80] = .ok (.movrm 4 0x80) ∧
    decode Config.reset [0x14, 0x00, 0x00, 0x00, 0x80, 0x05] = .ok (.movmr 0x80 5) ∧
    decode Config.reset [0x17, 0x01, 0x02] = .ok (.movrpr 1 2) ∧
    decode Config.reset [0x18, 0x01, 0x00, 0x00, 0x00, 0x08, 0x02] = .ok (.movror 1 8 2) := by decide

theorem test_decode_buffers :
    decode Config.reset [0x19, 0x00, 0x01, 0x00, 0x00, 0x00, 0x40] = .ok (.load 0 1 0x40) ∧
    decode Config.reset [0x1A, 0x00, 0x01, 0x02] = .ok (.loadr 0 1 2) ∧
    decode Config.reset [0x1B, 0x00, 0x01, 0x00, 0x00, 0x00, 0x20] = .ok (.loadm 0 1 0x20) ∧
    decode Config.reset [0x1C, 0x00, 0x00, 0x00, 0x40, 0x01, 0x02] = .ok (.store 0x40 1 2) ∧
    decode Config.reset [0x1D, 0x00, 0x01, 0x02] = .ok (.storer 0 1 2) ∧
    decode Config.reset [0x1E, 0x00, 0x00, 0x00, 0x20, 0x01, 0x02] = .ok (.storem 0x20 1 2) := by decide

theorem test_decode_stack :
    decode Config.reset [0x05, 0x03] = .ok (.pop 3) ∧
    decode Config.reset [0x15, 0x00, 0x00, 0x00, 0x2A] = .ok (.push 0x2A) ∧
    decode Config.reset [0x16, 0x02] = .ok (.pushr 2) := by decide

theorem test_decode_arithmetic :
    decode Config.reset [0x20, 0x00, 0x00, 0x00, 0x01, 0x00] = .ok (.add 1 0) ∧
    decode Config.reset [0x21, 0x01, 0x02] = .ok (.addr 1 2) ∧
    decode Config.reset [0x22, 0x00, 0x00, 0x00, 0x00, 0x05] = .ok (.sub 0 5) ∧
    decode Config.reset [0x24, 0x00, 0x00, 0x00, 0x0A, 0x01] = .ok (.subwr 0xA 1) ∧
    decode Config.reset [0x23, 0x01, 0x02] = .ok (.subr 1 2) ∧
    decode Config.reset [0x25, 0x00, 0x00, 0x00, 0x06, 0x02] = .ok (.mult 6 2) ∧
    decode Config.reset [0x26, 0x01, 0x02] = .ok (.multr 1 2) ∧
    decode Config.reset [0x27, 0x00, 0x00, 0x00, 0x00, 0x02] = .ok (.div 0 2) ∧
    decode Config.reset [0x28, 0x00, 0x00, 0x00, 0x64, 0x01] = .ok (.divwr 0x64 1) ∧
    decode Config.reset [0x29, 0x01, 0x02] = .ok (.divr 1 2) ∧
    decode Config.reset [0x2A, 0x01] = .ok (.inc 1) ∧
    decode Config.reset [0x2B, 0x00] = .ok (.dec 0) := by decide

theorem test_decode_shifts :
    decode Config.reset [0x50, 0x01, 0x00, 0x00, 0x00, 0x04] = .ok (.lsf 1 4) ∧
    decode Config.reset [0x51, 0x01, 0x02] = .ok (.lsfr 1 2) ∧
    decode Config.reset [0x52, 0x01, 0x00, 0x00, 0x00, 0x04] = .ok (.rsf 1 4) ∧
    decode Config.reset [0x53, 0x01, 0x02] = .ok (.rsfr 1 2) ∧
    decode Config.reset [0x54, 0x01, 0x00, 0x00, 0x00, 0x04] = .ok (.wlsf 1 4) ∧
    decode Config.reset [0x55, 0x01, 0x02] = .ok (.wlsfr 1 2) ∧
    decode Config.reset [0x56, 0x01, 0x00, 0x00, 0x00, 0x04] = .ok (.wrsf 1 4) ∧
    decode Config.reset [0x57, 0x01, 0x02] = .ok (.wrsfr 1 2) := by decide

theorem test_decode_logic :
    decode Config.reset [0x58, 0x01, 0x00, 0x00, 0xFF, 0xFF] = .ok (.and 1 0xFFFF) ∧
    decode Config.reset [0x59, 0x01, 0x02] = .ok (.andr 1 2) ∧
    decode Config.reset [0x5A, 0x01, 0x00, 0x00, 0x00, 0xF0] = .ok (.or 1 0xF0) ∧
    decode Config.reset [0x5B, 0x01, 0x02] = .ok (.orr 1 2) ∧
    decode Config.reset [0x5C, 0x01, 0xFF, 0xFF, 0x00, 0x00] = .ok (.xor 1 0xFFFF0000) ∧
    decode Config.reset [0x5D, 0x01, 0x02] = .ok (.xorr 1 2) ∧
    decode Config.reset [0x5E, 0x01] = .ok (.not 1) := by decide

theorem test_decode_branches_a :
    decode Config.reset [0x30, 0x01, 0x00, 0x00, 0x00, 0x40] = .ok (.brbs 1 0x40) ∧
    decode Config.reset [0x31, 0x00, 0x00, 0x00, 0x00, 0x0C] = .ok (.brbc 0 0xC) ∧
    decode Config.reset [0x32, 0x00, 0x00, 0x00, 0x07, 0x00, 0x00, 0x00, 0x40] = .ok (.breq 7 0x40) ∧
    decode Config.reset [0x33, 0x01, 0x00, 0x00, 0x00, 0x40] = .ok (.breqr 1 0x40) ∧
    decode Config.reset [0x34, 0x01, 0x00, 0x00, 0x00, 0x07, 0x00, 0x00, 0x00, 0x40] = .ok (.breqrw 1 7 0x40) ∧
    decode Config.reset [0x35, 0x01, 0x02, 0x00, 0x00, 0x00, 0x40] = .ok (.breqrr 1 2 0x40) ∧
    decode Config.reset [0x36, 0x00, 0x00, 0x00, 0x08, 0x00, 0x00, 0x00, 0x40] = .ok (.brnq 8 0x40) ∧
    decode Config.reset [0x37, 0x01, 0x00, 0x00, 0x00, 0x40] = .ok (.brnqr 1 0x40) ∧
    decode Config.reset [0x38, 0x01, 0x00, 0x00, 0x00, 0x08, 0x00, 0x00, 0x00, 0x40] = .ok (.brnqrw 1 8 0x40) ∧
    decode Config.reset [0x39, 0x01, 0x02, 0x00, 0x00, 0x00, 0x40] = .ok (.brnqrr 1 2 0x40) ∧
    decode Config.reset [0x3A, 0x80, 0x00, 0x00, 0x00, 0x00, 0x00, 0x00, 0x40] = .ok (.brlt 0x80000000 0x40) ∧
    decode Config.reset [0x3B, 0x01, 0x00, 0x00, 0x00, 0x40] = .ok (.brltr 1 0x40) := by decide

theorem test_decode_branches_b :
    decode Config.reset [0x3C, 0x01, 0x80, 0x00, 0x00, 0x00, 0x00, 0x00, 0x00, 0x40] = .ok (.brltrw 1 0x80000000 0x40) ∧
    decode Config.reset [0x3D, 0x01, 0x02, 0x00, 0x00, 0x00, 0x40] = .ok (.brltrr 1 2 0x40) ∧
    decode Config.reset [0x3E, 0x00, 0x00, 0x00, 0x01, 0x00, 0x00, 0x00, 0x40] = .ok (.brgt 1 0x40) ∧
    decode Config.reset [0x3F, 0x01, 0x00, 0x00, 0x00, 0x40] = .ok (.brgtr 1 0x40) ∧
    decode Config.reset [0x40, 0x01, 0x00, 0x00, 0x00, 0x01, 0x00, 0x00, 0x00, 0x40] = .ok (.brgtrw 1 1 0x40) ∧
    decode Config.reset [0x41, 0x01, 0x02, 0x00, 0x00, 0x00, 0x40] = .ok (.brgtrr 1 2 0x40) ∧
    decode Config.reset [0x42, 0x00, 0x00, 0x00, 0x05, 0x00, 0x00, 0x00, 0x40] = .ok (.brlte 5 0x40) ∧
    decode Config.reset [0x43, 0x01, 0x00, 0x00, 0x00, 0x40] = .ok (.brlter 1 0x40) ∧
    decode Config.reset [0x44, 0x01, 0x00, 0x00, 0x00, 0x05, 0x00, 0x00, 0x00, 0x40] = .ok (.brlterw 1 5 0x40) ∧
    decode Config.reset [0x45, 0x01, 0x02, 0x00, 0x00, 0x00, 0x40] = .ok (.brlterr 1 2 0x40) ∧
    decode Config.reset [0x46, 0x00, 0x00, 0x00, 0x05, 0x00, 0x00, 0x00, 0x40] = .ok (.brgte 5 0x40) ∧
    decode Config.reset [0x47, 0x01, 0x00, 0x00, 0x00, 0x40] = .ok (.brgter 1 0x40) := by decide

theorem test_decode_branches_c :
    decode Config.reset [0x48, 0x01, 0x00, 0x00, 0x00, 0x05, 0x00, 0x00, 0x00, 0x40] = .ok (.brgterw 1 5 0x40) ∧
    decode Config.reset [0x49, 0x01, 0x02, 0x00, 0x00, 0x00, 0x40] = .ok (.brgterr 1 2 0x40) := by decide

theorem test_decode_jumps :
    decode Config.reset [0x01, 0x00, 0x00, 0x00, 0x40] = .ok (.jmp 0x40) ∧
    decode Config.reset [0x02, 0x00, 0x00, 0x00, 0x40] = .ok (.call 0x40) ∧
    decode Config.reset [0x03, 0x03] = .ok (.callr 3) ∧
    decode Config.reset [0x04] = .ok .ret := by decide

/-! ### Decoding: refusals, byte order, and the host's numbering of bits -/

/-- R55 to R57, R60: the first check that fails, in the order of R55. -/
theorem test_decode_refuses :
    decode Config.reset [0x06, 0x00] = .error (.illegalOpcode 0x06) ∧
    decode Config.reset [0xFE] = .error (.illegalOpcode 0xFE) ∧
    decode Config.reset [0x12, 0x09, 0x0A] = .error (.invalidRegister 9) ∧
    decode Config.reset [0x31, 0x20, 0x00, 0x00, 0x00, 0x40] = .error (.invalidStatusBit 32) ∧
    decode Config.reset [0x12, 0x08] = .error .truncated ∧
    decode Config.reset [] = .error .truncated := by decide

/-- V302, V305: little-endian fields, and `0x24` where SUBWR has no opcode. -/
theorem test_decode_parameters :
    decode { Config.reset with byteOrder := .little } [0x10, 0x00, 0x00, 0x00, 0x05, 0x00] =
      .ok (.movr 0x05000000 0) ∧
    decode noSubwr [0x24, 0x00, 0x00, 0x00, 0x0A, 0x01] = .error (.illegalOpcode 0x24) ∧
    decode noSubwr [0x22, 0x01, 0x00, 0x00, 0x00, 0x0A] = .ok (.sub 1 0x0A) := by decide

/-- The first byte is the least significant: `12 01 02` is `0x020112`. -/
theorem test_decodeTableWord :
    decodeTableWord 24 0x020112 = some (.movrr 1 2) ∧ decodeTableWord 8 0xFF = some .halt ∧
    decodeTableWord 8 0x06 = none := by decide

/-- The host's placing of an instruction, from reset. -/
theorem test_withFetchWord :
    fetchDecode (State.reset.withFetchWord 24 0x020112) = .ok (.movrr 1 2) := by decide

/-! ### Single steps -/

/-- Vectors V1, V2 of `95_test_vectors.md` (2.1). -/
theorem test_halt_nop :
    after [0xFF] machine (fun t => (t.status, t.pc)) = some (.halted, 0) ∧
    after [0x00] { machine with sr := 3, acc := 7 } State.pc = some 1 := by decide

/-- Vectors V10, V11, V12, V15, V17, V19, V20 of `95_test_vectors.md` (2.2). -/
theorem test_moves_a :
    after [0x10, 0x12, 0x34, 0x56, 0x78, 0x03] machine (fun t => (t.pc, t.reg 3)) = some (6, 0x12345678) ∧
    after [0x10, 0x00, 0x00, 0x00, 0x00, 0x03]
      { machine with regs := #v[0, 0, 0, 5, 0, 0, 0, 0], sr := 0 } (fun t => (t.pc, t.reg 3)) =
      some (6, 0) ∧
    after [0x11, 0xCA, 0xFE, 0xBA, 0xBE, 0x00, 0x00, 0x00, 0x20] machine
      (fun t => (t.pc, t.mem.readBytes 0x20 4)) = some (9, [0xCA, 0xFE, 0xBA, 0xBE]) ∧
    Stops [0x11, 0xCA, 0xFE, 0xBA, 0xBE, 0x00, 0x00, 0x00, 0x3D] machine (.memoryOutOfRange 0x3D 4) ∧
    after [0x12, 0x01, 0x02] { machine with regs := #v[0, 0xAABBCCDD, 0, 0, 0, 0, 0, 0] }
      (fun t => (t.pc, t.reg 2)) = some (3, 0xAABBCCDD) ∧
    after [0x13, 0x05, 0x00, 0x00, 0x00, 0x30]
      { machine with regs := #v[0, 0, 0, 0, 0, 0x1020304, 0, 0] }
      (fun t => (t.pc, t.mem.readBytes 0x30 4)) = some (6, [0x01, 0x02, 0x03, 0x04]) ∧
    Stops [0x13, 0x05, 0xFF, 0xFF, 0xFF, 0xFF] { machine with regs := #v[0, 0, 0, 0, 0, 1, 0, 0] }
      (.memoryOutOfRange 0xFFFFFFFF 4) := by decide

/-- Vectors V21, V22, V25, V27, V29 of `95_test_vectors.md` (2.2). -/
theorem test_moves_b :
    after [0x14, 0x00, 0x00, 0x00, 0x30, 0x06] (inMem 0x30 [0xDE, 0xAD, 0xBE, 0xEF] machine)
      (fun t => (t.pc, t.reg 6)) = some (6, 0xDEADBEEF) ∧
    after [0x14, 0x00, 0x00, 0x00, 0x00, 0x06] machine (fun t => (t.pc, t.reg 6)) = some (6, 0x14000000) ∧
    after [0x17, 0x01, 0x01]
      (inMem 0x30 [0x00, 0x00, 0x01, 0x00] { machine with regs := #v[0, 0x30, 0, 0, 0, 0, 0, 0] })
      (fun t => (t.pc, t.reg 1)) = some (3, 0x100) ∧
    after [0x18, 0x01, 0x00, 0x00, 0x00, 0x08, 0x02]
      (inMem 0x30 [0x01, 0x02, 0x03, 0x04] { machine with regs := #v[0, 0x28, 0, 0, 0, 0, 0, 0] })
      (fun t => (t.pc, t.reg 2)) = some (7, 0x1020304) ∧
    Stops [0x18, 0x01, 0xFF, 0xFF, 0xFF, 0xFC, 0x02]
      (inMem 0x30 [0x01, 0x02, 0x03, 0x04] { machine with regs := #v[0, 0x34, 0, 0, 0, 0, 0, 0] })
      (.memoryOutOfRange 0x100000030 4) := by decide

/-- Vectors V40, V45, V47, V48, V49 of `95_test_vectors.md` (2.3). -/
theorem test_buffer_loads :
    after [0x19, 0x00, 0x01, 0x00, 0x00, 0x00, 0x20]
      (onDisk 4 [0x11, 0x22, 0x33, 0x44, 0x55] { machine16 with regs := #v[4, 5, 0, 0, 0, 0, 0, 0] })
      (fun t => (t.pc, t.mem.readBytes 0x20 5)) = some (7, [0x11, 0x22, 0x33, 0x44, 0x55]) ∧
    Stops [0x19, 0x00, 0x01, 0x00, 0x00, 0x00, 0x3C]
      (onDisk 4 [0x11, 0x22, 0x33, 0x44, 0x55] { machine16 with regs := #v[0xC, 5, 0, 0, 0, 0, 0, 0] })
      (.deviceOutOfRange 0xC 5) ∧
    after [0x1A, 0x00, 0x01, 0x02]
      (onDisk 4 [0x11, 0x22, 0x33, 0x44, 0x55] { machine16 with regs := #v[4, 2, 0x31, 0, 0, 0, 0, 0] })
      (fun t => (t.pc, t.mem.readBytes 0x31 2)) = some (4, [0x11, 0x22]) ∧
    after [0x1B, 0x00, 0x01, 0x00, 0x00, 0x00, 0x20]
      (onDisk 4 [0x11, 0x22, 0x33, 0x44, 0x55] (inMem 0x20 [0x00, 0x00, 0x00, 0x30] { machine16 with regs := #v[4, 3, 0, 0, 0, 0, 0, 0] }))
      (fun t => (t.pc, t.mem.readBytes 0x30 3)) = some (7, [0x11, 0x22, 0x33]) ∧
    Stops [0x1B, 0x00, 0x01, 0x00, 0x00, 0x00, 0x3E]
      (onDisk 4 [0x11, 0x22, 0x33, 0x44, 0x55] { machine16 with regs := #v[4, 0, 0, 0, 0, 0, 0, 0] })
      (.memoryOutOfRange 0x3E 4) := by decide

/-- Vectors V51, V55, V56, V57 of `95_test_vectors.md` (2.3). -/
theorem test_buffer_stores :
    after [0x1C, 0x00, 0x00, 0x00, 0x20, 0x01, 0x02]
      (inMem 0x20 [0xA1, 0xA2, 0xA3, 0xA4] { machine16 with regs := #v[0, 3, 0xA, 0, 0, 0, 0, 0] })
      (fun t => (t.pc, t.dev.cells.readBytes 0xA 3)) = some (7, [0xA1, 0xA2, 0xA3]) ∧
    Stops [0x1C, 0x00, 0x00, 0x00, 0x3E, 0x01, 0x02]
      { machine16 with regs := #v[0, 3, 0xE, 0, 0, 0, 0, 0] } (.memoryOutOfRange 0x3E 3) ∧
    after [0x1D, 0x00, 0x01, 0x02]
      (inMem 0x20 [0xA1, 0xA2, 0xA3, 0xA4] { machine16 with regs := #v[0x21, 2, 5, 0, 0, 0, 0, 0] })
      (fun t => (t.pc, t.dev.cells.readBytes 5 2)) = some (4, [0xA2, 0xA3]) ∧
    after [0x1E, 0x00, 0x00, 0x00, 0x28, 0x01, 0x02]
      (inMem 0x28 [0x00, 0x00, 0x00, 0x22] (inMem 0x20 [0xA1, 0xA2, 0xA3, 0xA4] { machine16 with regs := #v[0, 2, 1, 0, 0, 0, 0, 0] }))
      (fun t => (t.pc, t.dev.cells.readBytes 1 2)) = some (7, [0xA3, 0xA4]) := by decide

/-- Vectors V70, V74, V71, V72, V76 of `95_test_vectors.md` (2.4). -/
theorem test_stack :
    after [0x15, 0x11, 0x22, 0x33, 0x44] { machine with sp := 0x20 }
      (fun t => (t.pc, t.sp, t.mem.readBytes 0x24 4)) = some (5, 0x24, [0x11, 0x22, 0x33, 0x44]) ∧
    Stops [0x15, 0x00, 0x00, 0x00, 0x01] { machine with sp := 0x39 } (.memoryOutOfRange 0x3D 4) ∧
    after [0x16, 0x03] { machine with regs := #v[0, 0, 0, 0x55667788, 0, 0, 0, 0], sp := 0x21 }
      (fun t => (t.pc, t.sp, t.mem.readBytes 0x25 4)) = some (2, 0x25, [0x55, 0x66, 0x77, 0x88]) ∧
    after [0x05, 0x02] (inMem 0x24 [0x11, 0x22, 0x33, 0x44] { machine with sp := 0x24 })
      (fun t => (t.pc, t.reg 2, t.sp)) = some (2, 0x11223344, 0x20) ∧
    after [0x05, 0x02] machine (fun t => (t.pc, t.reg 2, t.sp)) = some (2, 0x5020000, 0xFFFFFFFC) := by decide

/-- Vectors V91, V92, V95, V97, V99, V100, V101, V102, V103 of `95_test_vectors.md` (2.5). -/
theorem test_sums :
    after [0x20, 0x00, 0x00, 0x00, 0x01, 0x00]
      { machine with regs := #v[0xFFFFFFFF, 0, 0, 0, 0, 0, 0, 0] } accView = some (6, 0, 3) ∧
    after [0x20, 0x00, 0x00, 0x00, 0x00, 0x00] { machine with sr := 2 } accView = some (6, 0, 1) ∧
    after [0x21, 0x01, 0x02] { machine with regs := #v[0, 0xFFFFFFF0, 0x20, 0, 0, 0, 0, 0] } accView =
      some (3, 0x10, 2) ∧
    after [0x22, 0x01, 0x00, 0x00, 0x00, 0x03] { machine with regs := #v[0, 0xA, 0, 0, 0, 0, 0, 0] }
      accView = some (6, 7, 0) ∧
    after [0x22, 0x01, 0x00, 0x00, 0x00, 0x0B] { machine with regs := #v[0, 0xA, 0, 0, 0, 0, 0, 0] }
      accView = some (6, 0xFFFFFFFF, 2) ∧
    after [0x24, 0x00, 0x00, 0x00, 0x0A, 0x01] { machine with regs := #v[0, 3, 0, 0, 0, 0, 0, 0] }
      accView = some (6, 7, 0) ∧
    after [0x24, 0x00, 0x00, 0x00, 0x00, 0x01] { machine with regs := #v[0, 1, 0, 0, 0, 0, 0, 0] }
      accView = some (6, 0xFFFFFFFF, 2) ∧
    after [0x23, 0x01, 0x02] { machine with regs := #v[0, 0x100, 1, 0, 0, 0, 0, 0] } accView =
      some (3, 0xFF, 0) ∧
    after [0x23, 0x02, 0x01] { machine with regs := #v[0, 0x100, 1, 0, 0, 0, 0, 0] } accView =
      some (3, 0xFFFFFF01, 2) := by decide

/-- Vectors V106, V107, V109, V110, V112, V113, V114, V115, V116 of `95_test_vectors.md` (2.5). -/
theorem test_products :
    after [0x25, 0x00, 0x01, 0x00, 0x00, 0x01] { machine with regs := #v[0, 0x10000, 0, 0, 0, 0, 0, 0] }
      accView = some (6, 0, 3) ∧
    after [0x25, 0xFF, 0xFF, 0xFF, 0xFF, 0x01]
      { machine with regs := #v[0, 0xFFFFFFFF, 0, 0, 0, 0, 0, 0] } accView = some (6, 1, 2) ∧
    after [0x26, 0x01, 0x02] { machine with regs := #v[0, 0x12345, 0x1000, 0, 0, 0, 0, 0] } accView =
      some (3, 0x12345000, 0) ∧
    after [0x27, 0x01, 0x00, 0x00, 0x00, 0x03] { machine with regs := #v[0, 0xA, 0, 0, 0, 0, 0, 0] }
      accView = some (6, 3, 0) ∧
    Stops [0x27, 0x01, 0x00, 0x00, 0x00, 0x00]
      { machine with regs := #v[0, 0xA, 0, 0, 0, 0, 0, 0], acc := 0x77, sr := 3 } .divideByZero ∧
    after [0x28, 0x00, 0x00, 0x00, 0x64, 0x01] { machine with regs := #v[0, 7, 0, 0, 0, 0, 0, 0] }
      accView = some (6, 0xE, 0) ∧
    Stops [0x28, 0x00, 0x00, 0x00, 0x64, 0x01] { machine with regs := #v[0, 0, 0, 0, 0, 0, 0, 0] }
      .divideByZero ∧
    after [0x29, 0x01, 0x02] { machine with regs := #v[0, 0xFFFFFFFF, 2, 0, 0, 0, 0, 0] } accView =
      some (3, 0x7FFFFFFF, 0) ∧
    Stops [0x29, 0x01, 0x01] { machine with regs := #v[0, 0, 0, 0, 0, 0, 0, 0] } .divideByZero := by decide

/-- Vectors V117, V118, V119, V120 of `95_test_vectors.md` (2.5). -/
theorem test_inc_dec :
    after [0x2A, 0x03] { machine with regs := #v[0, 0, 0, 0x29, 0, 0, 0, 0], acc := 9 } (regView 3) =
      some (2, 0x2A, 0) ∧
    after [0x2A, 0x03] { machine with regs := #v[0, 0, 0, 0xFFFFFFFF, 0, 0, 0, 0] } (regView 3) =
      some (2, 0, 3) ∧
    after [0x2B, 0x03] { machine with regs := #v[0, 0, 0, 1, 0, 0, 0, 0] } (regView 3) = some (2, 0, 1) ∧
    after [0x2B, 0x03] { machine with regs := #v[0, 0, 0, 0, 0, 0, 0, 0] } (regView 3) =
      some (2, 0xFFFFFFFF, 2) := by decide

/-- Vectors V131, V134, V136, V137, V139, V141 of `95_test_vectors.md` (2.6). -/
theorem test_shifts :
    after [0x50, 0x01, 0x00, 0x00, 0x00, 0x00]
      { machine with regs := #v[0, 0xF000000F, 0, 0, 0, 0, 0, 0], sr := 3 } (regView 1) =
      some (6, 0xF000000F, 2) ∧
    after [0x50, 0x01, 0xFF, 0xFF, 0xFF, 0xFF]
      { machine with regs := #v[0, 0xF000000F, 0, 0, 0, 0, 0, 0] } (regView 1) = some (6, 0, 1) ∧
    after [0x51, 0x01, 0x01] { machine with regs := #v[0, 3, 0, 0, 0, 0, 0, 0] } (regView 1) =
      some (3, 0x18, 0) ∧
    after [0x52, 0x01, 0x00, 0x00, 0x00, 0x04]
      { machine with regs := #v[0, 0xF000000F, 0, 0, 0, 0, 0, 0] } (regView 1) = some (6, 0xF000000, 0) ∧
    after [0x52, 0x01, 0x00, 0x00, 0x00, 0x20]
      { machine with regs := #v[0, 0x80000000, 0, 0, 0, 0, 0, 0] } (regView 1) = some (6, 0, 1) ∧
    after [0x53, 0x01, 0x02] { machine with regs := #v[0, 0x100, 0x100, 0, 0, 0, 0, 0] } (regView 1) =
      some (3, 0, 1) := by decide

/-- Vectors V142, V144, V146, V148, V150 of `95_test_vectors.md` (2.6). -/
theorem test_rotates :
    after [0x54, 0x01, 0x00, 0x00, 0x00, 0x04]
      { machine with regs := #v[0, 0xF000000F, 0, 0, 0, 0, 0, 0] } (regView 1) = some (6, 0xFF, 0) ∧
    after [0x54, 0x01, 0x00, 0x00, 0x00, 0x24]
      { machine with regs := #v[0, 0xF000000F, 0, 0, 0, 0, 0, 0] } (regView 1) = some (6, 0xFF, 0) ∧
    after [0x55, 0x01, 0x02] { machine with regs := #v[0, 0x80000001, 1, 0, 0, 0, 0, 0] } (regView 1) =
      some (3, 3, 0) ∧
    after [0x56, 0x01, 0xFF, 0xFF, 0xFF, 0xFF]
      { machine with regs := #v[0, 0xF000000F, 0, 0, 0, 0, 0, 0] } (regView 1) = some (6, 0xE000001F, 0) ∧
    after [0x57, 0x01, 0x01] { machine with regs := #v[0, 0x24, 0, 0, 0, 0, 0, 0] } (regView 1) =
      some (3, 0x40000002, 0) := by decide

/-- Vectors V160, V161, V162, V163, V165, V166, V167, V168, V171 of `95_test_vectors.md` (2.7). -/
theorem test_logic :
    after [0x58, 0x01, 0x0F, 0x0F, 0x0F, 0x0F]
      { machine with regs := #v[0, 0x12345678, 0, 0, 0, 0, 0, 0] } (regView 1) = some (6, 0x2040608, 0) ∧
    after [0x58, 0x01, 0x00, 0x00, 0x00, 0x00]
      { machine with regs := #v[0, 0x12345678, 0, 0, 0, 0, 0, 0], sr := 2 } (regView 1) = some (6, 0, 3) ∧
    after [0x59, 0x01, 0x02] { machine with regs := #v[0, 0xFF00FF00, 0xFF00FF0, 0, 0, 0, 0, 0] }
      (regView 1) = some (3, 0xF000F00, 0) ∧
    after [0x5A, 0x01, 0x00, 0x00, 0xFF, 0xFF]
      { machine with regs := #v[0, 0x12340000, 0, 0, 0, 0, 0, 0] } (regView 1) = some (6, 0x1234FFFF, 0) ∧
    after [0x5B, 0x01, 0x02] { machine with regs := #v[0, 0x80000000, 1, 0, 0, 0, 0, 0] } (regView 1) =
      some (3, 0x80000001, 0) ∧
    after [0x5C, 0x01, 0xFF, 0xFF, 0xFF, 0xFF]
      { machine with regs := #v[0, 0x12345678, 0, 0, 0, 0, 0, 0] } (regView 1) = some (6, 0xEDCBA987, 0) ∧
    after [0x5D, 0x01, 0x01] { machine with regs := #v[0, 0x12345678, 0, 0, 0, 0, 0, 0] } (regView 1) =
      some (3, 0, 1) ∧
    after [0x5D, 0x01, 0x02] { machine with regs := #v[0, 0xAAAAAAAA, 0x55555555, 0, 0, 0, 0, 0] }
      (regView 1) = some (3, 0xFFFFFFFF, 0) ∧
    after [0x5E, 0x01] { machine with regs := #v[0, 0xFFFF, 0, 0, 0, 0, 0, 0], sr := 3 } (regView 1) =
      some (2, 0xFFFF0000, 2) := by decide

/-- Vectors V180, V181, V184, V185 of `95_test_vectors.md` (2.8). -/
theorem test_bit_branches :
    after [0x30, 0x00, 0x00, 0x00, 0x00, 0x30] { machine with sr := 1 } State.pc = some 0x30 ∧
    after [0x30, 0x00, 0x00, 0x00, 0x00, 0x30] { machine with sr := 2 } State.pc = some 6 ∧
    after [0x31, 0x05, 0x00, 0x00, 0x00, 0x30] { machine with sr := 3 } State.pc = some 0x30 ∧
    after [0x31, 0x00, 0x00, 0x00, 0x00, 0x30] { machine with sr := 1 } State.pc = some 6 := by decide

/-- Vectors V188, V189, V190, V192, V193, V195, V196, V197, V198 of `95_test_vectors.md` (2.8). -/
theorem test_branches_eq :
    after [0x32, 0x00, 0x00, 0x00, 0x07, 0x00, 0x00, 0x00, 0x30] { machine with acc := 7 } State.pc =
      some 0x30 ∧
    after [0x32, 0x00, 0x00, 0x00, 0x07, 0x00, 0x00, 0x00, 0x30] { machine with acc := 8 } State.pc =
      some 9 ∧
    after [0x33, 0x01, 0x00, 0x00, 0x00, 0x30]
      { machine with regs := #v[0, 7, 0, 0, 0, 0, 0, 0], acc := 7 } State.pc = some 0x30 ∧
    after [0x34, 0x01, 0x00, 0x00, 0x00, 0x07, 0x00, 0x00, 0x00, 0x30]
      { machine with regs := #v[0, 6, 0, 0, 0, 0, 0, 0] } State.pc = some 0xA ∧
    after [0x35, 0x01, 0x02, 0x00, 0x00, 0x00, 0x30] { machine with regs := #v[0, 5, 5, 0, 0, 0, 0, 0] }
      State.pc = some 0x30 ∧
    after [0x36, 0x00, 0x00, 0x00, 0x07, 0x00, 0x00, 0x00, 0x30] { machine with acc := 7 } State.pc =
      some 9 ∧
    after [0x37, 0x01, 0x00, 0x00, 0x00, 0x30]
      { machine with regs := #v[0, 8, 0, 0, 0, 0, 0, 0], acc := 7 } State.pc = some 0x30 ∧
    after [0x38, 0x01, 0x00, 0x00, 0x00, 0x00, 0x00, 0x00, 0x00, 0x30]
      { machine with regs := #v[0, 1, 0, 0, 0, 0, 0, 0] } State.pc = some 0x30 ∧
    after [0x39, 0x01, 0x02, 0x00, 0x00, 0x00, 0x30] { machine with regs := #v[0, 1, 1, 0, 0, 0, 0, 0] }
      State.pc = some 7 := by decide

/-- Vectors V200, V201, V202, V203, V204, V205, V206, V207, V208, V209 of `95_test_vectors.md` (2.8). -/
theorem test_branches_lt_gt :
    after [0x3A, 0x00, 0x00, 0x00, 0x05, 0x00, 0x00, 0x00, 0x30] { machine with acc := 5 } State.pc =
      some 9 ∧
    after [0x3A, 0x00, 0x00, 0x00, 0x01, 0x00, 0x00, 0x00, 0x30] { machine with acc := 0xFFFFFFFF }
      State.pc = some 9 ∧
    after [0x3B, 0x01, 0x00, 0x00, 0x00, 0x30]
      { machine with regs := #v[0, 0x80000000, 0, 0, 0, 0, 0, 0], acc := 0 } State.pc = some 0x30 ∧
    after [0x3C, 0x01, 0x00, 0x00, 0x00, 0x10, 0x00, 0x00, 0x00, 0x30]
      { machine with regs := #v[0, 0xF, 0, 0, 0, 0, 0, 0] } State.pc = some 0x30 ∧
    after [0x3D, 0x01, 0x02, 0x00, 0x00, 0x00, 0x30] { machine with regs := #v[0, 2, 1, 0, 0, 0, 0, 0] }
      State.pc = some 7 ∧
    after [0x3E, 0x00, 0x00, 0x00, 0x05, 0x00, 0x00, 0x00, 0x30] { machine with acc := 6 } State.pc =
      some 0x30 ∧
    after [0x3E, 0x00, 0x00, 0x00, 0x05, 0x00, 0x00, 0x00, 0x30] { machine with acc := 5 } State.pc =
      some 9 ∧
    after [0x3F, 0x01, 0x00, 0x00, 0x00, 0x30]
      { machine with regs := #v[0, 0x7FFFFFFF, 0, 0, 0, 0, 0, 0], acc := 0x80000000 } State.pc =
      some 0x30 ∧
    after [0x40, 0x01, 0x00, 0x00, 0x00, 0x10, 0x00, 0x00, 0x00, 0x30]
      { machine with regs := #v[0, 0x11, 0, 0, 0, 0, 0, 0] } State.pc = some 0x30 ∧
    after [0x41, 0x01, 0x02, 0x00, 0x00, 0x00, 0x30] { machine with regs := #v[0, 2, 1, 0, 0, 0, 0, 0] }
      State.pc = some 0x30 := by decide

/-- Vectors V210, V211, V212, V213, V214, V215, V216, V217, V218, V219 of `95_test_vectors.md` (2.8). -/
theorem test_branches_le_ge :
    after [0x42, 0x00, 0x00, 0x00, 0x05, 0x00, 0x00, 0x00, 0x30] { machine with acc := 5 } State.pc =
      some 0x30 ∧
    after [0x42, 0x00, 0x00, 0x00, 0x05, 0x00, 0x00, 0x00, 0x30] { machine with acc := 6 } State.pc =
      some 9 ∧
    after [0x43, 0x01, 0x00, 0x00, 0x00, 0x30]
      { machine with regs := #v[0, 0, 0, 0, 0, 0, 0, 0], acc := 0 } State.pc = some 0x30 ∧
    after [0x44, 0x01, 0xFF, 0xFF, 0xFF, 0xFF, 0x00, 0x00, 0x00, 0x30]
      { machine with regs := #v[0, 0xFFFFFFFF, 0, 0, 0, 0, 0, 0] } State.pc = some 0x30 ∧
    after [0x45, 0x01, 0x02, 0x00, 0x00, 0x00, 0x30] { machine with regs := #v[0, 3, 2, 0, 0, 0, 0, 0] }
      State.pc = some 7 ∧
    after [0x46, 0x00, 0x00, 0x00, 0x05, 0x00, 0x00, 0x00, 0x30] { machine with acc := 5 } State.pc =
      some 0x30 ∧
    after [0x46, 0x00, 0x00, 0x00, 0x05, 0x00, 0x00, 0x00, 0x30] { machine with acc := 4 } State.pc =
      some 9 ∧
    after [0x47, 0x01, 0x00, 0x00, 0x00, 0x30]
      { machine with regs := #v[0, 2, 0, 0, 0, 0, 0, 0], acc := 1 } State.pc = some 6 ∧
    after [0x48, 0x01, 0x00, 0x00, 0x00, 0x00, 0x00, 0x00, 0x00, 0x30]
      { machine with regs := #v[0, 0, 0, 0, 0, 0, 0, 0] } State.pc = some 0x30 ∧
    after [0x49, 0x01, 0x02, 0x00, 0x00, 0x00, 0x30]
      { machine with regs := #v[0, 0x80000000, 0xFFFFFFFF, 0, 0, 0, 0, 0] } State.pc = some 7 := by decide

/-- Vectors V231, V232, V234 of `95_test_vectors.md` (2.9). -/
theorem test_jumps :
    after [0x01, 0xFF, 0xFF, 0xFF, 0xFF] machine State.pc = some 0xFFFFFFFF ∧
    after [0x02, 0x00, 0x00, 0x00, 0x08]
      { machine with regs := #v[0xA0, 0xA1, 0xA2, 0xA3, 0xA4, 0xA5, 0xA6, 0xA7], pc := 2, sp := 0x10 }
      (fun t => (t.pc, t.sp, t.mem.readBytes 0x14 36)) =
      some (8, 0x34, [0x00, 0x00, 0x00, 0xA0, 0x00, 0x00, 0x00, 0xA1, 0x00, 0x00, 0x00, 0xA2, 0x00, 0x00, 0x00, 0xA3, 0x00, 0x00, 0x00, 0xA4, 0x00, 0x00, 0x00, 0xA5, 0x00, 0x00, 0x00, 0xA6, 0x00, 0x00, 0x00, 0xA7, 0x00, 0x00, 0x00, 0x07]) ∧
    Stops [0x02, 0x00, 0x00, 0x00, 0x08] { machine with sp := 0x1C } (.memoryOutOfRange 0x40 4) := by decide

/-- Vectors V233, V236, V237 of `95_test_vectors.md` (2.9). -/
theorem test_calls :
    after [0x03, 0x03] { machine with regs := #v[0, 0, 0, 8, 0, 0, 0, 0], pc := 2, sp := 0x10 }
      (fun t => (t.pc, t.sp, t.mem.readBytes 0x14 36)) =
      some (8, 0x34, [0x00, 0x00, 0x00, 0x00, 0x00, 0x00, 0x00, 0x00, 0x00, 0x00, 0x00, 0x00, 0x00, 0x00, 0x00, 0x08, 0x00, 0x00, 0x00, 0x00, 0x00, 0x00, 0x00, 0x00, 0x00, 0x00, 0x00, 0x00, 0x00, 0x00, 0x00, 0x00, 0x00, 0x00, 0x00, 0x04]) ∧
    after [0x04]
      (inMem 0x14 [0x00, 0x00, 0x00, 0xB0, 0x00, 0x00, 0x00, 0xB1, 0x00, 0x00, 0x00, 0xB2, 0x00, 0x00, 0x00, 0xB3, 0x00, 0x00, 0x00, 0xB4, 0x00, 0x00, 0x00, 0xB5, 0x00, 0x00, 0x00, 0xB6, 0x00, 0x00, 0x00, 0xB7, 0x00, 0x00, 0x00, 0x05] { machine with regs := #v[1, 0, 0, 0, 0, 0, 0, 2], sp := 0x34, acc := 9, sr := 1 })
      (fun t => (t.pc, t.regs, t.sp)) =
      some (5, #v[0xB0, 0xB1, 0xB2, 0xB3, 0xB4, 0xB5, 0xB6, 0xB7], 0x10) ∧
    Stops [0x04] { machine with sp := 0x1C } (.memoryOutOfRange 0xFFFFFFFC 4) := by decide

/-- Vectors V187, V250, V269, V270, V272, V273, V274 of `95_test_vectors.md` (2.10). -/
theorem test_decode_faults :
    Stops [0x30, 0x20, 0x00, 0x00, 0x00, 0x30] { machine with sr := 3 } (.invalidStatusBit 0x20) ∧
    Stops [0x06, 0x00, 0x00, 0x00, 0x00, 0x00] machine (.illegalOpcode 6) ∧
    Stops [0x12, 0x09, 0x0A] machine (.invalidRegister 9) ∧
    Stops [0x29, 0x01, 0x08] { machine with regs := #v[0, 1, 0, 0, 0, 0, 0, 0] } (.invalidRegister 8) ∧
    Stops [0x12, 0x08, 0x00] { machine with pc := 0x3E } (.fetchOutOfRange 0x40) ∧
    Stops [0x06] { machine with pc := 0x3F } (.illegalOpcode 6) ∧
    Stops [] { machine with pc := 0x40 } (.fetchOutOfRange 0x40) := by decide

/-- Vectors V300, V301, V303, V305 of `95_test_vectors.md` (2.11). -/
theorem test_parameters :
    after [0x11, 0xBE, 0xBA, 0xFE, 0xCA, 0x20, 0x00, 0x00, 0x00]
      { machine with cfg := { machine.cfg with byteOrder := .little } }
      (fun t => (t.pc, t.mem.readBytes 0x20 4)) = some (9, [0xBE, 0xBA, 0xFE, 0xCA]) ∧
    after [0x14, 0x20, 0x00, 0x00, 0x00, 0x01]
      (inMem 0x20 [0xBE, 0xBA, 0xFE, 0xCA] { machine with cfg := { machine.cfg with byteOrder := .little } })
      (fun t => (t.pc, t.reg 1)) = some (6, 0xCAFEBABE) ∧
    after [0x02, 0x08, 0x00, 0x00, 0x00]
      { machine with regs := #v[0xA0, 0, 0, 0, 0, 0, 0, 0], pc := 2, sp := 0x10, cfg := { machine.cfg with byteOrder := .little } }
      (fun t => (t.pc, t.sp, t.mem.readBytes 0x14 4)) = some (8, 0x34, [0xA0, 0x00, 0x00, 0x00]) ∧
    Stops [0x24, 0x00, 0x00, 0x00, 0x0A, 0x01]
      { machine with regs := #v[0, 3, 0, 0, 0, 0, 0, 0], cfg := { machine.cfg with subwrOpcode := .none } }
      (.illegalOpcode 0x24) := by decide


/-! ### Witnesses: concrete states and operands that meet each statement's hypotheses, at the edges of their ranges -/

/-- The machine with a step's instruction in place: `DIV R0, 0`, which faults. -/
def faulting : State := inMem 0 [0x27, 0x00, 0x00, 0x00, 0x00, 0x00] machine

/-- A platform's own device. -/
def platform : State := { machine with cfg := { machine.cfg with device := .platform } }

/-- `R0 = 0x3C`, `R1 = 0x3D`, `R2 = 4`, `R3 = 12`, `R4 = 13`: word and buffer addresses at the ends of a memory of
64 bytes and a device of 16. -/
def edges : State := { machine16 with regs := #v[0x3C, 0x3D, 4, 12, 13, 0, 0, 0] }

theorem witness_StoringMoves :
    constAddr 60 + 4 ≤ machine.cfg.memSize ∧ machine.cfg.memSize < constAddr 61 + 4 := by decide

theorem witness_LoadingMoves :
    ((60 : Word).toNat + 4 ≤ edges.cfg.memSize ∧ edges.cfg.memSize < (61 : Word).toNat + 4) ∧
    ((edges.reg 0).toNat + 4 ≤ edges.cfg.memSize ∧ edges.cfg.memSize < (edges.reg 1).toNat + 4) ∧
    ((edges.reg 2).toNat + (56 : Word).toNat + 4 ≤ edges.cfg.memSize ∧
      edges.cfg.memSize < (edges.reg 2).toNat + (57 : Word).toNat + 4) := by decide

theorem witness_AddressSumsDoNotWrap :
    edges.wf ∧ 2 ^ 32 < (edges.reg 2).toNat + (0xFFFFFFF9 : Word).toNat + 4 ∧
    (edges.reg 2).toNat ≠ 0 ∧ 2 ^ 32 < (0xFFFFFFFD : Word).toNat + (edges.reg 2).toNat := by decide

theorem witness_WordsInByteOrder :
    (3 < 4 ∧ (Memory.writeWord .big [] 0x20 0xCAFEBABE).read (0x20 + 3) = 0xBE ∧
      (Memory.writeWord .little [] 0x20 0xCAFEBABE).read (0x20 + 3) = 0xCA) ∧
    ¬(0x20 ≤ 0x24 ∧ 0x24 < 0x20 + 4) ∧ ¬(0x20 ≤ 0x1F ∧ 0x1F < 0x20 + 4) := by decide

theorem witness_BufferLoads :
    (devValid edges (edges.reg 3).toNat (edges.reg 2).toNat = true ∧
      devValid edges (edges.reg 4).toNat (edges.reg 2).toNat = false) ∧
    (InMemory edges (edges.reg 0).toNat (edges.reg 2).toNat ∧
      ¬InMemory edges (edges.reg 1).toNat (edges.reg 2).toNat) ∧
    (60 + 4 ≤ edges.cfg.memSize ∧ edges.cfg.memSize < 61 + 4) := by
  unfold InMemory; decide

theorem witness_BufferStores :
    (InMemory edges (edges.reg 0).toNat (edges.reg 2).toNat ∧
      ¬InMemory edges (edges.reg 1).toNat (edges.reg 2).toNat) ∧
    (devValid edges (edges.reg 3).toNat (edges.reg 2).toNat = true ∧
      devValid edges (edges.reg 4).toNat (edges.reg 2).toNat = false) ∧
    (60 + 4 ≤ edges.cfg.memSize ∧ edges.cfg.memSize < 61 + 4) := by
  unfold InMemory; decide

theorem witness_ReferenceDeviceIsAByteStore :
    machine16.cfg.device = .byteStore ∧ devValid machine16 12 4 = true ∧ devValid machine16 13 4 = false ∧
    devValid machine16 99 0 = true ∧ ¬(12 ≤ 16 ∧ 16 < 12 + [(1 : Byte), 2, 3, 4].length) := by decide

theorem witness_PlatformDeviceIsOpen :
    platform.cfg.device = .platform ∧ (1 : Nat) ≠ 0 ∧ ([7] : List Byte) ≠ [] ∧ devValid platform 9 0 = true := by
  decide

theorem witness_EmptyBufferCopies : (edges.reg 5).toNat = 0 := by decide

/-- Source at the top of memory, destination below it, device range at the device's end. -/
theorem witness_BufferRoundTrip :
    edges.cfg.device = .byteStore ∧ (edges.reg 3).toNat + (edges.reg 2).toNat ≤ edges.cfg.diskSize ∧
    (edges.reg 0).toNat + (edges.reg 2).toNat ≤ edges.cfg.memSize ∧
    (edges.reg 2).toNat + (edges.reg 2).toNat ≤ edges.cfg.memSize := by decide

theorem witness_Pushes :
    pushAddr { machine with sp := 56 }.sp 1 + 4 ≤ machine.cfg.memSize ∧
    machine.cfg.memSize < pushAddr { machine with sp := 57 }.sp 1 + 4 ∧
    pushAddr { machine with sp := 0xFFFFFFFC }.sp 1 = 0 := by decide

theorem witness_PopsTheTop :
    { machine with sp := 60 }.sp.toNat + 4 ≤ machine.cfg.memSize ∧
    machine.cfg.memSize < { machine with sp := 61 }.sp.toNat + 4 ∧ machine.sp.toNat < 4 := by decide

theorem witness_PopUndoesPush :
    pushAddr { machine with sp := 56 }.sp 1 + 4 ≤ machine.cfg.memSize ∧
    ∃ t, exec (.pushr 3) { machine with sp := 56 } = .next t := ⟨by decide, _, rfl⟩

theorem witness_AddAndSubtract :
    Config.reset.subwrOpcode = .at24 ∧ noSubwr.subwrOpcode = .none := by decide

theorem witness_Divisions : (1 : Word).toNat ≠ 0 ∧ (0 : Word).toNat = 0 ∧ (edges.reg 2).toNat ≠ 0 ∧
    (edges.reg 5).toNat = 0 := by decide

theorem witness_SubwrOpcode :
    Config.reset.subwrOpcode = .at24 ∧ noSubwr.subwrOpcode = .none ∧
    decode noSubwr [0x22, 0x01, 0x00, 0x00, 0x00, 0x0A] = .ok (.sub 1 0x0A) := by decide

theorem witness_PlainShifts : (31 : Word).toNat < 32 ∧ 32 ≤ (32 : Word).toNat := by decide

theorem witness_RotateRightUndoesLeft : ∃ t, exec (.wlsf 2 33) edges = .next t := ⟨_, rfl⟩

theorem witness_LogicInstructions : 0 < 32 ∧ 31 < 32 ∧ (edges.reg 2).getLsbD 2 = true := by decide

theorem witness_NotInstruction : 31 < 32 ∧ (~~~edges.reg 2).getLsbD 31 = true := by decide

theorem witness_StatusBitBranches :
    ({ machine with sr := 2 }.sr.getLsbD 1 = true ∧ { machine with sr := 2 }.sr.getLsbD 0 = false) ∧
    { machine with sr := 3 }.wf ∧ 2 ≤ (2 : StatusBit).val ∧ 2 ≤ (31 : StatusBit).val := by decide

theorem witness_BranchesAccWithConstant :
    ({ machine with acc := 5 }.acc.toNat = (5 : Word).toNat) ∧
    ({ machine with acc := 5 }.acc.toNat < (6 : Word).toNat) ∧
    ({ machine with acc := 0x80000000 }.acc.toNat > (0x7FFFFFFF : Word).toNat) := by decide

theorem witness_BranchesAccWithRegister :
    ({ edges with acc := 4 }.acc.toNat = (edges.reg 2).toNat) ∧
    ({ edges with acc := 3 }.acc.toNat < (edges.reg 2).toNat) ∧
    ({ edges with acc := 5 }.acc.toNat > (edges.reg 2).toNat) := by decide

theorem witness_BranchesRegisterWithConstant :
    ((edges.reg 2).toNat = (4 : Word).toNat) ∧ ((edges.reg 2).toNat < (5 : Word).toNat) ∧
    ((edges.reg 2).toNat > (3 : Word).toNat) := by decide

theorem witness_BranchesRegisterWithRegister :
    ((edges.reg 2).toNat = (edges.reg 2).toNat) ∧ ((edges.reg 3).toNat < (edges.reg 4).toNat) ∧
    ((edges.reg 1).toNat > (edges.reg 0).toNat) := by decide

theorem witness_Jump :
    machine.status = .running ∧ machine.cfg.memSize ≤ (64 : Word).toNat ∧
    ∃ t, exec (.jmp 64) machine = .next t := ⟨by decide, by decide, _, rfl⟩

/-- V235 and one byte more: the frame ends at the top of memory; the ninth word does not fit. -/
theorem witness_Calls :
    (∀ j, 1 ≤ j → j ≤ 9 → pushAddr { machine with sp := 24 }.sp j + 4 ≤ machine.cfg.memSize) ∧
    machine.cfg.memSize < pushAddr { machine with sp := 25 }.sp 9 + 4 ∧
    (∀ i, 1 ≤ i → i < 9 → pushAddr { machine with sp := 25 }.sp i + 4 ≤ machine.cfg.memSize) := by decide

/-- V238, V237 and a top word outside memory: the lowest legal frame, a ninth pop and a first pop outside. -/
theorem witness_Return :
    (∀ j, j ≤ 8 → popAddr { machine with sp := 32 }.sp j + 4 ≤ machine.cfg.memSize) ∧
    (machine.cfg.memSize < popAddr { machine with sp := 28 }.sp 8 + 4 ∧
      ∀ i, i < 8 → popAddr { machine with sp := 28 }.sp i + 4 ≤ machine.cfg.memSize) ∧
    (machine.cfg.memSize < popAddr { machine with sp := 61 }.sp 0 + 4 ∧
      ∀ i, i < 0 → popAddr { machine with sp := 61 }.sp i + 4 ≤ machine.cfg.memSize) := by decide

/-- With the later state equal to the one after the call. -/
theorem witness_ReturnUndoesCall :
    (∀ j, 1 ≤ j → j ≤ 9 → pushAddr { machine with sp := 24 }.sp j + 4 ≤ machine.cfg.memSize) ∧
    ∃ t u : State, exec (.call 8) { machine with sp := 24 } = .next t ∧ u.sp = t.sp ∧ u.cfg = t.cfg ∧
      ∀ j, 1 ≤ j → j ≤ 9 → ∀ i, i < 4 →
        u.mem.read (pushAddr { machine with sp := 24 }.sp j + i) =
          t.mem.read (pushAddr { machine with sp := 24 }.sp j + i) :=
  ⟨by decide, _, _, rfl, rfl, rfl, fun _ _ _ _ _ => rfl⟩

theorem witness_DecodeOfEncode :
    WellFormed Config.reset (.subwr 10 1) ∧ WellFormed noSubwr (.brgterw 7 0xFFFFFFFF 0) := by decide

theorem witness_EncodeOfDecode :
    decode Config.reset [0x24, 0x00, 0x00, 0x00, 0x0A, 0x01, 0xFF] = .ok (.subwr 10 1) := by decide

theorem witness_OpcodeFixesLength :
    decode Config.reset (0x12 :: [0x01, 0x02]) = .ok (.movrr 1 2) ∧
    decode Config.reset (0x12 :: [0x07, 0x00, 0xFF]) = .ok (.movrr 7 0) := by decide

/-- An instruction that ends with the last byte of memory. -/
theorem witness_StepRunsDecoded :
    (inMem 61 [0x12, 0x01, 0x02] { machine with pc := 61 }).status = .running ∧
    (61 : Word).toNat + (Instr.movrr 1 2).length ≤ machine.cfg.memSize ∧
    decode machine.cfg ((inMem 61 [0x12, 0x01, 0x02] { machine with pc := 61 }).mem.readBytes 61
      (Instr.movrr 1 2).length) = .ok (.movrr 1 2) := by decide

/-- One state for each clause of R55. -/
theorem witness_FetchChecksInOrder :
    machine.cfg.memSize ≤ { machine with pc := 64 }.pc.toNat ∧
    (63 < machine.cfg.memSize ∧ (shapeOf machine.cfg (Memory.read [(63, 0x06)] 63)).isNone) ∧
    (∃ sh, shapeOf machine.cfg (Memory.read [(63, 0x05)] 63) = some sh ∧
      machine.cfg.memSize < 63 + sh.format.length) ∧
    (∃ sh, shapeOf machine.cfg (Memory.read [(62, 0x05), (63, 0x08)] 62) = some sh ∧
      62 + sh.format.length ≤ machine.cfg.memSize ∧
      badReg [(62, 0x05), (63, 0x08)] 62 sh.format = some 8) ∧
    (∃ sh, shapeOf machine.cfg (Memory.read [(58, 0x30), (59, 0x20)] 58) = some sh ∧
      58 + sh.format.length ≤ machine.cfg.memSize ∧
      badBit [(58, 0x30), (59, 0x20)] 58 sh.format = some 32) ∧
    (∃ sh, shapeOf machine.cfg (Memory.read [(62, 0x05), (63, 0x07)] 62) = some sh ∧
      62 + sh.format.length ≤ machine.cfg.memSize ∧
      badReg [(62, 0x05), (63, 0x07)] 62 sh.format = none ∧
      badBit [(62, 0x05), (63, 0x07)] 62 sh.format = none) :=
  ⟨by decide, by decide, ⟨_, rfl, by decide⟩, ⟨_, rfl, by decide⟩, ⟨_, rfl, by decide⟩, ⟨_, rfl, by decide⟩⟩

theorem witness_StoppedMachineTakesNoStep :
    { machine with status := .halted }.status = .halted ∧
    { machine with status := .faulted .divideByZero }.status = .faulted .divideByZero := by decide

theorem witness_RunningMachineAlwaysSteps : machine.status = .running ∧ State.reset.status = .running := by decide

/-- A step that takes a fault: also the second clause of `FlagsWrittenAndRead`. -/
theorem witness_FaultsArePrecise : ∃ t, step faulting = .next t ∧ t.status = .faulted .divideByZero :=
  ⟨_, rfl, rfl⟩

theorem witness_OnlyHaltHalts :
    (∃ t, step (inMem 0 [0xFF] machine) = .next t ∧ t.status = .halted) ∧
    ∃ t, step machine = .next t ∧ t.status = .running := ⟨⟨_, rfl, rfl⟩, _, rfl, rfl⟩

/-- `MOVM 0xFF000000, 9` at 0: the HALT it stores is the next instruction. -/
theorem witness_StoredCodeIsFetched :
    (inMem 0 [0x11, 0xFF, 0x00, 0x00, 0x00, 0x00, 0x00, 0x00, 0x09] machine).status = .running ∧
    fetchDecode (inMem 0 [0x11, 0xFF, 0x00, 0x00, 0x00, 0x00, 0x00, 0x00, 0x09] machine) =
      .ok (.movm 0xFF000000 9) ∧
    9 = machine.nextPc .ww ∧ (9 : Word).toNat + 4 ≤ machine.cfg.memSize ∧
    decode machine.cfg (wordBytes machine.cfg.byteOrder 0xFF000000) = .ok .halt := by decide

/-- One plain step of a legal state. -/
theorem witness_FpAndParametersFixed : ∃ t, step machine = .next t := ⟨_, rfl⟩

theorem witness_GeneralRegistersWritten :
    (3 : Reg) ∉ (Instr.movr 9 2).writtenRegs ∧ ∃ t, exec (.movr 9 2) edges = .next t := ⟨by decide, _, rfl⟩

theorem witness_AccWrittenAndRead :
    (Instr.brbs 0 0).writesAcc = false ∧ (Instr.brbs 0 0).readsAcc = false ∧ (Instr.add 1 1).readsAcc = false ∧
    (∃ t, exec (.brbs 0 0) edges = .next t) ∧ ∃ t, exec (.add 1 1) edges = .next t :=
  ⟨rfl, rfl, rfl, ⟨_, rfl⟩, _, rfl⟩

theorem witness_FlagsWrittenAndRead :
    (Instr.movr 9 2).writesZ = false ∧ (Instr.not 2).writesO = false ∧ (Instr.not 2).readsSr = false ∧
    (∃ t, exec (.movr 9 2) edges = .next t) ∧ (∃ t, exec (.not 2) edges = .next t) ∧
    ∃ t, step faulting = .next t ∧ t.status = .faulted .divideByZero :=
  ⟨rfl, rfl, rfl, ⟨_, rfl⟩, ⟨_, rfl⟩, _, rfl, rfl⟩

theorem witness_SpMoved :
    (Instr.add 1 1).movesSp = false ∧ ∃ t, exec (.add 1 1) edges = .next t := ⟨rfl, _, rfl⟩

theorem witness_DeviceReached :
    (Instr.push 1).reachesDevice = false ∧ ∃ t, exec (.push 1) edges = .next t := ⟨rfl, _, rfl⟩

theorem witness_MemoryWritten :
    (Instr.store 60 2 3).writesMemory = false ∧ ∃ t, exec (.store 60 2 3) edges = .next t := ⟨rfl, _, rfl⟩

theorem witness_NextPcLaw :
    (Instr.movr 9 2).setsPc = false ∧ ∃ t, exec (.movr 9 2) { edges with pc := 0xFFFFFFFF } = .next t :=
  ⟨rfl, _, rfl⟩

/-- The reset launch is legal; a memory of no bytes, and an SR with bit 2 set, are not (U20, R25). -/
theorem witness_LegalLaunch :
    Launch.reset.wf ∧ { Launch.reset with srReset := 3 }.wf ∧ ¬{ Launch.reset with srReset := 4 }.wf ∧
    ¬{ Launch.reset with cfg := { Config.reset with memSize := 0 } }.wf := by decide

theorem witness_StepKeepsLegalState : machine.wf ∧ ∃ t, step machine = .next t := ⟨by decide, _, rfl⟩

theorem witness_MemoryIsItsContents :
    Memory.wf (Memory.writeBytes [] 3 [7, 0, 9]) ∧ Memory.wf [(3, 7), (5, 9)] ∧
    ∀ a, (Memory.writeBytes [] 3 [7, 0, 9]).read a = Memory.read [(3, 7), (5, 9)] a :=
  ⟨by decide, by decide, fun _ => rfl⟩

end Sys2Proof.Tests
end

/-!
The meaning of an instruction as one of the model's shared operations. `Instr.action` reads the operands, and
`perform` runs the operation; `exec_eq_perform` ties the two to `exec`. A property of every instruction is then
proved once per shared operation.
-/

namespace Sys2Proof.Machine

/-- A shared operation of the model with its operands read. -/
inductive Action where
  | halt
  | skip (f : Format)
  | goto (k : Word)
  | branch (f : Format) (c : Bool) (k : Word)
  | call (f : Format) (target : Word)
  | ret
  | push (f : Format) (v : Word)
  | pop (f : Format) (Rd : Reg)
  | move (f : Format) (Rd : Reg) (v : Word)
  | load (f : Format) (a : Nat) (Rd : Reg)
  | store (f : Format) (a : Nat) (v : Word)
  | fromDev (f : Format) (src n dst : Nat)
  | fromDevVia (f : Format) (src n : Nat) (M : Word)
  | toDev (f : Format) (src n dst : Nat)
  | toDevVia (f : Format) (M : Word) (n dst : Nat)
  | accResult (f : Format) (e : Int)
  | regResult (f : Format) (Rd : Reg) (e : Int)
  | divide (f : Format) (a b : Word)
  | inPlace (f : Format) (Rd : Reg) (v : Word)

/-- The shared operation that an action names, on a state. -/
def perform (s : State) : Action → Result
  | .halt => .next (s.setStatus .halted)
  | .skip f => .next (s.advance f)
  | .goto k => .next (s.setPc k)
  | .branch f c k => branchIf s f c k
  | .call f target => callTo s f target
  | .ret => returnFrom s
  | .push f v => pushWord s f v
  | .pop f Rd => popWord s f Rd
  | .move f Rd v => .next ((s.setReg Rd v).advance f)
  | .load f a Rd => loadWord s f a Rd
  | .store f a v => storeWord s f a v
  | .fromDev f src n dst => copyDevToMem s f src n dst
  | .fromDevVia f src n M => withPointer s M fun p => copyDevToMem s f src n p
  | .toDev f src n dst => copyMemToDev s f src n dst
  | .toDevVia f M n dst => withPointer s M fun p => copyMemToDev s f p n dst
  | .accResult f e => Machine.accResult s f e
  | .regResult f Rd e => Machine.regResult s f Rd e
  | .divide f a b => Machine.divide s f a b
  | .inPlace f Rd v => Machine.inPlace s f Rd v

/-- What an action may change besides PC where it does not fault. -/
def Action.touched (s : State) : Action → Touched
  | .halt => { status := true }
  | .skip _ | .goto _ | .branch _ _ _ => {}
  | .call _ _ => { sp := true, stored := (List.range 9).map fun j => (pushAddr s.sp (j + 1), 4) }
  | .ret => { regs := [0, 1, 2, 3, 4, 5, 6, 7], sp := true }
  | .push _ _ => { sp := true, stored := [(pushAddr s.sp 1, 4)] }
  | .pop _ Rd => { regs := [Rd], sp := true }
  | .move _ Rd _ | .load _ _ Rd => { regs := [Rd] }
  | .store _ a _ => { stored := [(a, 4)] }
  | .fromDev _ _ n dst => { stored := [(dst, n)], dev := true }
  | .fromDevVia _ _ n M => { stored := [((s.word M.toNat).toNat, n)], dev := true }
  | .toDev _ _ _ _ | .toDevVia _ _ _ _ => { dev := true }
  | .accResult _ _ | .divide _ _ _ => { acc := true, sr := true }
  | .regResult _ Rd _ | .inPlace _ Rd _ => { regs := [Rd], sr := true }

/-- The format by whose length an action moves PC on, where it transfers no control. -/
def Action.passes : Action → Option Format
  | .halt | .goto _ | .branch _ _ _ | .call _ _ | .ret => none
  | .skip f | .push f _ | .pop f _ | .move f _ _ | .load f _ _ | .store f _ _ | .fromDev f _ _ _
  | .fromDevVia f _ _ _ | .toDev f _ _ _ | .toDevVia f _ _ _ | .accResult f _ | .regResult f _ _
  | .divide f _ _ | .inPlace f _ _ => some f

end Sys2Proof.Machine

namespace Sys2Proof

open Machine

/-- The action of an instruction, its operands read from the registers, ACC and SR. -/
def Instr.action (s : State) : Instr → Action
  | .nop => .skip .n
  | .jmp k => .goto k
  | .call k => .call .w k
  | .callr R => .call .r (s.reg R)
  | .ret => .ret
  | .pop Rd => .pop .r Rd
  | .movr K Rd => .move .wr Rd K
  | .movm K k => .store .ww (constAddr k) K
  | .movrr Ro Rd => .move .rr Rd (s.reg Ro)
  | .movrm Ro k => .store .rw (constAddr k) (s.reg Ro)
  | .movmr k Rd => .load .wr (constAddr k) Rd
  | .push K => .push .w K
  | .pushr Ro => .push .r (s.reg Ro)
  | .movrpr Ro Rd => .load .rr (regAddr s Ro) Rd
  | .movror Ro K Rd => .load .rwr (regOffsetAddr s Ro K) Rd
  | .load Ro R k => .fromDev .rrw (regAddr s Ro) (byteCount s R) (constAddr k)
  | .loadr Ro R Rd => .fromDev .rrr (regAddr s Ro) (byteCount s R) (regAddr s Rd)
  | .loadm Ro R Md => .fromDevVia .rrw (regAddr s Ro) (byteCount s R) Md
  | .store k R Rd => .toDev .wrr (constAddr k) (byteCount s R) (regAddr s Rd)
  | .storer Ro R Rd => .toDev .rrr (regAddr s Ro) (byteCount s R) (regAddr s Rd)
  | .storem Mo R Rd => .toDevVia .wrr Mo (byteCount s R) (regAddr s Rd)
  | .add K R => .accResult .wr ((K.toNat : Int) + (s.reg R).toNat)
  | .addr R1 R2 => .accResult .rr (((s.reg R1).toNat : Int) + (s.reg R2).toNat)
  | .sub R K => .accResult .rw (((s.reg R).toNat : Int) - K.toNat)
  | .subr R1 R2 => .accResult .rr (((s.reg R1).toNat : Int) - (s.reg R2).toNat)
  | .subwr K R => .accResult .wr ((K.toNat : Int) - (s.reg R).toNat)
  | .mult K R => .accResult .wr ((K.toNat : Int) * (s.reg R).toNat)
  | .multr R1 R2 => .accResult .rr (((s.reg R1).toNat : Int) * (s.reg R2).toNat)
  | .div R K => .divide .rw (s.reg R) K
  | .divwr K R => .divide .wr K (s.reg R)
  | .divr R1 R2 => .divide .rr (s.reg R1) (s.reg R2)
  | .inc Rd => .regResult .r Rd (((s.reg Rd).toNat : Int) + 1)
  | .dec Rd => .regResult .r Rd (((s.reg Rd).toNat : Int) - 1)
  | .brbs Sb k => .branch .bw (s.srBit Sb) k
  | .brbc Sb k => .branch .bw (!s.srBit Sb) k
  | .breq K k => .branch .ww (Rel.eq.holds s.acc K) k
  | .breqr R k => .branch .rw (Rel.eq.holds s.acc (s.reg R)) k
  | .breqrw R K k => .branch .rww (Rel.eq.holds (s.reg R) K) k
  | .breqrr R1 R2 k => .branch .rrw (Rel.eq.holds (s.reg R1) (s.reg R2)) k
  | .brnq K k => .branch .ww (Rel.ne.holds s.acc K) k
  | .brnqr R k => .branch .rw (Rel.ne.holds s.acc (s.reg R)) k
  | .brnqrw R K k => .branch .rww (Rel.ne.holds (s.reg R) K) k
  | .brnqrr R1 R2 k => .branch .rrw (Rel.ne.holds (s.reg R1) (s.reg R2)) k
  | .brlt K k => .branch .ww (Rel.lt.holds s.acc K) k
  | .brltr R k => .branch .rw (Rel.lt.holds s.acc (s.reg R)) k
  | .brltrw R K k => .branch .rww (Rel.lt.holds (s.reg R) K) k
  | .brltrr R1 R2 k => .branch .rrw (Rel.lt.holds (s.reg R1) (s.reg R2)) k
  | .brgt K k => .branch .ww (Rel.gt.holds s.acc K) k
  | .brgtr R k => .branch .rw (Rel.gt.holds s.acc (s.reg R)) k
  | .brgtrw R K k => .branch .rww (Rel.gt.holds (s.reg R) K) k
  | .brgtrr R1 R2 k => .branch .rrw (Rel.gt.holds (s.reg R1) (s.reg R2)) k
  | .brlte K k => .branch .ww (Rel.le.holds s.acc K) k
  | .brlter R k => .branch .rw (Rel.le.holds s.acc (s.reg R)) k
  | .brlterw R K k => .branch .rww (Rel.le.holds (s.reg R) K) k
  | .brlterr R1 R2 k => .branch .rrw (Rel.le.holds (s.reg R1) (s.reg R2)) k
  | .brgte K k => .branch .ww (Rel.ge.holds s.acc K) k
  | .brgter R k => .branch .rw (Rel.ge.holds s.acc (s.reg R)) k
  | .brgterw R K k => .branch .rww (Rel.ge.holds (s.reg R) K) k
  | .brgterr R1 R2 k => .branch .rrw (Rel.ge.holds (s.reg R1) (s.reg R2)) k
  | .lsf Rd K => .inPlace .rw Rd (shl (s.reg Rd) K)
  | .lsfr Rd R => .inPlace .rr Rd (shl (s.reg Rd) (s.reg R))
  | .rsf Rd K => .inPlace .rw Rd (shr (s.reg Rd) K)
  | .rsfr Rd R => .inPlace .rr Rd (shr (s.reg Rd) (s.reg R))
  | .wlsf Rd K => .inPlace .rw Rd (rotl (s.reg Rd) K)
  | .wlsfr Rd R => .inPlace .rr Rd (rotl (s.reg Rd) (s.reg R))
  | .wrsf Rd K => .inPlace .rw Rd (rotr (s.reg Rd) K)
  | .wrsfr Rd R => .inPlace .rr Rd (rotr (s.reg Rd) (s.reg R))
  | .and Rd K => .inPlace .rw Rd (s.reg Rd &&& K)
  | .andr Rd R => .inPlace .rr Rd (s.reg Rd &&& s.reg R)
  | .or Rd K => .inPlace .rw Rd (s.reg Rd ||| K)
  | .orr Rd R => .inPlace .rr Rd (s.reg Rd ||| s.reg R)
  | .xor Rd K => .inPlace .rw Rd (s.reg Rd ^^^ K)
  | .xorr Rd R => .inPlace .rr Rd (s.reg Rd ^^^ s.reg R)
  | .not Rd => .inPlace .r Rd (~~~(s.reg Rd))
  | .halt => .halt

/-- What an instruction may change besides PC is what the tables of R10 to R18 and R22 name. -/
def Instr.touched (s : State) (i : Instr) : Touched where
  regs := i.writtenRegs
  sp := i.movesSp
  acc := i.writesAcc
  sr := i.writesZ
  stored := ((i.action s).touched s).stored
  dev := i.reachesDevice
  status := decide (i = .halt)

end Sys2Proof

namespace Sys2Proof.Machine

/-- Every instruction's meaning is its action. -/
theorem exec_eq_perform (i : Instr) (s : State) : exec i s = perform s (i.action s) := by
  cases i <;> rfl

/-! ### What an action may change -/

/-- A result of `s` that is a next state which differs from `s` in PC and in what `c` names, and which has moved on by
the length of `p` where `p` is a format; or a fault. -/
def Answers (r : Result) (s : State) (c : Touched) (p : Option Format) : Prop :=
  (∃ t, r = .next t ∧ Frame s t c ∧ ∀ f, p = some f → PcMoved s t f.length) ∨ ∃ f, Faults r s f

theorem Answers.passing {r : Result} {s t : State} {c : Touched} {f : Format} (ht : r = .next t)
    (hframe : Frame s t c) (hpc : PcMoved s t f.length) : Answers r s c (some f) :=
  .inl ⟨t, ht, hframe, fun _ hg => Option.some.inj hg ▸ hpc⟩

theorem Answers.transfer {r : Result} {s t : State} {c : Touched} (ht : r = .next t)
    (hframe : Frame s t c) : Answers r s c none :=
  .inl ⟨t, ht, hframe, fun _ hg => nomatch hg⟩

theorem Answers.fault {r : Result} {s : State} {c : Touched} {p : Option Format} {f : RunFault}
    (h : Faults r s f) : Answers r s c p := .inr ⟨f, h⟩

theorem copyDevToMem_answers (s : State) (f : Format) (src n dst : Nat) :
    Answers (copyDevToMem s f src n dst) s { stored := [(dst, n)], dev := true } (some f) := by
  rcases copyDevToMem_spec s f src n dst with
    ⟨-, hfault⟩ | ⟨-, -, hfault⟩ | ⟨-, -, t, ht, -, -, hframe, hpc⟩
  · exact .fault hfault
  · exact .fault hfault
  · exact .passing ht hframe hpc

theorem copyMemToDev_answers (s : State) (f : Format) (src n dst : Nat) :
    Answers (copyMemToDev s f src n dst) s { dev := true } (some f) := by
  rcases copyMemToDev_spec s f src n dst with
    ⟨-, hfault⟩ | ⟨-, -, hfault⟩ | ⟨-, -, t, ht, -, hframe, hpc⟩
  · exact .fault hfault
  · exact .fault hfault
  · exact .passing ht hframe hpc

/-- A read through a pointer answers what its use of the pointer answers, or faults. -/
theorem withPointer_answers (s : State) (M : Word) (use : Nat → Result) (c : Touched) (p : Option Format)
    (h : Answers (use (s.word M.toNat).toNat) s c p) : Answers (withPointer s M use) s c p := by
  rcases withPointer_spec s M use with ⟨-, hptr⟩ | ⟨-, hfault⟩
  · rwa [hptr]
  · exact .fault hfault

/-- Everything an action can do: change PC and what it may touch, or take a fault. -/
theorem perform_answers (s : State) (a : Action) : Answers (perform s a) s (a.touched s) a.passes := by
  cases a with
  | halt => exact .transfer rfl (by simp [Frame, Action.touched])
  | skip f => exact .passing rfl (by simp [Frame, Action.touched]) (State.nextPc_toNat s f)
  | goto k => exact .transfer rfl (by simp [Frame, Action.touched])
  | branch f c k =>
    obtain ⟨t, ht, hframe, -⟩ := branchIf_spec s f c k
    exact .transfer ht hframe
  | call f target =>
    rcases callTo_spec s f target with ⟨-, t, ht, -, -, -, -, hframe⟩ | ⟨_, -, -, -, -, hfault⟩
    · exact .transfer ht hframe
    · exact .fault hfault
  | ret =>
    rcases returnFrom_spec s with ⟨-, t, ht, -, -, -, hframe⟩ | ⟨_, -, -, -, hfault⟩
    · exact .transfer ht hframe
    · exact .fault hfault
  | push f v =>
    rcases pushWord_spec s f v with ⟨-, t, ht, -, -, hframe, hpc⟩ | ⟨-, hfault⟩
    · exact .passing ht hframe hpc
    · exact .fault hfault
  | pop f Rd =>
    rcases popWord_spec s f Rd with ⟨-, t, ht, -, -, hframe, hpc⟩ | ⟨-, hfault⟩
    · exact .passing ht hframe hpc
    · exact .fault hfault
  | move f Rd v =>
    refine .passing rfl ⟨fun r hr => ?_, by simp [Action.touched]⟩ (State.nextPc_toNat s f)
    rw [State.advance_reg, State.setReg_reg_other _ _ _ _ (by simpa [Action.touched] using hr)]
  | load f a Rd =>
    rcases loadWord_spec s f a Rd with ⟨-, t, ht, -, hframe, hpc⟩ | ⟨-, hfault⟩
    · exact .passing ht hframe hpc
    · exact .fault hfault
  | store f a v =>
    rcases storeWord_spec s f a v with ⟨-, t, ht, -, hframe, hpc⟩ | ⟨-, hfault⟩
    · exact .passing ht hframe hpc
    · exact .fault hfault
  | fromDev f src n dst => exact copyDevToMem_answers s f src n dst
  | fromDevVia f src n M =>
    exact withPointer_answers s M (fun p => copyDevToMem s f src n p) _ _ (copyDevToMem_answers s f src n _)
  | toDev f src n dst => exact copyMemToDev_answers s f src n dst
  | toDevVia f M n dst =>
    exact withPointer_answers s M (fun p => copyMemToDev s f p n dst) _ _ (copyMemToDev_answers s f _ n dst)
  | accResult f e =>
    obtain ⟨t, ht, -, -, hframe, hpc⟩ := accResult_spec s f e
    exact .passing ht hframe hpc
  | regResult f Rd e =>
    obtain ⟨t, ht, -, -, hframe, hpc⟩ := regResult_spec s f Rd e
    exact .passing ht hframe hpc
  | divide f a b =>
    rcases divide_spec s f a b with ⟨-, hfault⟩ | ⟨-, t, ht, -, -, hframe, hpc⟩
    · exact .fault hfault
    · exact .passing ht hframe hpc
  | inPlace f Rd v =>
    obtain ⟨t, ht, -, -, hframe, hpc⟩ := inPlace_spec s f Rd v
    exact .passing ht hframe hpc

/-- A next state keeps all but PC, the run status and what may be touched, whether or not it is a fault. -/
theorem Answers.frame {r : Result} {s t : State} {c : Touched} {p : Option Format} (h : Answers r s c p)
    (ht : r = .next t) : Frame s t { c with status := true } := by
  rcases h with ⟨u, hu, hframe, -⟩ | ⟨f, hf⟩
  · obtain rfl : u = t := Host.Outcome.next.inj (hu.symm.trans ht)
    obtain ⟨hreg, hsp, hfp, hacc, hsr, hmem, hdev, -, hcfg⟩ := hframe
    exact ⟨hreg, hsp, hfp, hacc, hsr, hmem, hdev, nofun, hcfg⟩
  · obtain rfl := Host.Outcome.next.inj (hf.symm.trans ht)
    exact ⟨fun _ _ => rfl, fun _ => rfl, rfl, fun _ => rfl, fun _ => rfl, fun _ _ => rfl, fun _ => rfl,
      nofun, rfl⟩

/-! ### What an instruction may change -/

theorem touched_action (i : Instr) (s : State) : (i.action s).touched s = i.touched s := by
  cases i <;> rfl

theorem passes_action (i : Instr) (s : State) :
    (i.action s).passes = if i.setsPc then none else some i.format := by
  cases i <;> rfl

/-- Everything an instruction can do: change PC and what it may touch, or take a fault. -/
theorem exec_answers (i : Instr) (s : State) :
    Answers (exec i s) s (i.touched s) (if i.setsPc then none else some i.format) := by
  rw [exec_eq_perform, ← touched_action, ← passes_action i s]
  exact perform_answers s _

/-- An instruction's next state, where it has one: a fault that changes nothing else, or a state that differs in PC and
what the instruction may touch, moved on by the instruction's length unless it may transfer control. -/
theorem exec_next {i : Instr} {s t : State} (h : exec i s = .next t) :
    (∃ f, t = s.raise f) ∨
    (Frame s t (i.touched s) ∧ (i.setsPc = false → PcMoved s t i.length)) := by
  rcases exec_answers i s with ⟨u, hu, hframe, hpc⟩ | ⟨f, hf⟩
  · obtain rfl : u = t := Host.Outcome.next.inj (hu.symm.trans h)
    exact .inr ⟨hframe, fun hset => hpc _ (by simp [hset])⟩
  · exact .inl ⟨f, Host.Outcome.next.inj (h.symm.trans hf)⟩

end Sys2Proof.Machine

/-!
Noninterference. FP, ACC, SR and the device space are the parts of the state that fetching and most operations do not
read: `perform_withSide` and `exec_withSide` say what becomes of any other values of them.
-/

namespace Sys2Proof.Machine

/-- The parts of the state that not every instruction reads. -/
structure Side where
  fp : Word
  acc : Word
  sr : Word
  dev : Device

def State.side (s : State) : Side := ⟨s.fp, s.acc, s.sr, s.dev⟩

/-- The state with other side parts. -/
def State.withSide (s : State) (x : Side) : State :=
  { s with fp := x.fp, acc := x.acc, sr := x.sr, dev := x.dev }

/-- What an operation on `s` that answers `t` makes of the side parts `x` in place of those of `s`: FP is carried over;
ACC is the written one or carried over; SR and the device space come out as in `t` where they went in as in `s`. -/
structure Carried (s t : State) (x y : Side) : Prop where
  fp : y.fp = x.fp
  acc : y.acc = t.acc ∨ y.acc = x.acc ∧ t.acc = s.acc
  sr : x.sr = s.sr → y.sr = t.sr
  dev : y.dev = x.dev ∧ t.dev = s.dev ∨ x.dev = s.dev ∧ y.dev = t.dev

theorem Carried.acc_eq {s t : State} {x y : Side} (h : Carried s t x y) (hx : x.acc = s.acc) : y.acc = t.acc := by
  rcases h.acc with hnew | ⟨hold, hkept⟩
  · exact hnew
  · rw [hold, hx, hkept]

theorem Carried.dev_eq {s t : State} {x y : Side} (h : Carried s t x y) (hx : x.dev = s.dev) : y.dev = t.dev := by
  rcases h.dev with ⟨hold, hkept⟩ | ⟨-, hnew⟩
  · rw [hold, hx, hkept]
  · exact hnew

/-- Apply a function to the next state of a result. -/
def mapNext (g : State → State) : Result → Result
  | .next t => .next (g t)
  | .fault r => .fault r
  | .refused r => .refused r

/-! ### What does not read the side parts -/

section
variable (s : State) (x : Side)

theorem memValid_withSide (a n : Nat) : memValid (s.withSide x) a n = memValid s a n := rfl

@[simp] theorem withSide_sp : (s.withSide x).sp = s.sp := rfl

theorem firstBad_withSide (as : List Nat) : firstBad (s.withSide x) as = firstBad s as := by
  induction as with
  | nil => rfl
  | cons a as ih => simp only [firstBad, memValid_withSide, ih]

theorem pushAll_withSide (ws : List Word) : (s.withSide x).pushAll ws = (s.pushAll ws).withSide x := by
  induction ws generalizing s with
  | nil => rfl
  | cons v vs ih => exact ih (s.push v)

/-! ### Operations that carry the side parts over -/

theorem loadWord_withSide (f : Format) (a : Nat) (Rd : Reg) :
    loadWord (s.withSide x) f a Rd = mapNext (·.withSide x) (loadWord s f a Rd) := by
  unfold loadWord withWord
  rw [apply_ite (mapNext _)]
  rfl

theorem storeWord_withSide (f : Format) (a : Nat) (v : Word) :
    storeWord (s.withSide x) f a v = mapNext (·.withSide x) (storeWord s f a v) := by
  unfold storeWord
  rw [apply_ite (mapNext _)]
  rfl

theorem pushWord_withSide (f : Format) (v : Word) :
    pushWord (s.withSide x) f v = mapNext (·.withSide x) (pushWord s f v) := by
  unfold pushWord
  rw [apply_ite (mapNext _)]
  rfl

theorem popWord_withSide (f : Format) (Rd : Reg) :
    popWord (s.withSide x) f Rd = mapNext (·.withSide x) (popWord s f Rd) := by
  unfold popWord withWord
  rw [apply_ite (mapNext _)]
  rfl

theorem callTo_withSide (f : Format) (target : Word) :
    callTo (s.withSide x) f target = mapNext (·.withSide x) (callTo s f target) := by
  simp only [callTo, firstBad_withSide, pushAll_withSide, withSide_sp]
  split <;> rfl

theorem returnFrom_withSide : returnFrom (s.withSide x) = mapNext (·.withSide x) (returnFrom s) := by
  simp only [returnFrom, firstBad_withSide, withSide_sp]
  split <;> rfl

theorem branchIf_withSide (f : Format) (c : Bool) (k : Word) :
    branchIf (s.withSide x) f c k = mapNext (·.withSide x) (branchIf s f c k) := by
  cases c <;> rfl

/-! ### Operations on the device space -/

/-- With the same device space, a transfer carries FP, ACC and SR over. -/
theorem copyDevToMem_withSide (f : Format) (src n dst : Nat) (hdev : x.dev = s.dev) :
    copyDevToMem (s.withSide x) f src n dst =
      mapNext (fun t => t.withSide { x with dev := t.dev }) (copyDevToMem s f src n dst) := by
  obtain ⟨fp, acc, sr, _⟩ := x
  subst hdev
  unfold copyDevToMem
  rw [apply_ite (mapNext _), apply_ite (mapNext _)]
  rfl

theorem copyMemToDev_withSide (f : Format) (src n dst : Nat) (hdev : x.dev = s.dev) :
    copyMemToDev (s.withSide x) f src n dst =
      mapNext (fun t => t.withSide { x with dev := t.dev }) (copyMemToDev s f src n dst) := by
  obtain ⟨fp, acc, sr, _⟩ := x
  subst hdev
  unfold copyMemToDev
  rw [apply_ite (mapNext _), apply_ite (mapNext _)]
  rfl

theorem withPointer_withSide (M : Word) (use : State → Nat → Result)
    (huse : ∀ p, use (s.withSide x) p = mapNext (fun t => t.withSide { x with dev := t.dev }) (use s p))
    (hdev : x.dev = s.dev) :
    withPointer (s.withSide x) M (use (s.withSide x)) =
      mapNext (fun t => t.withSide { x with dev := t.dev }) (withPointer s M (use s)) := by
  obtain ⟨fp, acc, sr, _⟩ := x
  subst hdev
  rw [show use (s.withSide _) = _ from funext huse]
  unfold withPointer withWord
  rw [apply_ite (mapNext _)]
  rfl

end

/-! ### Actions and instructions -/

section
variable {s t : State} {a : Action} {x : Side}

/-- An action that writes none of the side parts carries them over. -/
theorem carried_of_untouched (h : perform s a = .next t)
    (hx : perform (s.withSide x) a = mapNext (·.withSide x) (perform s a))
    (hacc : (a.touched s).acc = false) (hsr : (a.touched s).sr = false) (hdev : (a.touched s).dev = false) :
    ∃ y, perform (s.withSide x) a = .next (t.withSide y) ∧ Carried s t x y := by
  obtain ⟨-, -, -, hacc', hsr', -, hdev', -, -⟩ := (perform_answers s a).frame h
  refine ⟨x, by rw [hx, h]; rfl, rfl, .inr ⟨rfl, hacc' hacc⟩, fun hs => hs.trans (hsr' hsr).symm,
    .inl ⟨rfl, hdev' hdev⟩⟩

/-- An action that writes of the side parts only the device space, and started from the same device space. -/
theorem carried_of_device (h : perform s a = .next t) (hdev : x.dev = s.dev)
    (hx : perform (s.withSide x) a = mapNext (fun u => u.withSide { x with dev := u.dev }) (perform s a))
    (hacc : (a.touched s).acc = false) (hsr : (a.touched s).sr = false) :
    ∃ y, perform (s.withSide x) a = .next (t.withSide y) ∧ Carried s t x y := by
  obtain ⟨-, -, -, hacc', hsr', -, -, -, -⟩ := (perform_answers s a).frame h
  exact ⟨{ x with dev := t.dev }, by rw [hx, h]; rfl, rfl, .inr ⟨rfl, hacc' hacc⟩,
    fun hs => hs.trans (hsr' hsr).symm, .inr ⟨hdev, rfl⟩⟩

/-- No action reads FP, ACC or SR but to write them, and only a transfer reads the device space. -/
theorem perform_withSide (h : perform s a = .next t) (hdev : (a.touched s).dev = true → x.dev = s.dev) :
    ∃ y, perform (s.withSide x) a = .next (t.withSide y) ∧ Carried s t x y := by
  cases a with
  | halt | skip f | goto k | move f Rd v => exact carried_of_untouched h rfl rfl rfl rfl
  | branch f c k => exact carried_of_untouched h (branchIf_withSide s x f c k) rfl rfl rfl
  | call f target => exact carried_of_untouched h (callTo_withSide s x f target) rfl rfl rfl
  | ret => exact carried_of_untouched h (returnFrom_withSide s x) rfl rfl rfl
  | push f v => exact carried_of_untouched h (pushWord_withSide s x f v) rfl rfl rfl
  | pop f Rd => exact carried_of_untouched h (popWord_withSide s x f Rd) rfl rfl rfl
  | load f a Rd => exact carried_of_untouched h (loadWord_withSide s x f a Rd) rfl rfl rfl
  | store f a v => exact carried_of_untouched h (storeWord_withSide s x f a v) rfl rfl rfl
  | fromDev f src n dst =>
    exact carried_of_device h (hdev rfl) (copyDevToMem_withSide s x f src n dst (hdev rfl)) rfl rfl
  | fromDevVia f src n M =>
    exact carried_of_device h (hdev rfl) (withPointer_withSide s x M (fun u p => copyDevToMem u f src n p)
      (fun p => copyDevToMem_withSide s x f src n p (hdev rfl)) (hdev rfl)) rfl rfl
  | toDev f src n dst =>
    exact carried_of_device h (hdev rfl) (copyMemToDev_withSide s x f src n dst (hdev rfl)) rfl rfl
  | toDevVia f M n dst =>
    exact carried_of_device h (hdev rfl) (withPointer_withSide s x M (fun u p => copyMemToDev u f p n dst)
      (fun p => copyMemToDev_withSide s x f p n dst (hdev rfl)) (hdev rfl)) rfl rfl
  | accResult f e =>
    cases h
    exact ⟨⟨x.fp, wrap e, flagsZO x.sr (wrap e) (overflows e), x.dev⟩, rfl, rfl, .inl rfl,
      fun hs => congrArg (flagsZO · _ _) hs, .inl ⟨rfl, rfl⟩⟩
  | regResult f Rd e =>
    cases h
    exact ⟨⟨x.fp, x.acc, flagsZO x.sr (wrap e) (overflows e), x.dev⟩, rfl, rfl, .inr ⟨rfl, rfl⟩,
      fun hs => congrArg (flagsZO · _ _) hs, .inl ⟨rfl, rfl⟩⟩
  | divide f a b =>
    by_cases hb : b.toNat = 0
    · obtain rfl := Host.Outcome.next.inj ((if_pos hb).symm.trans h)
      exact ⟨x, if_pos hb, rfl, .inr ⟨rfl, rfl⟩, id, .inl ⟨rfl, rfl⟩⟩
    · obtain rfl := Host.Outcome.next.inj ((if_neg hb).symm.trans h)
      exact ⟨⟨x.fp, quotient a b, flagsZO x.sr (quotient a b) false, x.dev⟩, if_neg hb, rfl, .inl rfl,
        fun hs => congrArg (flagsZO · _ _) hs, .inl ⟨rfl, rfl⟩⟩
  | inPlace f Rd v =>
    cases h
    exact ⟨⟨x.fp, x.acc, flagsZ x.sr v, x.dev⟩, rfl, rfl, .inr ⟨rfl, rfl⟩,
      fun hs => congrArg (flagsZ · _) hs, .inl ⟨rfl, rfl⟩⟩

end

/-- The operands of an instruction are read from the registers, and from ACC and SR by the branches that R14 and R18
name. -/
theorem action_withSide (i : Instr) (s : State) (x : Side) (hacc : i.readsAcc = true → x.acc = s.acc)
    (hsr : i.readsSr = true → x.sr = s.sr) : i.action (s.withSide x) = i.action s := by
  cases i with
  | brbs Sb k | brbc Sb k =>
    have hbit : (s.withSide x).srBit Sb = s.srBit Sb := congrArg (BitVec.getLsbD · _) (hsr rfl)
    simp only [Instr.action, hbit]
  | breq K k | brnq K k | brlt K k | brgt K k | brlte K k | brgte K k =>
    exact congrArg (fun v => Action.branch .ww (Rel.holds _ v K) k) (hacc rfl)
  | breqr R k | brnqr R k | brltr R k | brgtr R k | brlter R k | brgter R k =>
    exact congrArg (fun v => Action.branch .rw (Rel.holds _ v (s.reg R)) k) (hacc rfl)
  | _ => rfl

/-- What an instruction makes of other side parts, where the ones it reads are the same. -/
theorem exec_withSide {i : Instr} {s t : State} {x : Side} (h : exec i s = .next t)
    (hacc : i.readsAcc = true → x.acc = s.acc) (hsr : i.readsSr = true → x.sr = s.sr)
    (hdev : i.reachesDevice = true → x.dev = s.dev) :
    ∃ y, exec i (s.withSide x) = .next (t.withSide y) ∧ Carried s t x y := by
  rw [exec_eq_perform] at h ⊢
  rw [action_withSide i s x hacc hsr]
  exact perform_withSide h fun hd => hdev (by rwa [touched_action] at hd)

end Sys2Proof.Machine

/-!
The legal state (`State.wf`): one rule per update of the state, then one per shared operation.
-/

namespace Sys2Proof.Machine

/-! ### Updates of the state -/

section
variable {s : State}

theorem State.sr_lt_four (h : s.wf) : s.sr.toNat < 4 := by
  obtain ⟨-, -, -, hsr⟩ := h
  exact hsr

theorem State.wf_setWord (h : s.wf) {a : Nat} (ha : a + 4 ≤ s.cfg.memSize) (v : Word) : (s.setWord a v).wf := by
  obtain ⟨hcfg, ⟨hmem, hin⟩, hdev, hsr⟩ := h
  exact ⟨hcfg, ⟨Memory.writeWord_wf _ _ a v hmem, Memory.writeWord_within _ _ a _ v ha hin⟩, hdev, hsr⟩

theorem State.wf_setSr (h : s.wf) {v : Word} (hv : v.toNat < 4) : (s.setSr v).wf := by
  obtain ⟨hcfg, hmem, hdev, -⟩ := h
  exact ⟨hcfg, hmem, hdev, hv⟩

theorem State.wf_flagsZO (h : s.wf) (v : Word) (o : Bool) : (s.setSr (flagsZO s.sr v o)).wf :=
  State.wf_setSr h (flagsZO_lt_four _ v o (State.sr_lt_four h))

/-- Pushes at addresses that lie in memory keep the state legal. -/
theorem State.wf_pushAll (h : s.wf) (ws : List Word)
    (ha : ∀ j, j < ws.length → pushAddr s.sp (j + 1) + 4 ≤ s.cfg.memSize) : (s.pushAll ws).wf := by
  induction ws generalizing s with
  | nil => exact h
  | cons v vs ih =>
    have hpush : (s.push v).wf := State.wf_setWord h (ha 0 (by simp)) v
    refine ih hpush fun j hj => ?_
    rw [State.push_sp, State.push_cfg, pushAddr_succ]
    exact ha (j + 1) (by simpa using hj)

/-- A read of the device keeps its cells: the reference device has no side effect on reads (R36). -/
theorem devAfterRead_cells (s : State) (a n : Nat) : (devAfterRead s a n).cells = s.dev.cells := by
  unfold devAfterRead
  split
  · rfl
  · split <;> rfl

/-- A valid write to the device keeps its cells in canonical form inside the disk (R36). -/
theorem devAfterWrite_cells_wf (h : s.wf) (a : Nat) (bs : List Byte) (hv : devValid s a bs.length = true) :
    (devAfterWrite s a bs).cells.wf ∧ (devAfterWrite s a bs).cells.within s.cfg.diskSize := by
  obtain ⟨-, -, ⟨hcells, hin⟩, -⟩ := h
  unfold devAfterWrite
  split
  · exact ⟨hcells, hin⟩
  · rename_i hne
    split
    · rename_i hkind
      have hrange : a + bs.length ≤ s.cfg.diskSize := by simpa [devValid, hne, hkind] using hv
      exact ⟨Memory.writeBytes_wf _ a bs hcells, Memory.writeBytes_within _ a _ bs (.inr hrange) hin⟩
    · exact ⟨hcells, hin⟩

end

/-! ### Shared operations -/

/-- Every next state that a result answers is legal. -/
def NextLegal (r : Result) : Prop := ∀ t, r = .next t → t.wf

theorem NextLegal.next {t : State} (h : t.wf) : NextLegal (.next t) := by
  rintro _ ⟨⟩
  exact h

theorem NextLegal.trap {s : State} (h : s.wf) (f : RunFault) : NextLegal (trap s f) := .next h

section
variable {s : State} (h : s.wf)
include h

theorem copyDevToMem_wf (f : Format) (src n dst : Nat) : NextLegal (copyDevToMem s f src n dst) := by
  unfold copyDevToMem
  split
  · split
    · rename_i hv
      obtain ⟨hcfg, ⟨hmem, hin⟩, hdev, hsr⟩ := h
      have hrange : devBytes s src n = [] ∨ dst + (devBytes s src n).length ≤ s.cfg.memSize := by
        rw [← List.length_eq_zero_iff, devBytes_length]
        exact (memValid_iff s dst n).1 hv
      refine .next ⟨hcfg, ⟨Memory.writeBytes_wf _ dst _ hmem, Memory.writeBytes_within _ dst _ _ hrange hin⟩,
        ?_, hsr⟩
      simpa only [State.advance_dev, State.advance_cfg, State.setDev_dev, State.setDev_cfg, State.setMem_cfg,
        devAfterRead_cells] using hdev
    · exact .trap h _
  · exact .trap h _

theorem copyMemToDev_wf (f : Format) (src n dst : Nat) : NextLegal (copyMemToDev s f src n dst) := by
  unfold copyMemToDev
  split
  · split
    · rename_i hv
      have hdev := devAfterWrite_cells_wf h dst (s.mem.readBytes src n) (by rwa [Memory.readBytes_length])
      obtain ⟨hcfg, hmem, -, hsr⟩ := h
      exact .next ⟨hcfg, hmem, hdev, hsr⟩
    · exact .trap h _
  · exact .trap h _

theorem withPointer_wf (M : Word) (use : Nat → Result) (huse : ∀ p, NextLegal (use p)) :
    NextLegal (withPointer s M use) := by
  rcases withPointer_spec s M use with ⟨-, hptr⟩ | ⟨-, hfault⟩
  · rw [hptr]; exact huse _
  · rw [hfault]; exact .next h

theorem callTo_wf (f : Format) (target : Word) : NextLegal (callTo s f target) := by
  unfold callTo
  split
  · exact .trap h _
  · rename_i hok
    refine .next (State.wf_pushAll h _ fun j hj => ?_)
    rw [frameWords_length] at hj
    exact (firstBad_none_iff s _).1 hok _ (List.mem_map.2 ⟨j, List.mem_range.2 hj, rfl⟩)

/-- Every shared operation keeps a legal state legal. -/
theorem perform_wf (a : Action) : NextLegal (perform s a) := by
  cases a with
  | halt | skip f | goto k | move f Rd v => exact .next h
  | branch f c k => cases c <;> exact .next h
  | call f target => exact callTo_wf h f target
  | ret =>
    simp only [perform, returnFrom]
    split
    · exact .trap h _
    · exact .next h
  | push f v =>
    simp only [perform, pushWord]
    split
    · exact .next (State.wf_setWord h ((memValid_word_iff s _).1 ‹_›) v)
    · exact .trap h _
  | pop f Rd =>
    simp only [perform, popWord, withWord]
    split
    · exact .next h
    · exact .trap h _
  | load f a Rd =>
    simp only [perform, loadWord, withWord]
    split
    · exact .next h
    · exact .trap h _
  | store f a v =>
    simp only [perform, storeWord]
    split
    · exact .next (State.wf_setWord h ((memValid_word_iff s _).1 ‹_›) v)
    · exact .trap h _
  | fromDev f src n dst => exact copyDevToMem_wf h f src n dst
  | fromDevVia f src n M => exact withPointer_wf h M _ fun p => copyDevToMem_wf h f src n p
  | toDev f src n dst => exact copyMemToDev_wf h f src n dst
  | toDevVia f M n dst => exact withPointer_wf h M _ fun p => copyMemToDev_wf h f p n dst
  | accResult f e => exact .next (State.wf_flagsZO h _ _)
  | regResult f Rd e => exact .next (State.wf_flagsZO h _ _)
  | divide f a b =>
    simp only [perform, divide]
    split
    · exact .trap h _
    · exact .next (State.wf_flagsZO h _ _)
  | inPlace f Rd v => exact .next (State.wf_setSr h (flagsZ_lt_four _ v (State.sr_lt_four h)))

end

/-- Every instruction keeps a legal state legal. -/
theorem exec_wf {i : Instr} {s t : State} (h : s.wf) (ht : exec i s = .next t) : t.wf :=
  perform_wf h (i.action s) t ((exec_eq_perform i s).symm.trans ht)

end Sys2Proof.Machine

/-!
What an instruction does to SP and to the bits of SR, and what a step does in terms of its instruction.
-/

namespace Sys2Proof.Machine

/-! ### SP and the flags -/

/-- SP stays or moves by one word or one frame (R12, R152). -/
theorem perform_sp {s t : State} {a : Action} (h : perform s a = .next t) :
    t.sp = s.sp ∨ t.sp = s.sp + 4 ∨ t.sp = s.sp - 4 ∨ t.sp = s.sp + 36 ∨ t.sp = s.sp - 36 := by
  obtain ⟨-, hkept, -⟩ := (perform_answers s a).frame h
  cases a with
  | push f v =>
    rcases pushWord_spec s f v with ⟨-, u, hu, hsp, -⟩ | ⟨-, hfault⟩
    · obtain rfl := Host.Outcome.next.inj (hu.symm.trans h)
      exact .inr (.inl (BitVec.eq_of_toNat_eq (by simp [hsp, BitVec.toNat_add])))
    · obtain rfl := Host.Outcome.next.inj (hfault.symm.trans h)
      exact .inl rfl
  | pop f Rd =>
    rcases popWord_spec s f Rd with ⟨-, u, hu, -, hsp, -⟩ | ⟨-, hfault⟩
    · obtain rfl := Host.Outcome.next.inj (hu.symm.trans h)
      exact .inr (.inr (.inl (BitVec.eq_of_toNat_eq (by simp [hsp, BitVec.toNat_sub, Nat.add_comm]))))
    · obtain rfl := Host.Outcome.next.inj (hfault.symm.trans h)
      exact .inl rfl
  | call f target =>
    rcases callTo_spec s f target with ⟨-, u, hu, -, -, hsp, -⟩ | ⟨_, -, -, -, -, hfault⟩
    · obtain rfl := Host.Outcome.next.inj (hu.symm.trans h)
      exact .inr (.inr (.inr (.inl (BitVec.eq_of_toNat_eq (by simp [hsp, BitVec.toNat_add])))))
    · obtain rfl := Host.Outcome.next.inj (hfault.symm.trans h)
      exact .inl rfl
  | ret =>
    rcases returnFrom_spec s with ⟨-, u, hu, -, -, hsp, -⟩ | ⟨_, -, -, -, hfault⟩
    · obtain rfl := Host.Outcome.next.inj (hu.symm.trans h)
      exact .inr (.inr (.inr (.inr (BitVec.eq_of_toNat_eq (by simp [hsp, BitVec.toNat_sub, Nat.add_comm])))))
    · obtain rfl := Host.Outcome.next.inj (hfault.symm.trans h)
      exact .inl rfl
  | _ => exact .inl (hkept rfl)

/-- The actions that write O (R17). -/
def Action.writesO : Action → Bool
  | .accResult _ _ | .regResult _ _ _ | .divide _ _ _ => true
  | _ => false

theorem writesO_action (i : Instr) (s : State) : (i.action s).writesO = i.writesO := by
  cases i <;> rfl

/-- Bits 31:2 of SR stay, and O stays where the action does not write it (R15, R17). -/
theorem perform_flags {s t : State} {a : Action} (h : perform s a = .next t) :
    ReservedKept s t ∧ (a.writesO = false → t.o = s.o) := by
  have hkept : (a.touched s).sr = false → ReservedKept s t ∧ (a.writesO = false → t.o = s.o) := fun htouched => by
    obtain ⟨-, -, -, -, hsr, -⟩ := (perform_answers s a).frame h
    have hsr : t.sr = s.sr := hsr htouched
    exact ⟨fun j _ => by rw [hsr], fun _ => by rw [State.o, hsr, State.o]⟩
  cases a with
  | accResult f e =>
    obtain ⟨u, hu, -, ⟨-, -, hres⟩, -⟩ := accResult_spec s f e
    obtain rfl := Host.Outcome.next.inj (hu.symm.trans h)
    exact ⟨hres, nofun⟩
  | regResult f Rd e =>
    obtain ⟨u, hu, -, ⟨-, -, hres⟩, -⟩ := regResult_spec s f Rd e
    obtain rfl := Host.Outcome.next.inj (hu.symm.trans h)
    exact ⟨hres, nofun⟩
  | divide f a b =>
    rcases divide_spec s f a b with ⟨-, hfault⟩ | ⟨-, u, hu, -, ⟨-, -, hres⟩, -⟩
    · obtain rfl := Host.Outcome.next.inj (hfault.symm.trans h)
      exact ⟨fun _ _ => rfl, nofun⟩
    · obtain rfl := Host.Outcome.next.inj (hu.symm.trans h)
      exact ⟨hres, nofun⟩
  | inPlace f Rd v =>
    obtain ⟨u, hu, -, ⟨-, ho, hres⟩, -⟩ := inPlace_spec s f Rd v
    obtain rfl := Host.Outcome.next.inj (hu.symm.trans h)
    exact ⟨hres, fun _ => ho⟩
  | _ => exact hkept rfl

/-! ### Steps -/

theorem step_of_decoded {s : State} {i : Instr} (hrun : s.status = .running) (hi : fetchDecode s = .ok i) :
    step s = exec i s := by
  simp only [step, hrun, stoppedBy, hi]

theorem step_of_refused {s : State} {f : RunFault} (hrun : s.status = .running)
    (hf : fetchDecode s = .error f) : step s = trap s f := by
  simp only [step, hrun, stoppedBy, hf]

/-- A step that answers a next state is the decoded instruction, or a fault of fetch or decode. -/
theorem step_next {s t : State} (h : step s = .next t) :
    s.status = .running ∧
    ((∃ i, fetchDecode s = .ok i ∧ exec i s = .next t) ∨ ∃ f, fetchDecode s = .error f ∧ t = s.raise f) := by
  rcases step_cases s with ⟨r, -, hr⟩ | ⟨hrun, i, hi, hstep⟩ | ⟨hrun, f, hf, hstep⟩
  · cases hr.symm.trans h
  · exact ⟨hrun, .inl ⟨i, hi, hstep.symm.trans h⟩⟩
  · exact ⟨hrun, .inr ⟨f, hf, (Host.Outcome.next.inj (hstep.symm.trans h)).symm⟩⟩

/-! ### Bytes that follow an instruction do not change its decoding -/

theorem parse_append {o : ByteOrder} {sh : Shape} {fs : List Byte} {i : Instr} (h : sh.parse o fs = .ok i)
    (rest : List Byte) : sh.parse o (fs ++ rest) = .ok i := by
  cases sh with
  | n mk =>
    obtain ⟨-, -, rfl⟩ := parse_n_ok o mk fs i h
    rfl
  | r mk =>
    obtain ⟨r0, more, rfl, rfl⟩ := parse_r_ok o mk fs i h
    exact parse_r o mk r0 _
  | w mk =>
    obtain ⟨w0, more, rfl, rfl⟩ := parse_w_ok o mk fs i h
    rw [List.append_assoc]
    exact parse_w o mk w0 _
  | rr mk =>
    obtain ⟨r0, r1, more, rfl, rfl⟩ := parse_rr_ok o mk fs i h
    exact parse_rr o mk r0 r1 _
  | rw mk =>
    obtain ⟨r0, w1, more, rfl, rfl⟩ := parse_rw_ok o mk fs i h
    rw [List.cons_append, List.append_assoc]
    exact parse_rw o mk r0 w1 _
  | wr mk =>
    obtain ⟨w0, r1, more, rfl, rfl⟩ := parse_wr_ok o mk fs i h
    rw [List.append_assoc]
    exact parse_wr o mk w0 r1 _
  | ww mk =>
    obtain ⟨w0, w1, more, rfl, rfl⟩ := parse_ww_ok o mk fs i h
    rw [List.append_assoc, List.append_assoc]
    exact parse_ww o mk w0 w1 _
  | bw mk =>
    obtain ⟨b0, w1, more, rfl, rfl⟩ := parse_bw_ok o mk fs i h
    rw [List.cons_append, List.append_assoc]
    exact parse_bw o mk b0 w1 _
  | rrr mk =>
    obtain ⟨r0, r1, r2, more, rfl, rfl⟩ := parse_rrr_ok o mk fs i h
    exact parse_rrr o mk r0 r1 r2 _
  | rrw mk =>
    obtain ⟨r0, r1, w2, more, rfl, rfl⟩ := parse_rrw_ok o mk fs i h
    rw [List.cons_append, List.cons_append, List.append_assoc]
    exact parse_rrw o mk r0 r1 w2 _
  | rwr mk =>
    obtain ⟨r0, w1, r2, more, rfl, rfl⟩ := parse_rwr_ok o mk fs i h
    rw [List.cons_append, List.append_assoc]
    exact parse_rwr o mk r0 w1 r2 _
  | wrr mk =>
    obtain ⟨w0, r1, r2, more, rfl, rfl⟩ := parse_wrr_ok o mk fs i h
    rw [List.append_assoc]
    exact parse_wrr o mk w0 r1 r2 _
  | rww mk =>
    obtain ⟨r0, w1, w2, more, rfl, rfl⟩ := parse_rww_ok o mk fs i h
    rw [List.cons_append, List.append_assoc, List.append_assoc]
    exact parse_rww o mk r0 w1 w2 _

theorem decode_append {c : Config} {bs : List Byte} {i : Instr} (h : decode c bs = .ok i) (rest : List Byte) :
    decode c (bs ++ rest) = .ok i := by
  cases bs with
  | nil => cases h
  | cons op fs =>
    cases hsh : shapeOf c op with
    | none => simp [decode, hsh] at h
    | some sh =>
      rw [decode_of_shape hsh] at h
      rw [List.cons_append, decode_of_shape hsh]
      exact parse_append h rest

theorem length_le_ten (i : Instr) : i.length ≤ 10 := by
  unfold Instr.length
  cases i.format <;> decide

/-- Where an instruction's bytes lie in memory, the fetched bytes begin with them. -/
theorem fetchBytes_split {s : State} {n : Nat} (hten : n ≤ 10) (hin : s.pc.toNat + n ≤ s.cfg.memSize) :
    ∃ rest, fetchBytes s = s.mem.readBytes s.pc.toNat n ++ rest := by
  obtain ⟨k, hk⟩ := Nat.exists_eq_add_of_le (show n ≤ min 10 (s.cfg.memSize - s.pc.toNat) by omega)
  exact ⟨_, by rw [fetchBytes, hk, Memory.readBytes_append]⟩

theorem fetchDecode_of_decode {s : State} {i : Instr} (hin : s.pc.toNat + i.length ≤ s.cfg.memSize)
    (h : decode s.cfg (s.mem.readBytes s.pc.toNat i.length) = .ok i) : fetchDecode s = .ok i := by
  obtain ⟨rest, hrest⟩ := fetchBytes_split (length_le_ten i) hin
  rw [fetchDecode, hrest, decode_append h rest]

/-! ### The contents of a canonical store -/

theorem Memory.read_of_forall_ne (m : Memory) (a : Nat) (h : ∀ c ∈ m, c.1 ≠ a) : m.read a = unlisted := by
  induction m with
  | nil => rfl
  | cons c m ih =>
    rw [Memory.read, if_neg (h c (by simp))]
    exact ih fun d hd => h d (by simp [hd])

/-- The entries of a canonical store are its contents. -/
theorem Memory.mem_iff_read (m : Memory) (h : m.wf) (a : Nat) (b : Byte) :
    (a, b) ∈ m ↔ m.read a = b ∧ b ≠ unlisted := by
  obtain ⟨hrise, hne⟩ := h
  induction m with
  | nil => simp only [List.not_mem_nil, Memory.read, false_iff, not_and, not_not]; exact Eq.symm
  | cons c m ih =>
    obtain ⟨k, v⟩ := c
    obtain ⟨hlt, hrise⟩ := List.pairwise_cons.1 hrise
    have ih := ih hrise fun d hd => hne d (by simp [hd])
    have hv : v ≠ unlisted := hne (k, v) (by simp)
    rw [List.mem_cons, Memory.read]
    by_cases hk : k = a
    · subst hk
      have hout : (k, b) ∉ m := fun hd => absurd (hlt (k, b) hd) (lt_irrefl k)
      rw [if_pos rfl]
      constructor
      · rintro (heq | hd)
        · cases heq; exact ⟨rfl, hv⟩
        · exact absurd hd hout
      · rintro ⟨rfl, -⟩; exact .inl rfl
    · rw [if_neg hk, ← ih]
      have hhead : (a, b) ≠ (k, v) := fun heq => hk (Prod.mk.inj heq).1.symm
      simp only [hhead, false_or]

/-- The order of the entries of a canonical store. -/
abbrev cellBefore (c d : Host.Cell) : Prop := c.1 < d.1

theorem Memory.eq_of_mem_iff (m m' : Memory) (hm : m.wf) (hm' : m'.wf) (h : ∀ c, c ∈ m ↔ c ∈ m') : m = m' := by
  have _ : Std.Irrefl cellBefore := ⟨fun c => lt_irrefl c.1⟩
  have _ : Std.Antisymm cellBefore := ⟨fun _ _ hcd hdc => absurd hdc (lt_asymm hcd)⟩
  exact List.Pairwise.eq_of_mem_iff (r := cellBefore) hm.1 hm'.1 h

end Sys2Proof.Machine

/-!
The statements about the state (`10_state.md`), each from the lemmas above.
-/

namespace Sys2Proof.Machine

/-- Settles O58: the parameters are in the frame of every action, and every action keeps a legal state legal. -/
theorem stepKeepsLegalState : Obligations.StepKeepsLegalState := by
  intro s t hs hstep
  obtain ⟨-, ⟨i, -, hexec⟩ | ⟨f, -, rfl⟩⟩ := step_next hstep
  · obtain ⟨-, -, -, -, -, -, -, -, hcfg⟩ := (exec_answers i s).frame hexec
    exact ⟨exec_wf hs hexec, hcfg⟩
  · exact ⟨hs, rfl⟩

/-- Settles O44: every action answers a next state, and a refused fetch answers a fault, which is one too. -/
theorem runningMachineAlwaysSteps : Obligations.RunningMachineAlwaysSteps := by
  have hexec : ∀ (i : Instr) (s : State), ∃ t, exec i s = .next t := fun i s => by
    rcases exec_answers i s with ⟨t, ht, -⟩ | ⟨f, hf⟩
    · exact ⟨t, ht⟩
    · exact ⟨_, hf⟩
  refine ⟨hexec, fun s hrun => ?_⟩
  cases hfetch : fetchDecode s with
  | ok i => rw [step_of_decoded hrun hfetch]; exact hexec i s
  | error f => rw [step_of_refused hrun hfetch]; exact ⟨_, rfl⟩

/-- Settles O48: FP and the parameters are in the frame of every action, and FP is a side part that all carry over. -/
theorem fpAndParametersFixed : Obligations.FpAndParametersFixed := by
  intro s t hstep
  obtain ⟨hrun, ⟨i, hi, hexec⟩ | ⟨f, hf, rfl⟩⟩ := step_next hstep
  · obtain ⟨-, -, hfp, -, -, -, -, -, hcfg⟩ := (exec_answers i s).frame hexec
    refine ⟨hfp, hcfg, fun v => ?_⟩
    obtain ⟨y, hy, hcarried⟩ :=
      exec_withSide (x := { s.side with fp := v }) hexec (fun _ => rfl) (fun _ => rfl) fun _ => rfl
    have hside : t.withSide y = { t with fp := v } := by
      rw [State.withSide, hcarried.fp, hcarried.acc_eq rfl, hcarried.sr rfl, hcarried.dev_eq rfl]
    rw [← hside, ← hy]
    exact step_of_decoded hrun hi
  · exact ⟨rfl, rfl, fun v => step_of_refused hrun hf⟩

/-- Settles O49: the registers are in the frame of every instruction, but those that the table of R10 names. -/
theorem generalRegistersWritten : Obligations.GeneralRegistersWritten := by
  intro i s t r hexec hr
  obtain ⟨hreg, -⟩ := (exec_answers i s).frame hexec
  exact hreg r hr

/-- Settles O50: ACC is in the frame of all but its writers, and a side part of the instructions that do not read it. -/
theorem accWrittenAndRead : Obligations.AccWrittenAndRead := by
  intro i s t hexec
  obtain ⟨-, -, hfp, hacc, -, -, -, -, -⟩ := (exec_answers i s).frame hexec
  refine ⟨hacc, fun hreads v => ?_⟩
  obtain ⟨y, hy, hcarried⟩ := exec_withSide (x := { s.side with acc := v }) hexec
    (fun hr => absurd hr (by simp [hreads])) (fun _ => rfl) fun _ => rfl
  have hside : t.withSide y = { t with acc := y.acc } := by
    rw [State.withSide, hcarried.fp.trans hfp.symm, hcarried.sr rfl, hcarried.dev_eq rfl]
  exact ⟨y.acc, hside ▸ hy, hcarried.acc.imp_right fun ⟨hold, _⟩ => hold⟩

/-- Settles O51: SR is in the frame of all but the writers of Z, the writers of Z alone keep O, and SR is a side part
of the instructions that do not read it. -/
theorem flagsWrittenAndRead : Obligations.FlagsWrittenAndRead := by
  refine ⟨fun i s t hexec => ?_, fun s t f hstep hfault => ?_⟩
  · obtain ⟨-, -, hfp, -, hsr, -, -, -, -⟩ := (exec_answers i s).frame hexec
    obtain ⟨hres, ho⟩ := perform_flags ((exec_eq_perform i s).symm.trans hexec)
    rw [writesO_action] at ho
    refine ⟨hres, fun hz => by rw [State.z, hsr hz, State.z], ho, fun hreads v => ?_⟩
    obtain ⟨y, hy, hcarried⟩ := exec_withSide (x := { s.side with sr := v }) hexec
      (fun _ => rfl) (fun hr => absurd hr (by simp [hreads])) fun _ => rfl
    have hside : t.withSide y = { t with sr := y.sr } := by
      rw [State.withSide, hcarried.fp.trans hfp.symm, hcarried.acc_eq rfl, hcarried.dev_eq rfl]
    exact ⟨y.sr, hside ▸ hy⟩
  · obtain ⟨hrun, ⟨i, -, hexec⟩ | ⟨g, -, rfl⟩⟩ := step_next hstep
    · rcases exec_next hexec with ⟨g, rfl⟩ | ⟨⟨-, -, -, -, hsr, -, -, hstatus, -⟩, -⟩
      · rfl
      · by_cases hhalt : i = .halt
        · exact hsr (by rw [hhalt]; rfl)
        · cases hfault.symm.trans ((hstatus (decide_eq_false hhalt)).trans hrun)
    · rfl

/-- Settles O52: SP is in the frame of all but the six, and an action moves it by a word or a frame. -/
theorem spMoved : Obligations.SpMoved := by
  intro i s t hexec
  obtain ⟨-, hsp, -⟩ := (exec_answers i s).frame hexec
  exact ⟨hsp, perform_sp ((exec_eq_perform i s).symm.trans hexec)⟩

/-- Settles O53: the device space is in the frame of all but the six, and a side part of theirs. -/
theorem deviceReached : Obligations.DeviceReached := by
  intro i s t hexec hreach
  obtain ⟨-, -, hfp, -, -, -, hdev, -, -⟩ := (exec_answers i s).frame hexec
  have hdev : t.dev = s.dev := hdev hreach
  refine ⟨hdev, fun d => ?_⟩
  obtain ⟨y, hy, hcarried⟩ := exec_withSide (x := { s.side with dev := d }) hexec
    (fun _ => rfl) (fun _ => rfl) fun hr => absurd hr (by simp [hreach])
  have hd : y.dev = d := by
    rcases hcarried.dev with ⟨hold, -⟩ | ⟨hsame, hnew⟩
    · exact hold
    · rw [hnew, hdev, ← hsame]
  have hside : t.withSide y = { t with dev := d } := by
    rw [State.withSide, hcarried.fp.trans hfp.symm, hcarried.acc_eq rfl, hcarried.sr rfl, hd]
  exact hside ▸ hy

/-- Settles O55: an action that transfers no control passes on by its format's length or faults. -/
theorem nextPcLaw : Obligations.NextPcLaw := by
  intro i s t hexec hset
  rcases exec_next hexec with ⟨f, rfl⟩ | ⟨-, hpc⟩
  · exact .inr ⟨f, rfl⟩
  · exact .inl (hpc hset)

/-- Settles O60: a canonical store is the rising list of its addresses that do not read as unlisted. -/
theorem memoryIsItsContents : Obligations.MemoryIsItsContents := by
  intro m m' hm hm' hread
  refine Memory.eq_of_mem_iff m m' hm hm' fun ⟨a, b⟩ => ?_
  rw [Memory.mem_iff_read m hm, Memory.mem_iff_read m' hm', hread]

/-- Settles O41: decoding does not depend on the bytes that a fetch reads beyond the instruction. -/
theorem stepRunsDecoded : Obligations.StepRunsDecoded :=
  fun _ _ hrun hin hdecode => step_of_decoded hrun (fetchDecode_of_decode hin hdecode)

/-- Settles O43: `stoppedBy` names the reason, and a step asks it before it fetches. -/
theorem stoppedMachineTakesNoStep : Obligations.StoppedMachineTakesNoStep := by
  refine ⟨rfl, fun s => ⟨fun hs => ?_, fun f hs => ?_⟩⟩
  · rw [step, hs]; rfl
  · rw [step, hs]; rfl

/-- Settles O56: the launch check is `Launch.wf` itself, whose parts are those of a legal state. -/
theorem legalLaunch : Obligations.LegalLaunch := by
  refine fun l => ⟨fun hl => ?_, fun hl => if_neg hl⟩
  exact ⟨l.state, if_pos hl, hl, rfl, rfl, rfl, rfl, rfl, rfl, rfl, rfl, rfl, rfl, rfl⟩

theorem launchReset_wf : Launch.reset.wf := by decide

/-- Settles O57: each value is that of `Launch.reset`, which is a legal launch. -/
theorem resetValues : Obligations.ResetValues :=
  ⟨rfl, by decide, rfl, rfl, rfl, rfl, rfl, fun _ => rfl, rfl, rfl, rfl, if_pos launchReset_wf⟩

/-- Settles O59: reset is a legal launch, and a legal launch gives a legal state. -/
theorem resetIsLegal : Obligations.ResetIsLegal := launchReset_wf

end Sys2Proof.Machine

/-!
Memory and the device space (`20_memory.md`): the bytes of a word, the two kinds of device, transfers of no bytes, and
which operations leave main memory as it is.
-/

namespace Sys2Proof.Machine

/-! ### The bytes of a word -/

/-- Byte `j` of a word in memory order, most significant first (R31). -/
theorem wordBytes_big_toNat (v : Word) {j : Nat} (hj : j < 4) :
    ((wordBytes .big v).getD j 0).toNat = v.toNat / 2 ^ (8 * (3 - j)) % 2 ^ 8 := by
  match j, hj with
  | 0, _ => exact byteOf_toNat v 24
  | 1, _ => exact byteOf_toNat v 16
  | 2, _ => exact byteOf_toNat v 8
  | 3, _ => exact byteOf_toNat v 0

/-- Byte `j` of a word in memory order, least significant first (R31). -/
theorem wordBytes_little_toNat (v : Word) {j : Nat} (hj : j < 4) :
    ((wordBytes .little v).getD j 0).toNat = v.toNat / 2 ^ (8 * j) % 2 ^ 8 := by
  match j, hj with
  | 0, _ => exact byteOf_toNat v 0
  | 1, _ => exact byteOf_toNat v 8
  | 2, _ => exact byteOf_toNat v 16
  | 3, _ => exact byteOf_toNat v 24

theorem Memory.read_writeWord_inside (o : ByteOrder) (m : Memory) (a : Nat) (v : Word) {j : Nat} (hj : j < 4) :
    (m.writeWord o a v).read (a + j) = (wordBytes o v).getD j 0 :=
  Memory.read_writeBytes_inside m a _ j (by simpa using hj)

/-- The bytes of the word at an address are the four bytes there. -/
theorem Memory.wordBytes_readWord (o : ByteOrder) (m : Memory) (a : Nat) :
    wordBytes o (m.readWord o a) = m.readBytes a 4 :=
  wordBytes_bytesWord o _ _ _ _

/-! ### The reference device (R36) -/

section
variable {s : State} (hkind : s.cfg.device = .byteStore)
include hkind

theorem devValid_byteStore (a n : Nat) : devValid s a n = true ↔ n = 0 ∨ a + n ≤ s.cfg.diskSize := by
  simp [devValid, hkind]

theorem devBytes_byteStore (a n : Nat) : devBytes s a n = s.dev.cells.readBytes a n := by
  simp only [devBytes, hkind]

theorem devAfterRead_byteStore (a n : Nat) : devAfterRead s a n = s.dev := by
  simp only [devAfterRead, hkind, ite_self]

theorem devAfterWrite_byteStore (a : Nat) (bs : List Byte) :
    (devAfterWrite s a bs).cells = s.dev.cells.writeBytes a bs := by
  cases bs with
  | nil => rfl
  | cons b bs => simp only [devAfterWrite, hkind, reduceCtorEq, if_false]

/-- A store to the reference device within both spaces puts the bytes of memory there and does nothing else. -/
theorem copyMemToDev_byteStore (f : Format) {src n dst : Nat} (hmem : src + n ≤ s.cfg.memSize)
    (hdisk : dst + n ≤ s.cfg.diskSize) :
    ∃ t, copyMemToDev s f src n dst = .next t ∧
      (∀ i, i < n → t.dev.cells.read (dst + i) = s.mem.read (src + i)) ∧ Frame s t { dev := true } := by
  rcases copyMemToDev_spec s f src n dst with ⟨hout, -⟩ | ⟨-, hout, -⟩ | ⟨-, -, t, ht, hdev, hframe, -⟩
  · cases hout.symm.trans ((memValid_iff s src n).2 (.inr hmem))
  · cases hout.symm.trans ((devValid_byteStore hkind dst n).2 (.inr hdisk))
  · refine ⟨t, ht, fun i hi => ?_, hframe⟩
    rw [hdev, devAfterWrite_byteStore hkind, Memory.read_writeBytes_inside _ dst _ i (by simpa using hi),
      Memory.readBytes_getD _ src n i hi]

/-- A load from the reference device within both spaces puts the device's bytes in memory. -/
theorem copyDevToMem_byteStore (f : Format) {src n dst : Nat} (hdisk : src + n ≤ s.cfg.diskSize)
    (hmem : dst + n ≤ s.cfg.memSize) :
    ∃ t, copyDevToMem s f src n dst = .next t ∧
      (∀ i, i < n → t.mem.read (dst + i) = s.dev.cells.read (src + i)) ∧
      Frame s t { stored := [(dst, n)], dev := true } := by
  rcases copyDevToMem_spec s f src n dst with ⟨hout, -⟩ | ⟨-, hout, -⟩ | ⟨-, -, t, ht, hread, -, hframe, -⟩
  · cases hout.symm.trans ((devValid_byteStore hkind src n).2 (.inr hdisk))
  · cases hout.symm.trans ((memValid_iff s dst n).2 (.inr hmem))
  · refine ⟨t, ht, fun i hi => ?_, hframe⟩
    rw [hread i hi, devBytes_byteStore hkind, Memory.readBytes_getD _ src n i hi]

end

/-! ### A platform's own device (R36, log entry 5) -/

section
variable {s : State} (hkind : s.cfg.device = .platform)
include hkind

theorem devValid_platform (a n : Nat) :
    devValid s a n = true ↔ n = 0 ∨ Config.platformAccepts a n = true := by
  simp [devValid, hkind]

theorem devBytes_platform_getD (a : Nat) {n i : Nat} (hi : i < n) :
    (devBytes s a n).getD i 0 = Config.platformByte s.dev.history a n i := by
  simp [devBytes, hkind, List.getD, hi]

theorem devAfterRead_platform (a : Nat) {n : Nat} (hn : n ≠ 0) :
    devAfterRead s a n = { s.dev with history := .read a n :: s.dev.history } := by
  simp only [devAfterRead, hkind, if_neg hn]

theorem devAfterWrite_platform (a : Nat) {bs : List Byte} (hbs : bs ≠ []) :
    devAfterWrite s a bs = { s.dev with history := .write a bs :: s.dev.history } := by
  simp only [devAfterWrite, hkind, if_neg hbs]

end

/-! ### Transfers of no bytes (R38, R80) -/

theorem devBytes_zero (s : State) (a : Nat) : devBytes s a 0 = [] :=
  List.eq_nil_of_length_eq_zero (devBytes_length s a 0)

theorem copyDevToMem_zero (s : State) (f : Format) (src dst : Nat) :
    copyDevToMem s f src 0 dst = .next (s.advance f) := by
  have hcopy : copyDevToMem s f src 0 dst =
      .next (((s.setMem (s.mem.writeBytes dst (devBytes s src 0))).setDev (devAfterRead s src 0)).advance f) := rfl
  rw [hcopy, devBytes_zero]
  rfl

theorem copyMemToDev_zero (s : State) (f : Format) (src dst : Nat) :
    copyMemToDev s f src 0 dst = .next (s.advance f) := rfl

/-! ### What leaves main memory as it is -/

/-- Every next state that a result of `s` answers has the main memory of `s`, as data. -/
def KeepsMem (s : State) (r : Result) : Prop := ∀ t, r = .next t → t.mem = s.mem

theorem KeepsMem.next {s t : State} (h : t.mem = s.mem) : KeepsMem s (.next t) := by
  rintro _ ⟨⟩
  exact h

theorem KeepsMem.trap (s : State) (f : RunFault) : KeepsMem s (trap s f) := .next rfl

theorem withWord_keepsMem (s : State) (a : Nat) (use : Word → Result) (huse : ∀ v, KeepsMem s (use v)) :
    KeepsMem s (withWord s a use) := by
  rcases withWord_spec s a use with ⟨-, hword⟩ | ⟨-, hfault⟩
  · rw [hword]; exact huse _
  · rw [hfault]; exact .trap s _

theorem copyMemToDev_keepsMem (s : State) (f : Format) (src n dst : Nat) :
    KeepsMem s (copyMemToDev s f src n dst) := by
  unfold copyMemToDev
  split
  · split
    · exact .next rfl
    · exact .trap s _
  · exact .trap s _

/-- The actions that write main memory (R44). -/
def Action.writesMemory : Action → Bool
  | .call _ _ | .push _ _ | .store _ _ _ | .fromDev _ _ _ _ | .fromDevVia _ _ _ _ => true
  | _ => false

theorem writesMemory_action (i : Instr) (s : State) : (i.action s).writesMemory = i.writesMemory := by
  cases i <;> rfl

theorem perform_keepsMem (s : State) {a : Action} (hwrites : a.writesMemory = false) :
    KeepsMem s (perform s a) := by
  cases a with
  | halt | skip f | goto k | move f Rd v | accResult f e | regResult f Rd e | inPlace f Rd v => exact .next rfl
  | branch f c k => cases c <;> exact .next rfl
  | ret =>
    simp only [perform, returnFrom]
    split
    · exact .trap s _
    · exact .next rfl
  | pop f Rd =>
    simp only [perform, popWord]
    exact withWord_keepsMem s _ _ fun _ => .next rfl
  | load f a Rd =>
    simp only [perform, loadWord]
    exact withWord_keepsMem s a _ fun _ => .next rfl
  | toDev f src n dst => exact copyMemToDev_keepsMem s f src n dst
  | toDevVia f M n dst => exact withWord_keepsMem s _ _ fun p => copyMemToDev_keepsMem s f p.toNat n dst
  | divide f a b =>
    simp only [perform, divide]
    split
    · exact .trap s _
    · exact .next rfl
  | call | push | store | fromDev | fromDevVia => cases hwrites

end Sys2Proof.Machine

/-!
The statements about memory and the device space (`20_memory.md`), each from the lemmas above.
-/

namespace Sys2Proof.Machine

/-- Settles O6: MEM_SIZE is at most 2^32 in a legal state, so the exact end of the access lies outside memory. -/
theorem addressSumsDoNotWrap : Obligations.AddressSumsDoNotWrap := by
  intro s hs Ro Rd R K k
  obtain ⟨⟨-, hsize, -⟩, -⟩ := hs
  refine ⟨fun hend => ?_, fun hn hend => ?_⟩
  · rcases loadWord_spec s .rwr (regOffsetAddr s Ro K) Rd with ⟨hin, -⟩ | ⟨-, hfault⟩
    · unfold regOffsetAddr at hin; omega
    · exact hfault
  · have hout : memValid s k.toNat (s.reg R).toNat ≠ true := fun hv => by
      rcases (memValid_iff s _ _).1 hv with hzero | hin
      · exact hn hzero
      · omega
    rcases copyMemToDev_spec s .wrr (constAddr k) (byteCount s R) (regAddr s Rd) with
      ⟨-, hfault⟩ | ⟨hin, -⟩ | ⟨hin, -⟩
    · exact hfault
    · exact absurd hin hout
    · exact absurd hin hout

/-- Settles O7: a word is written as its bytes in memory order and read as the number they make. -/
theorem wordsInByteOrder : Obligations.WordsInByteOrder := by
  refine fun m a v => ⟨fun j hj => ?_, fun j hj => ?_, fun o x hx => Memory.read_writeWord_outside o m a v x hx,
    bytesWord_big_toNat _ _ _ _, bytesWord_little_toNat _ _ _ _, fun o => Memory.readWord_writeWord o m a v⟩
  · rw [Memory.read_writeWord_inside _ m a v hj, wordBytes_big_toNat v hj]
  · rw [Memory.read_writeWord_inside _ m a v hj, wordBytes_little_toNat v hj]

/-- Settles O10: the reference device's cells are read and written by the laws of a store of bytes. -/
theorem referenceDeviceIsAByteStore : Obligations.ReferenceDeviceIsAByteStore := by
  intro s hkind a n bs
  refine ⟨devValid_byteStore hkind a n, devBytes_length s a n, fun i hi => ?_, devAfterRead_byteStore hkind a n,
    fun i hi => ?_, fun x hx => ?_⟩
  · rw [devBytes_byteStore hkind, Memory.readBytes_getD _ a n i hi]
  · rw [devAfterWrite_byteStore hkind, Memory.read_writeBytes_inside _ a bs i hi]
  · rw [devAfterWrite_byteStore hkind, Memory.read_writeBytes_outside _ a bs x hx]

/-- Settles O12: a copy of no bytes is the advance alone. -/
theorem emptyBufferCopies : Obligations.EmptyBufferCopies := by
  intro s Ro R Rd k hzero
  have hcount : byteCount s R = 0 := hzero
  simp only [exec_eq_perform, Instr.action, perform, hcount, copyDevToMem_zero, copyMemToDev_zero]
  exact ⟨rfl, rfl, rfl, rfl⟩

/-- Settles O13: STORER keeps registers, memory and parameters, so LOADR reads from the device what STORER wrote. -/
theorem bufferRoundTrip : Obligations.BufferRoundTrip := by
  intro s Ro R Rd Re hkind hdisk hsrc hdst
  obtain ⟨t, ht, hcells, hreg, -, -, -, -, hkept, -, -, hcfg⟩ := copyMemToDev_byteStore hkind .rrr hsrc hdisk
  have hreg : ∀ r, t.reg r = s.reg r := fun r => hreg r List.not_mem_nil
  obtain ⟨u, hu, hread, -, -, -, -, -, houtside, -⟩ :=
    copyDevToMem_byteStore (s := t) (src := (t.reg Rd).toNat) (n := (t.reg R).toNat) (dst := (t.reg Re).toNat)
      (by rwa [hcfg]) .rrr (by rwa [hreg, hreg, hcfg]) (by rwa [hreg, hreg, hcfg])
  simp only [hreg, List.forall_mem_singleton] at hread houtside
  refine ⟨t, u, ht, hu, fun i hi => ?_, fun x hx => ?_⟩
  · rw [hread i hi, hcells i hi]
  · rw [houtside x hx, hkept x nofun]

/-- Settles O47: the bytes of the stored word are the ones that the next fetch begins with. -/
theorem storedCodeIsFetched : Obligations.StoredCodeIsFetched := by
  intro s K k j hrun hfetch hk hin hdecode
  rcases storeWord_spec s .ww (constAddr k) K with
    ⟨-, t, ht, hword, ⟨-, -, -, -, -, -, -, hstatus, hcfg⟩, hpc⟩ | ⟨hout, -⟩
  · have htpc : t.pc = k := by
      rw [hk]
      exact BitVec.eq_of_toNat_eq (hpc.trans (State.nextPc_toNat s .ww).symm)
    have hbytes : t.mem.readBytes t.pc.toNat 4 = wordBytes s.cfg.byteOrder K := by
      rw [htpc, ← Memory.wordBytes_readWord s.cfg.byteOrder, ← hcfg]
      exact congrArg _ hword
    obtain ⟨rest, hrest⟩ := fetchBytes_split (s := t) (n := 4) (by decide) (by rwa [htpc, hcfg])
    have hnext : fetchDecode t = .ok j := by
      rw [fetchDecode, hrest, hbytes, hcfg, decode_append hdecode rest]
    exact ⟨t, (step_of_decoded hrun hfetch).trans ht, htpc, step_of_decoded ((hstatus rfl).trans hrun) hnext⟩
  · exact absurd hin hout

/-- Settles O54: only the actions of the instructions that R44 names reach memory. -/
theorem memoryWritten : Obligations.MemoryWritten := by
  intro i s t hexec hwrites
  rw [exec_eq_perform] at hexec
  exact perform_keepsMem s ((writesMemory_action i s).trans hwrites) t hexec

/-- Settles O11: each answer of a platform's device is an open function's, and each nonempty transfer is recorded. -/
theorem platformDeviceIsOpen : Obligations.PlatformDeviceIsOpen :=
  fun s hkind a n _ => ⟨devValid_platform hkind a n, devBytes_length s a n,
    fun _ hi => devBytes_platform_getD hkind a hi, rfl, rfl, devAfterRead_platform hkind a,
    devAfterWrite_platform hkind a⟩

end Sys2Proof.Machine

/-!
The encoding (`30_encoding.md`). `Shape.Fields` says which bytes are the fields of an instruction; the decoder reads
exactly them after an opcode, and the encoder writes exactly them, so `decode_eq_ok_iff` has decoding and encoding
undo each other. The refusals follow: unassigned opcodes, missing bytes, and the first bad field.
-/

namespace Sys2Proof

/-! ### Fields, and what the decoder and the encoder make of them (R50, R53, R59) -/

/-- The bytes of a shape's fields, in the format's order, and the instruction these fields make (R50, R53). -/
inductive Shape.Fields (o : ByteOrder) : Shape → List Byte → Instr → Prop
  | n (mk : Instr) : Fields o (.n mk) [] mk
  | r (mk : Reg → Instr) (r0 : Reg) : Fields o (.r mk) [regByte r0] (mk r0)
  | w (mk : Word → Instr) (w0 : Word) : Fields o (.w mk) (wordBytes o w0) (mk w0)
  | rr (mk : Reg → Reg → Instr) (r0 r1 : Reg) : Fields o (.rr mk) [regByte r0, regByte r1] (mk r0 r1)
  | rw (mk : Reg → Word → Instr) (r0 : Reg) (w1 : Word) :
      Fields o (.rw mk) (regByte r0 :: wordBytes o w1) (mk r0 w1)
  | wr (mk : Word → Reg → Instr) (w0 : Word) (r1 : Reg) :
      Fields o (.wr mk) (wordBytes o w0 ++ [regByte r1]) (mk w0 r1)
  | ww (mk : Word → Word → Instr) (w0 w1 : Word) :
      Fields o (.ww mk) (wordBytes o w0 ++ wordBytes o w1) (mk w0 w1)
  | bw (mk : StatusBit → Word → Instr) (b0 : StatusBit) (w1 : Word) :
      Fields o (.bw mk) (bitByte b0 :: wordBytes o w1) (mk b0 w1)
  | rrr (mk : Reg → Reg → Reg → Instr) (r0 r1 r2 : Reg) :
      Fields o (.rrr mk) [regByte r0, regByte r1, regByte r2] (mk r0 r1 r2)
  | rrw (mk : Reg → Reg → Word → Instr) (r0 r1 : Reg) (w2 : Word) :
      Fields o (.rrw mk) (regByte r0 :: regByte r1 :: wordBytes o w2) (mk r0 r1 w2)
  | rwr (mk : Reg → Word → Reg → Instr) (r0 : Reg) (w1 : Word) (r2 : Reg) :
      Fields o (.rwr mk) (regByte r0 :: (wordBytes o w1 ++ [regByte r2])) (mk r0 w1 r2)
  | wrr (mk : Word → Reg → Reg → Instr) (w0 : Word) (r1 r2 : Reg) :
      Fields o (.wrr mk) (wordBytes o w0 ++ [regByte r1, regByte r2]) (mk w0 r1 r2)
  | rww (mk : Reg → Word → Word → Instr) (r0 : Reg) (w1 w2 : Word) :
      Fields o (.rww mk) (regByte r0 :: (wordBytes o w1 ++ wordBytes o w2)) (mk r0 w1 w2)

theorem Shape.Fields.parse {o : ByteOrder} {sh : Shape} {fs : List Byte} {i : Instr} (h : sh.Fields o fs i) :
    sh.parse o fs = .ok i := by
  cases h with
  | n => rfl
  | r mk r0 => exact parse_r o mk r0 []
  | w mk w0 => simpa using parse_w o mk w0 []
  | rr mk r0 r1 => exact parse_rr o mk r0 r1 []
  | rw mk r0 w1 => simpa using parse_rw o mk r0 w1 []
  | wr mk w0 r1 => exact parse_wr o mk w0 r1 []
  | ww mk w0 w1 => simpa using parse_ww o mk w0 w1 []
  | bw mk b0 w1 => simpa using parse_bw o mk b0 w1 []
  | rrr mk r0 r1 r2 => exact parse_rrr o mk r0 r1 r2 []
  | rrw mk r0 r1 w2 => simpa using parse_rrw o mk r0 r1 w2 []
  | rwr mk r0 w1 r2 => exact parse_rwr o mk r0 w1 r2 []
  | wrr mk w0 r1 r2 => exact parse_wrr o mk w0 r1 r2 []
  | rww mk r0 w1 w2 => simpa using parse_rww o mk r0 w1 w2 []

/-- Bytes that a shape reads begin with the fields of the instruction it reads. -/
theorem fields_of_parse {o : ByteOrder} {sh : Shape} {bs : List Byte} {i : Instr} (h : sh.parse o bs = .ok i) :
    ∃ fs rest, bs = fs ++ rest ∧ sh.Fields o fs i := by
  cases sh with
  | n mk =>
    obtain ⟨-, -, rfl⟩ := parse_n_ok o mk bs i h
    exact ⟨[], bs, rfl, .n i⟩
  | r mk =>
    obtain ⟨r0, rest, rfl, rfl⟩ := parse_r_ok o mk bs i h
    exact ⟨_, rest, rfl, .r mk r0⟩
  | w mk =>
    obtain ⟨w0, rest, rfl, rfl⟩ := parse_w_ok o mk bs i h
    exact ⟨_, rest, rfl, .w mk w0⟩
  | rr mk =>
    obtain ⟨r0, r1, rest, rfl, rfl⟩ := parse_rr_ok o mk bs i h
    exact ⟨_, rest, rfl, .rr mk r0 r1⟩
  | rw mk =>
    obtain ⟨r0, w1, rest, rfl, rfl⟩ := parse_rw_ok o mk bs i h
    exact ⟨_, rest, rfl, .rw mk r0 w1⟩
  | wr mk =>
    obtain ⟨w0, r1, rest, rfl, rfl⟩ := parse_wr_ok o mk bs i h
    exact ⟨_, rest, by simp, .wr mk w0 r1⟩
  | ww mk =>
    obtain ⟨w0, w1, rest, rfl, rfl⟩ := parse_ww_ok o mk bs i h
    exact ⟨_, rest, by simp, .ww mk w0 w1⟩
  | bw mk =>
    obtain ⟨b0, w1, rest, rfl, rfl⟩ := parse_bw_ok o mk bs i h
    exact ⟨_, rest, rfl, .bw mk b0 w1⟩
  | rrr mk =>
    obtain ⟨r0, r1, r2, rest, rfl, rfl⟩ := parse_rrr_ok o mk bs i h
    exact ⟨_, rest, rfl, .rrr mk r0 r1 r2⟩
  | rrw mk =>
    obtain ⟨r0, r1, w2, rest, rfl, rfl⟩ := parse_rrw_ok o mk bs i h
    exact ⟨_, rest, rfl, .rrw mk r0 r1 w2⟩
  | rwr mk =>
    obtain ⟨r0, w1, r2, rest, rfl, rfl⟩ := parse_rwr_ok o mk bs i h
    exact ⟨_, rest, by simp, .rwr mk r0 w1 r2⟩
  | wrr mk =>
    obtain ⟨w0, r1, r2, rest, rfl, rfl⟩ := parse_wrr_ok o mk bs i h
    exact ⟨_, rest, by simp, .wrr mk w0 r1 r2⟩
  | rww mk =>
    obtain ⟨r0, w1, w2, rest, rfl, rfl⟩ := parse_rww_ok o mk bs i h
    exact ⟨_, rest, by simp, .rww mk r0 w1 w2⟩

/-- A well-formed instruction is encoded as an opcode and the fields of that opcode's shape. -/
theorem encode_fields {c : Config} {i : Instr} (h : WellFormed c i) :
    ∃ op sh fs, shapeOf c op = some sh ∧ sh.Fields c.byteOrder fs i ∧ encode c i = op :: fs := by
  cases i
  case subwr K R =>
    exact ⟨0x24, .wr .subwr, _, by simp [shapeOf, h rfl], .wr _ K R, rfl⟩
  all_goals exact ⟨_, _, _, rfl, by constructor, rfl⟩

theorem byte_eq_ofNat {b : Byte} {n : Nat} (h : b.toNat = n) : b = BitVec.ofNat 8 n := by
  rw [← h, BitVec.ofNat_toNat, BitVec.setWidth_eq]

/-- The fields of an opcode's shape make an instruction of its format, which is encoded as the opcode and them. -/
theorem encode_of_fields {c : Config} {op : Byte} {sh : Shape} {fs : List Byte} {i : Instr}
    (hsh : shapeOf c op = some sh) (h : sh.Fields c.byteOrder fs i) :
    WellFormed c i ∧ i.format = sh.format ∧ encode c i = op :: fs := by
  -- One case per row of the map: `h_26` is the row of `0x24`, which R61 makes conditional, and `h_76` is the default.
  unfold shapeOf at hsh
  split at hsh
  case h_76 => cases hsh
  case h_26 hop =>
    obtain rfl := byte_eq_ofNat hop
    split at hsh
    case h_1 hcfg =>
      cases hsh
      cases h
      exact ⟨fun _ => hcfg, rfl, rfl⟩
    case h_2 => cases hsh
  all_goals
    rename_i hop
    obtain rfl := byte_eq_ofNat hop
    cases hsh
    cases h
    exact ⟨nofun, rfl, rfl⟩

/-- Bytes that decode after an opcode are read by the opcode's shape. -/
theorem decode_cons_ok {c : Config} {op : Byte} {fs : List Byte} {i : Instr} (h : decode c (op :: fs) = .ok i) :
    ∃ sh, shapeOf c op = some sh ∧ sh.parse c.byteOrder fs = .ok i := by
  cases hsh : shapeOf c op with
  | none => simp [decode, hsh] at h
  | some sh => exact ⟨sh, rfl, (decode_of_shape hsh fs).symm.trans h⟩

theorem format_of_parse {c : Config} {op : Byte} {sh : Shape} {fs : List Byte} {i : Instr}
    (hsh : shapeOf c op = some sh) (h : sh.parse c.byteOrder fs = .ok i) : i.format = sh.format := by
  obtain ⟨_, _, -, hfields⟩ := fields_of_parse h
  obtain ⟨-, hformat, -⟩ := encode_of_fields hsh hfields
  exact hformat

/-- Instructions decoded after the same opcode have the same format. -/
theorem format_of_decode {c : Config} {op : Byte} {fs gs : List Byte} {i j : Instr}
    (hi : decode c (op :: fs) = .ok i) (hj : decode c (op :: gs) = .ok j) : i.format = j.format := by
  obtain ⟨sh, hsh, hparse⟩ := decode_cons_ok hi
  rw [decode_of_shape hsh] at hj
  exact (format_of_parse hsh hparse).trans (format_of_parse hsh hj).symm

/-- The bytes that decode to an instruction are those that begin with its encoding, where it has one. -/
theorem decode_eq_ok_iff (c : Config) (bs : List Byte) (i : Instr) :
    decode c bs = .ok i ↔ WellFormed c i ∧ ∃ rest, bs = encode c i ++ rest := by
  constructor
  · intro h
    cases bs with
    | nil => cases h
    | cons op bs =>
      obtain ⟨sh, hsh, hparse⟩ := decode_cons_ok h
      obtain ⟨fs, rest, rfl, hfields⟩ := fields_of_parse hparse
      obtain ⟨hwf, -, henc⟩ := encode_of_fields hsh hfields
      exact ⟨hwf, rest, by rw [henc, List.cons_append]⟩
  · rintro ⟨hwf, rest, rfl⟩
    obtain ⟨op, sh, fs, hsh, hfields, henc⟩ := encode_fields hwf
    rw [henc]
    exact Machine.decode_append ((decode_of_shape hsh fs).trans hfields.parse) rest

theorem decode_wellFormed {c : Config} {bs : List Byte} {i : Instr} (h : decode c bs = .ok i) : WellFormed c i :=
  ((decode_eq_ok_iff c bs i).1 h).1

theorem Format.length_bounds (f : Format) : 1 ≤ f.length ∧ f.length ≤ 10 := by
  cases f <;> decide

/-! ### The refusals of the decoder (R55, R60) -/

/-- Everything a register field can do: give a register to its use, or be refused. -/
theorem withReg_cases (n : Byte) (use : Reg → Except DecodeError Instr) :
    (¬7 < n.toNat ∧ ∃ r, withReg n use = use r) ∨
    (7 < n.toNat ∧ withReg n use = .error (.invalidRegister n)) := by
  by_cases h : n.toNat < 8
  · exact .inl ⟨by omega, ⟨n.toNat, h⟩, by rw [withReg, regField, dif_pos h]⟩
  · exact .inr ⟨by omega, by rw [withReg, regField, dif_neg h]⟩

/-- Everything a status-bit field can do: give a bit to its use, or be refused. -/
theorem withBit_cases (n : Byte) (use : StatusBit → Except DecodeError Instr) :
    (¬31 < n.toNat ∧ ∃ b, withBit n use = use b) ∨
    (31 < n.toNat ∧ withBit n use = .error (.invalidStatusBit n)) := by
  by_cases h : n.toNat < 32
  · exact .inl ⟨by omega, ⟨n.toNat, h⟩, by rw [withBit, bitField, dif_pos h]⟩
  · exact .inr ⟨by omega, by rw [withBit, bitField, dif_neg h]⟩

/-- A reading of fields does not refuse an opcode. -/
def OpcodeAccepted (r : Except DecodeError Instr) : Prop := ∀ op, r ≠ .error (.illegalOpcode op)

theorem OpcodeAccepted.ok (i : Instr) : OpcodeAccepted (.ok i) := nofun

theorem OpcodeAccepted.withReg {use : Reg → Except DecodeError Instr} (h : ∀ r, OpcodeAccepted (use r)) (n : Byte) :
    OpcodeAccepted (withReg n use) := by
  rcases withReg_cases n use with ⟨-, r, hr⟩ | ⟨-, hr⟩ <;> rw [hr]
  · exact h r
  · exact nofun

theorem OpcodeAccepted.withBit {use : StatusBit → Except DecodeError Instr} (h : ∀ b, OpcodeAccepted (use b))
    (n : Byte) : OpcodeAccepted (withBit n use) := by
  rcases withBit_cases n use with ⟨-, b, hb⟩ | ⟨-, hb⟩ <;> rw [hb]
  · exact h b
  · exact nofun

theorem parse_opcodeAccepted (o : ByteOrder) (sh : Shape) (fs : List Byte) : OpcodeAccepted (sh.parse o fs) := by
  -- The shapes by their number of register fields; `h_14` is a missing byte.
  unfold Shape.parse
  split
  case h_1 | h_3 | h_7 => exact .ok _
  case h_8 => exact .withBit (fun _ => .ok _) _
  case h_2 | h_5 | h_6 | h_13 => exact .withReg (fun _ => .ok _) _
  case h_4 | h_10 | h_11 | h_12 => exact .withReg (fun _ => .withReg (fun _ => .ok _) _) _
  case h_9 => exact .withReg (fun _ => .withReg (fun _ => .withReg (fun _ => .ok _) _) _) _
  case h_14 => exact nofun

theorem parse_of_short (o : ByteOrder) {sh : Shape} {fs : List Byte} (h : fs.length + 1 < sh.format.length) :
    sh.parse o fs = .error .truncated := by
  unfold Shape.parse
  split
  case h_14 => rfl
  all_goals
    simp only [Shape.format, Format.length, List.length_cons] at h
    omega

/-- The opcodes that R60 lists as unassigned, and the one of R61. -/
abbrev Unassigned (x : SubwrOpcode) (n : Nat) : Prop :=
  (0x06 ≤ n ∧ n ≤ 0x0F) ∨ n = 0x1F ∨ (0x2C ≤ n ∧ n ≤ 0x2F) ∨ (0x4A ≤ n ∧ n ≤ 0x4F) ∨ (0x5F ≤ n ∧ n ≤ 0xFE) ∨
    (n = 0x24 ∧ x = .none)

theorem shapeOf_eq_none_iff (c : Config) (op : Byte) :
    shapeOf c op = none ↔ Unassigned c.subwrOpcode op.toNat := by
  -- The rows as in `encode_of_fields`: `h_76` has a byte that differs from every row's.
  unfold shapeOf
  split
  case h_76 =>
    have hbyte := op.isLt
    simp only [imp_false] at *
    simp only [true_iff, Unassigned]
    omega
  case h_26 hop => cases c.subwrOpcode <;> simp [hop, Unassigned]
  all_goals
    rename_i hop
    simp [hop, Unassigned]

theorem decode_illegal_iff (c : Config) (op : Byte) (rest : List Byte) :
    decode c (op :: rest) = .error (.illegalOpcode op) ↔ shapeOf c op = none := by
  cases hsh : shapeOf c op with
  | none => simp [decode, hsh]
  | some sh => simp [decode_of_shape hsh, parse_opcodeAccepted c.byteOrder sh rest op]

/-- The map has no shape for exactly the unassigned opcodes. -/
theorem shapeless_eq_unassigned (c : Config) :
    ((List.range 256).filter fun n => (shapeOf c (BitVec.ofNat 8 n)).isNone) =
      (List.range 256).filter fun n => Unassigned c.subwrOpcode n := by
  refine List.filter_congr fun n hn => ?_
  have hn : (BitVec.ofNat 8 n).toNat = n := Nat.mod_eq_of_lt (List.mem_range.1 hn)
  rw [Bool.eq_iff_iff, Option.isNone_iff_eq_none, shapeOf_eq_none_iff, hn, decide_eq_true_iff]

/-! ### The first bad field (R55 to R57) -/

/-- Why bytes were refused. -/
def refusal : Except DecodeError Instr → Option DecodeError
  | .ok _ => none
  | .error e => some e

theorem refusal_eq_none {r : Except DecodeError Instr} (h : refusal r = none) : ∃ i, r = .ok i := by
  cases r with
  | ok i => exact ⟨i, rfl⟩
  | error e => cases h

theorem refusal_eq_some {r : Except DecodeError Instr} {e : DecodeError} (h : refusal r = some e) : r = .error e := by
  cases r with
  | ok i => cases h
  | error e' => exact congrArg _ (Option.some.inj h)

/-- The first register field of `ns` that names no register is the refusal, and `e` where there is none. -/
def fieldRefusal (ns : List Byte) (e : Option DecodeError) : Option DecodeError :=
  match ns.find? fun n => 7 < n.toNat with
  | some n => some (.invalidRegister n)
  | none => e

theorem refusal_withReg {n : Byte} {use : Reg → Except DecodeError Instr} {ns : List Byte} {e : Option DecodeError}
    (h : ∀ r, refusal (use r) = fieldRefusal ns e) : refusal (withReg n use) = fieldRefusal (n :: ns) e := by
  rcases withReg_cases n use with ⟨hn, r, hr⟩ | ⟨hn, hr⟩
  · rw [hr, h, fieldRefusal, fieldRefusal, List.find?_cons_of_neg (by simpa using hn)]
  · rw [hr, fieldRefusal, List.find?_cons_of_pos (by simpa using hn)]; rfl

theorem refusal_withBit {n : Byte} {use : StatusBit → Except DecodeError Instr}
    (h : ∀ b, refusal (use b) = none) :
    refusal (withBit n use) = if 31 < n.toNat then some (.invalidStatusBit n) else none := by
  rcases withBit_cases n use with ⟨hn, b, hb⟩ | ⟨hn, hb⟩
  · rw [hb, h, if_neg hn]
  · rw [hb, if_pos hn]; rfl

end Sys2Proof

namespace Sys2Proof.Machine

/-- The first bad field of an instruction at `a`: register fields in parameter order, then the status-bit field. -/
def firstBadField (m : Memory) (a : Nat) (f : Format) : Option DecodeError :=
  match badReg m a f with
  | some n => some (.invalidRegister n)
  | none => (badBit m a f).map .invalidStatusBit

theorem firstBadField_bw (m : Memory) (a : Nat) :
    firstBadField m a .bw =
      if 31 < (m.read (a + 1)).toNat then some (.invalidStatusBit (m.read (a + 1))) else none := by
  have hreg : badReg m a .bw = none := rfl
  simp only [firstBadField, hreg, badBit, true_and]
  split <;> rfl

theorem firstBadField_of_badReg {m : Memory} {a : Nat} {f : Format} {n : Byte} (h : badReg m a f = some n) :
    firstBadField m a f = some (.invalidRegister n) := by
  simp only [firstBadField, h]

/-- The format with a status-bit field has no register field that could be refused before it. -/
theorem firstBadField_of_badBit {m : Memory} {a : Nat} {f : Format} {n : Byte} (h : badBit m a f = some n) :
    firstBadField m a f = some (.invalidStatusBit n) := by
  obtain rfl : f = .bw := by
    by_contra hf
    simp [badBit, hf] at h
  exact congrArg (Option.map _) h

/-- Where a shape's bytes are all there, it is refused for its first bad field and else read. -/
theorem parse_refusal (o : ByteOrder) (m : Memory) (a : Nat) (sh : Shape) {k : Nat} (hk : sh.format.length ≤ k + 1) :
    refusal (sh.parse o (m.readBytes (a + 1) k)) = firstBadField m a sh.format := by
  obtain ⟨j, hj⟩ := Nat.exists_eq_add_of_le' hk
  cases sh with
  | n mk => rfl
  | r mk => cases hj; exact refusal_withReg fun _ => rfl
  | w mk => cases hj; rfl
  | rr mk => cases hj; exact refusal_withReg fun _ => refusal_withReg fun _ => rfl
  | rw mk => cases hj; exact refusal_withReg fun _ => rfl
  | wr mk => cases hj; exact refusal_withReg fun _ => rfl
  | ww mk => cases hj; rfl
  | bw mk => cases hj; exact (refusal_withBit fun _ => rfl).trans (firstBadField_bw m a).symm
  | rrr mk => cases hj; exact refusal_withReg fun _ => refusal_withReg fun _ => refusal_withReg fun _ => rfl
  | rrw mk => cases hj; exact refusal_withReg fun _ => refusal_withReg fun _ => rfl
  | rwr mk => cases hj; exact refusal_withReg fun _ => refusal_withReg fun _ => rfl
  | wrr mk => cases hj; exact refusal_withReg fun _ => refusal_withReg fun _ => rfl
  | rww mk => cases hj; exact refusal_withReg fun _ => rfl

/-! ### The checks of a fetch, in their order (R55) -/

theorem fetchBytes_outside {s : State} (h : s.cfg.memSize ≤ s.pc.toNat) : fetchBytes s = [] :=
  List.eq_nil_of_length_eq_zero (by rw [fetchBytes_length]; omega)

/-- A fetch inside memory has the opcode at PC and the bytes after it. -/
theorem fetchBytes_cons {s : State} (h : s.pc.toNat < s.cfg.memSize) :
    ∃ k, k + 1 = min 10 (s.cfg.memSize - s.pc.toNat) ∧
      fetchBytes s = s.mem.read s.pc.toNat :: s.mem.readBytes (s.pc.toNat + 1) k := by
  obtain ⟨k, hk⟩ := Nat.exists_eq_add_of_le' (show 1 ≤ min 10 (s.cfg.memSize - s.pc.toNat) by omega)
  exact ⟨k, hk.symm, by rw [fetchBytes, hk]; rfl⟩

section
variable {s : State} (hrun : s.status = .running)
include hrun

theorem step_faults_of_decode {e : DecodeError} (h : decode s.cfg (fetchBytes s) = .error e) :
    Faults (step s) s (fetchFault s e) := by
  rw [step_of_refused hrun (show fetchDecode s = .error (fetchFault s e) by rw [fetchDecode, h])]
  exact trap_faults s _

theorem step_of_pc_outside (h : s.cfg.memSize ≤ s.pc.toNat) :
    Faults (step s) s (.fetchOutOfRange s.pc.toNat) := by
  have hbytes := fetchBytes_outside h
  have hfault := step_faults_of_decode hrun (e := .truncated) (by rw [hbytes]; rfl)
  rwa [fetchFault, hbytes] at hfault

theorem step_of_unassigned (hpc : s.pc.toNat < s.cfg.memSize)
    (hsh : shapeOf s.cfg (s.mem.read s.pc.toNat) = none) :
    Faults (step s) s (.illegalOpcode (s.mem.read s.pc.toNat)) := by
  obtain ⟨k, -, hbytes⟩ := fetchBytes_cons hpc
  exact step_faults_of_decode hrun (by rw [hbytes]; exact (decode_illegal_iff _ _ _).2 hsh)

variable {sh : Shape} (hsh : shapeOf s.cfg (s.mem.read s.pc.toNat) = some sh)
include hsh

theorem step_of_missing_byte (hpc : s.pc.toNat < s.cfg.memSize) (h : s.cfg.memSize < s.pc.toNat + sh.format.length) :
    Faults (step s) s (.fetchOutOfRange s.cfg.memSize) := by
  obtain ⟨-, hten⟩ := sh.format.length_bounds
  obtain ⟨k, hk, hbytes⟩ := fetchBytes_cons hpc
  have hfault := step_faults_of_decode hrun (e := .truncated) (by
    rw [hbytes, decode_of_shape hsh]
    exact parse_of_short _ (by rw [Memory.readBytes_length]; omega))
  have hend : s.pc.toNat + (fetchBytes s).length = s.cfg.memSize := by rw [fetchBytes_length]; omega
  rwa [fetchFault, hend] at hfault

variable (hin : s.pc.toNat + sh.format.length ≤ s.cfg.memSize)
include hin

theorem step_of_badField {e : DecodeError} (h : firstBadField s.mem s.pc.toNat sh.format = some e) :
    Faults (step s) s (fetchFault s e) := by
  obtain ⟨hone, hten⟩ := sh.format.length_bounds
  obtain ⟨k, hk, hbytes⟩ := fetchBytes_cons (s := s) (by omega)
  refine step_faults_of_decode hrun ?_
  rw [hbytes, decode_of_shape hsh]
  exact refusal_eq_some ((parse_refusal _ _ _ sh (by omega)).trans h)

theorem step_of_good_fields (h : firstBadField s.mem s.pc.toNat sh.format = none) :
    ∃ i, i.format = sh.format ∧
      decode s.cfg (s.mem.readBytes s.pc.toNat sh.format.length) = .ok i ∧ step s = exec i s := by
  obtain ⟨hone, -⟩ := sh.format.length_bounds
  obtain ⟨k, hk⟩ := Nat.exists_eq_add_of_le' hone
  obtain ⟨i, hparse⟩ := refusal_eq_none ((parse_refusal s.cfg.byteOrder s.mem s.pc.toNat sh hk.le).trans h)
  have hformat : i.format = sh.format := format_of_parse hsh hparse
  have hdecode : decode s.cfg (s.mem.readBytes s.pc.toNat sh.format.length) = .ok i := by
    rw [hk]
    exact (decode_of_shape hsh _).trans hparse
  refine ⟨i, hformat, hdecode, step_of_decoded hrun (fetchDecode_of_decode ?_ ?_)⟩
  · rwa [Instr.length, hformat]
  · rwa [Instr.length, hformat]

end

end Sys2Proof.Machine

/-!
The statements about the encoding (`30_encoding.md`), each from the lemmas above.
-/

namespace Sys2Proof.Machine

/-- Settles O36: what an encoding begins decodes to its instruction, one direction of `decode_eq_ok_iff`. -/
theorem decodeOfEncode : Obligations.DecodeOfEncode :=
  fun c i rest hwf => (decode_eq_ok_iff c _ i).2 ⟨hwf, rest, rfl⟩

/-- Settles O37: the other direction, and an encoding has the instruction's length. -/
theorem encodeOfDecode : Obligations.EncodeOfDecode := by
  intro c bs i hdecode
  obtain ⟨hwf, rest, rfl⟩ := (decode_eq_ok_iff c bs i).1 hdecode
  rw [← Laws.encode_length c i]
  exact ⟨hwf, by simp, List.take_left⟩

/-- Settles O21: 0x22 and 0x24 have the shapes of SUB and SUBWR, and SUBWR is not well-formed without an opcode. -/
theorem subwrOpcode : Obligations.SubwrOpcode := by
  refine ⟨rfl, fun c K R rest => ⟨?_, fun hat => ?_, fun hnone => ⟨?_, ?_⟩⟩⟩
  · exact (decode_of_shape rfl _).trans (parse_rw c.byteOrder .sub R K rest)
  · exact (decode_of_shape (by simp [shapeOf, hat]) _).trans (parse_wr c.byteOrder .subwr K R rest)
  · exact (decode_illegal_iff c 0x24 rest).2 (by simp [shapeOf, hnone])
  · intro bs i hdecode
    by_contra hsubwr
    cases (decode_wellFormed hdecode (Bool.eq_true_of_not_eq_false hsubwr)).symm.trans hnone

/-- Settles O38: a byte is refused as an opcode where it has no shape, and the table of shapes is that of R60. -/
theorem unassignedOpcodes : Obligations.UnassignedOpcodes := by
  refine fun c => ⟨fun op rest => (decode_illegal_iff c op rest).trans (shapeOf_eq_none_iff c op), ?_⟩
  rw [shapeless_eq_unassigned]
  cases c.subwrOpcode <;> decide +kernel

/-- Settles O39: a decoded instruction has the format of its opcode's shape. -/
theorem opcodeFixesLength : Obligations.OpcodeFixesLength := by
  intro c op fs gs i j hi hj
  have hformat : i.format = j.format := format_of_decode hi hj
  exact ⟨hformat, congrArg Format.length hformat, i.format.length_bounds⟩

/-- Settles O42: each check of R55 by the lemma for it, a bad field as the first one in parameter order. -/
theorem fetchChecksInOrder : Obligations.FetchChecksInOrder := by
  refine fun s hrun => ⟨step_of_pc_outside hrun, fun hpc => ⟨step_of_unassigned hrun hpc, fun sh hsh => ?_⟩⟩
  refine ⟨step_of_missing_byte hrun hsh hpc, fun hin => ⟨fun n hn => ?_, fun n hn => ?_, fun hreg hbit => ?_⟩⟩
  · exact step_of_badField hrun hsh hin (firstBadField_of_badReg hn)
  · exact step_of_badField hrun hsh hin (firstBadField_of_badBit hn)
  · exact step_of_good_fields hrun hsh hin (by rw [firstBadField, hreg, hbit]; rfl)

end Sys2Proof.Machine

/-!
HALT and NOP (`40_halt_nop.md`): the encoding of an instruction from its format and bytes, the frame of moving on, and
the two statements.
-/

namespace Sys2Proof.Machine

/-- The format fixes the length of the encoding, so the rule's bytes are all that is left to show. -/
theorem encodedAs_of_encode {i : Instr} {op : Byte} {f : Format} {fields : ByteOrder → List Byte}
    (hformat : i.format = f) (hbytes : ∀ c, encode c i = op :: fields c.byteOrder) :
    EncodedAs i op f f.length fields := by
  have hlength : i.length = f.length := congrArg Format.length hformat
  exact ⟨hformat, hlength, fun c => ⟨hbytes c, (Laws.encode_length c i).trans hlength⟩⟩

theorem State.advance_frame (s : State) (f : Format) : Frame s (s.advance f) {} := by
  simp [Frame]

/-- Settles O1: HALT writes the status alone, and a halted machine takes no step. -/
theorem haltStopsTheMachine : Obligations.HaltStopsTheMachine := by
  obtain ⟨-, hstopped⟩ := stoppedMachineTakesNoStep
  refine ⟨encodedAs_of_encode rfl fun _ => rfl, fun s => ⟨rfl, .halted, ?_⟩⟩
  obtain ⟨hhalted, -⟩ := hstopped { s with status := .halted }
  exact hhalted rfl

/-- Settles O2: NOP moves on by the length of its format and does nothing else. -/
theorem nopOnlyMovesPc : Obligations.NopOnlyMovesPc :=
  ⟨encodedAs_of_encode rfl fun _ => rfl, fun s => ⟨s.advance .n, rfl, s.advance_frame .n, State.nextPc_toNat s .n⟩⟩

end Sys2Proof.Machine

/-!
The moves (`41_move.md`): the loads and stores of a word as the effects that the statements name, the frame of a
register write, and the three statements.
-/

namespace Sys2Proof.Machine

theorem storeWord_storesWord (s : State) (f : Format) (a : Nat) (v : Word) :
    StoresWord (storeWord s f a v) s a v f.length := by
  rcases storeWord_spec s f a v with ⟨hin, hstored⟩ | ⟨hout, hfault⟩
  · exact ⟨fun _ => hstored, fun hpast => absurd hin hpast.not_ge⟩
  · exact ⟨fun hin => absurd hin hout, fun _ => hfault⟩

theorem loadWord_loadsWord (s : State) (f : Format) (a : Nat) (Rd : Reg) :
    LoadsWord (loadWord s f a Rd) s a Rd f.length := by
  rcases loadWord_spec s f a Rd with ⟨hin, hloaded⟩ | ⟨hout, hfault⟩
  · exact ⟨fun _ => hloaded, fun hpast => absurd hin hpast.not_ge⟩
  · exact ⟨fun hin => absurd hin hout, fun _ => hfault⟩

/-- A register write and then the advance: the register holds the value, and only it and PC have changed. -/
theorem State.setReg_advance_effect (s : State) (Rd : Reg) (v : Word) (f : Format) :
    ((s.setReg Rd v).advance f).reg Rd = v ∧ Frame s ((s.setReg Rd v).advance f) { regs := [Rd] } ∧
      PcMoved s ((s.setReg Rd v).advance f) f.length := by
  refine ⟨by simp, ⟨fun r hr => ?_, by simp⟩, State.nextPc_toNat s f⟩
  rw [State.advance_reg, State.setReg_reg_other _ _ _ _ (List.ne_of_not_mem_cons hr)]

/-- Settles O4: both are stores of a word at the constant address, in the formats of 9 and 6 bytes. -/
theorem storingMoves : Obligations.StoringMoves := by
  refine fun K k Ro => ⟨encodedAs_of_encode rfl fun _ => rfl, encodedAs_of_encode rfl fun _ => rfl,
    fun s => ⟨?_, ?_⟩⟩
  · exact storeWord_storesWord s .ww (constAddr k) K
  · exact storeWord_storesWord s .rw (constAddr k) (s.reg Ro)

/-- Settles O5: the three are loads of a word, at the constant, at the value of `Ro` and at the exact sum. -/
theorem loadingMoves : Obligations.LoadingMoves := by
  refine fun k K Ro Rd => ⟨encodedAs_of_encode rfl fun _ => rfl, encodedAs_of_encode rfl fun _ => rfl,
    encodedAs_of_encode rfl fun _ => rfl, fun s => ⟨?_, ?_, ?_⟩⟩
  · exact loadWord_loadsWord s .wr (constAddr k) Rd
  · exact loadWord_loadsWord s .rr (regAddr s Ro) Rd
  · exact loadWord_loadsWord s .rwr (regOffsetAddr s Ro K) Rd

/-- Settles O3: both write one register and move on; the source is read before the write, so `Rd` may be `Ro`. -/
theorem registerMoves : Obligations.RegisterMoves := by
  refine fun K Ro Rd => ⟨encodedAs_of_encode rfl fun _ => rfl, encodedAs_of_encode rfl fun _ => rfl,
    fun s => ⟨⟨_, rfl, ?_⟩, ⟨_, rfl, ?_⟩⟩⟩
  · exact s.setReg_advance_effect Rd K .wr
  · exact s.setReg_advance_effect Rd (s.reg Ro) .rr

end Sys2Proof.Machine

/-!
The buffer instructions (`42_device_buffer.md`): the two copies as the effects that the statements name, a pointer
operand inside and outside memory, and the statements of the family.
-/

namespace Sys2Proof.Machine

/-- The statements' range check is the model's (R32). -/
theorem inMemory_iff (s : State) (a n : Nat) : InMemory s a n ↔ memValid s a n = true :=
  (memValid_iff s a n).symm

theorem copyDevToMem_copiesFromDevice (s : State) (f : Format) (src n dst : Nat) :
    CopiesFromDevice (copyDevToMem s f src n dst) s src n dst f.length := by
  simp only [CopiesFromDevice, inMemory_iff]
  rcases copyDevToMem_spec s f src n dst with ⟨hdev, hfault⟩ | ⟨hdev, hmem, hfault⟩ | ⟨hdev, hmem, hcopied⟩
  · simp [hdev, hfault]
  · simp [hdev, hmem, hfault]
  · simpa [hdev, hmem] using hcopied

theorem copyMemToDev_copiesToDevice (s : State) (f : Format) (src n dst : Nat) :
    CopiesToDevice (copyMemToDev s f src n dst) s src n dst f.length := by
  simp only [CopiesToDevice, inMemory_iff]
  rcases copyMemToDev_spec s f src n dst with
    ⟨hmem, hfault⟩ | ⟨hmem, hdev, hfault⟩ | ⟨hmem, hdev, t, ht, hwritten, hframe, hpc⟩
  · simp [hmem, hfault]
  · simp [hmem, hdev, hfault]
  · have hbytes : ∀ i, i < n → (s.mem.readBytes src n).getD i 0 = s.mem.read (src + i) :=
      Memory.readBytes_getD s.mem src n
    exact ⟨fun hout => absurd hmem hout, fun _ hout => Bool.noConfusion (hdev.symm.trans hout),
      fun _ _ => ⟨t, ht, ⟨_, Memory.readBytes_length s.mem src n, hbytes, hwritten⟩, hframe, hpc⟩⟩

/-- A meaning through a pointer faults on a pointer word outside memory, whatever its use of the pointer, and else has
every property that the use has of the word read. -/
theorem withPointer_effect (s : State) (M : Word) (use : Nat → Result) (effect : Result → Nat → Prop)
    (huse : ∀ p, effect (use p) p) :
    (s.cfg.memSize < M.toNat + 4 → Faults (withPointer s M use) s (.memoryOutOfRange M.toNat 4)) ∧
    (M.toNat + 4 ≤ s.cfg.memSize → effect (withPointer s M use) (s.word M.toNat).toNat) := by
  rcases withPointer_spec s M use with ⟨hin, hptr⟩ | ⟨hout, hfault⟩
  · exact ⟨fun hpast => absurd hin hpast.not_ge, fun _ => hptr ▸ huse _⟩
  · exact ⟨fun _ => hfault, fun hin => absurd hin hout⟩

/-- Settles O8: each is the copy from the device, LOADM's through its pointer word, in formats of 7, 4 and 7 bytes. -/
theorem bufferLoads : Obligations.BufferLoads := by
  refine fun Ro R Rd k Md => ⟨encodedAs_of_encode rfl fun _ => rfl, encodedAs_of_encode rfl fun _ => rfl,
    encodedAs_of_encode rfl fun _ => rfl, fun s => ⟨?_, ?_, ?_⟩⟩
  · exact copyDevToMem_copiesFromDevice s .rrw (regAddr s Ro) (byteCount s R) (constAddr k)
  · exact copyDevToMem_copiesFromDevice s .rrr (regAddr s Ro) (byteCount s R) (regAddr s Rd)
  · exact withPointer_effect s Md (fun p => copyDevToMem s .rrw (regAddr s Ro) (byteCount s R) p)
      (fun r p => CopiesFromDevice r s (regAddr s Ro) (byteCount s R) p 7)
      fun p => copyDevToMem_copiesFromDevice s .rrw (regAddr s Ro) (byteCount s R) p

/-- Settles O9: each is the copy to the device, STOREM's through its pointer word, in formats of 7, 4 and 7 bytes. -/
theorem bufferStores : Obligations.BufferStores := by
  refine fun Ro R Rd k Mo => ⟨encodedAs_of_encode rfl fun _ => rfl, encodedAs_of_encode rfl fun _ => rfl,
    encodedAs_of_encode rfl fun _ => rfl, fun s => ⟨?_, ?_, ?_⟩⟩
  · exact copyMemToDev_copiesToDevice s .wrr (constAddr k) (byteCount s R) (regAddr s Rd)
  · exact copyMemToDev_copiesToDevice s .rrr (regAddr s Ro) (byteCount s R) (regAddr s Rd)
  · exact withPointer_effect s Mo (fun p => copyMemToDev s .wrr p (byteCount s R) (regAddr s Rd))
      (fun r p => CopiesToDevice r s p (byteCount s R) (regAddr s Rd) 7)
      fun p => copyMemToDev_copiesToDevice s .wrr p (byteCount s R) (regAddr s Rd)

/-- The bytes that encode a well-formed instruction decode to it. -/
theorem decode_of_encode_eq {c : Config} {i : Instr} {bs : List Byte} (hwf : WellFormed c i)
    (hbytes : encode c i = bs) : decode c bs = .ok i :=
  (decode_eq_ok_iff c bs i).2 ⟨hwf, [], by rw [hbytes, List.append_nil]⟩

/-- Settles O40: each byte string is the encoding of its instruction, none of which is SUBWR. -/
theorem sampleEncodings : Obligations.SampleEncodings :=
  ⟨decode_of_encode_eq nofun rfl, decode_of_encode_eq nofun rfl, decode_of_encode_eq nofun rfl,
    decode_of_encode_eq nofun rfl, decode_of_encode_eq nofun rfl, decode_of_encode_eq nofun rfl⟩

end Sys2Proof.Machine

/-!
The stack (`43_stack.md`): a push as the effect that the statements name, a pop's SP as the difference with its wrap,
a pop right after a push, and the three statements.
-/

namespace Sys2Proof.Machine

theorem pushWord_pushesWord (s : State) (f : Format) (v : Word) :
    PushesWord (pushWord s f v) s v f.length := by
  rcases pushWord_spec s f v with ⟨hin, hpushed⟩ | ⟨hout, hfault⟩
  · exact ⟨fun _ => hpushed, fun hpast => absurd hin hpast.not_ge⟩
  · exact ⟨fun hin => absurd hin hout, fun _ => hfault⟩

/-- Settles O14: both are pushes of one word, in the formats of 5 and 2 bytes. -/
theorem pushes : Obligations.Pushes := by
  refine fun K Ro => ⟨encodedAs_of_encode rfl fun _ => rfl, encodedAs_of_encode rfl fun _ => rfl,
    fun s => ⟨?_, ?_⟩⟩
  · exact pushWord_pushesWord s .w K
  · exact pushWord_pushesWord s .r (s.reg Ro)

/-- Four less modulo 2^32 is the exact difference, except that SP wraps below 4 (R12). -/
theorem sp_minus_four_eq_ite (sp : Word) :
    (sp.toNat + (2 ^ 32 - 4)) % 2 ^ 32 = if sp.toNat < 4 then sp.toNat + 2 ^ 32 - 4 else sp.toNat - 4 := by
  have hlt := sp.isLt
  split <;> omega

/-- Settles O15: POP is a pop into `Rd`, in the format of 2 bytes. -/
theorem popsTheTop : Obligations.PopsTheTop := by
  refine fun Rd => ⟨encodedAs_of_encode rfl fun _ => rfl, fun s => ?_⟩
  rw [show exec (.pop Rd) s = popWord s .r Rd from rfl, ← sp_minus_four_eq_ite]
  rcases popWord_spec s .r Rd with ⟨hin, hpopped⟩ | ⟨hout, hfault⟩
  · exact ⟨fun _ => hpopped, fun hpast => absurd hin hpast.not_ge⟩
  · exact ⟨fun hin => absurd hin hout, fun _ => hfault⟩

/-- A pop right after a push that fits cannot fault: it reads the address just written, so it puts the pushed word in
its register and takes SP back. -/
theorem popWord_of_pushWord {s t : State} {f : Format} {v : Word} (g : Format) (Rd : Reg)
    (hfits : pushAddr s.sp 1 + 4 ≤ s.cfg.memSize) (hpush : pushWord s f v = .next t) :
    ∃ u, popWord t g Rd = .next u ∧ u.reg Rd = v ∧ u.sp = s.sp ∧ ∀ r, r ≠ Rd → u.reg r = s.reg r := by
  obtain ⟨hpushed, -⟩ := pushWord_pushesWord s f v
  obtain ⟨t', ht', hsp, htop, ⟨hregs, -, -, -, -, -, -, -, hcfg⟩, -⟩ := hpushed hfits
  cases hpush.symm.trans ht'
  have hfits' : t.sp.toNat + 4 ≤ t.cfg.memSize := by rwa [hcfg, hsp, ← pushAddr_eq s.sp 1]
  rcases popWord_spec t g Rd with ⟨-, u, hu, hreg, hback, ⟨hkept, -⟩, -⟩ | ⟨hout, -⟩
  · refine ⟨u, hu, hreg.trans htop, BitVec.eq_of_toNat_eq ?_, fun r hr => ?_⟩
    · have hlt := s.sp.isLt
      omega
    · exact (hkept r (mt List.mem_singleton.1 hr)).trans (hregs r List.not_mem_nil)
  · exact absurd hfits' hout

/-- Settles O16: PUSHR and POP are the push of `Ra` and the pop into `Rb`. -/
theorem popUndoesPush : Obligations.PopUndoesPush :=
  fun _ _ _ Rb hfits hpush => popWord_of_pushWord .r Rb hfits hpush

end Sys2Proof.Machine

/-!
Arithmetic (`44_arithmetic.md`): the quotient of R93 by its two inequalities, SUBWR without an opcode, and the four
statements. `AccGets` and `RegGets` are what `accResult_spec` and `regResult_spec` say.
-/

namespace Sys2Proof.Machine

/-- The word in ACC is the floor of the quotient, which R93 describes by the two inequalities. -/
theorem divide_divides (s : State) (f : Format) (a b : Word) : Divides (divide s f a b) s a b f.length := by
  rcases divide_spec s f a b with ⟨hzero, hfault⟩ | ⟨hne, t, ht, hquot, hflags, hframe, hpc⟩
  · exact ⟨fun hne => absurd hzero hne, fun _ => hfault⟩
  · refine ⟨fun _ => ⟨t, ht, ?_, ?_, hflags, hframe, hpc⟩, fun hzero => absurd hzero hne⟩
    · rw [hquot]
      exact Nat.div_mul_le_self a.toNat b.toNat
    · rw [← Nat.div_lt_iff_lt_mul (Nat.pos_of_ne_zero hne), hquot]
      exact Nat.lt_succ_self _

/-- R61: without an opcode for SUBWR no bytes are a SUBWR, which would not be well-formed. -/
theorem decode_ne_subwr {c : Config} (hnone : c.subwrOpcode = .none) (bs : List Byte) (K : Word) (R : Reg) :
    decode c bs ≠ .ok (.subwr K R) := by
  intro hdecode
  have hat : c.subwrOpcode = .at24 := decode_wellFormed hdecode rfl
  cases hat.symm.trans hnone

/-- Settles O17: the five store their exact sum or difference in ACC. SUBWR's bytes are the same in every
configuration; only whether they decode depends on `SUBWR_OPCODE`. -/
theorem addAndSubtract : Obligations.AddAndSubtract := by
  intro K R R1 R2
  have hsubwr : EncodedAs (.subwr K R) 0x24 .wr 6 (fun o => wordBytes o K ++ [regByte R]) :=
    encodedAs_of_encode rfl fun _ => rfl
  obtain ⟨hformat, hlength, hbytes⟩ := hsubwr
  refine ⟨encodedAs_of_encode rfl fun _ => rfl, encodedAs_of_encode rfl fun _ => rfl,
    encodedAs_of_encode rfl fun _ => rfl, ⟨hformat, hlength⟩, fun c _ => hbytes c,
    fun _ bs hnone => decode_ne_subwr hnone bs K R, encodedAs_of_encode rfl fun _ => rfl,
    fun s => ⟨?_, ?_, ?_, ?_, ?_⟩⟩
  · exact accResult_spec s .wr (K.toNat + (s.reg R).toNat)
  · exact accResult_spec s .rr ((s.reg R1).toNat + (s.reg R2).toNat)
  · exact accResult_spec s .rw ((s.reg R).toNat - K.toNat)
  · exact accResult_spec s .wr (K.toNat - (s.reg R).toNat)
  · exact accResult_spec s .rr ((s.reg R1).toNat - (s.reg R2).toNat)

/-- Settles O18: both store their exact product in ACC, in the formats of 6 and 3 bytes. -/
theorem multiplications : Obligations.Multiplications := by
  refine fun K R R1 R2 => ⟨encodedAs_of_encode rfl fun _ => rfl, encodedAs_of_encode rfl fun _ => rfl,
    fun s => ⟨?_, ?_⟩⟩
  · exact accResult_spec s .wr (K.toNat * (s.reg R).toNat)
  · exact accResult_spec s .rr ((s.reg R1).toNat * (s.reg R2).toNat)

/-- Settles O19: the three are the division into ACC, by the constant, of the constant, and of two registers. -/
theorem divisions : Obligations.Divisions := by
  refine fun K R R1 R2 => ⟨encodedAs_of_encode rfl fun _ => rfl, encodedAs_of_encode rfl fun _ => rfl,
    encodedAs_of_encode rfl fun _ => rfl, fun s => ⟨?_, ?_, ?_⟩⟩
  · exact divide_divides s .rw (s.reg R) K
  · exact divide_divides s .wr K (s.reg R)
  · exact divide_divides s .rr (s.reg R1) (s.reg R2)

/-- Settles O20: both store their exact result in `Rd` itself, in the format of 2 bytes. -/
theorem incrementAndDecrement : Obligations.IncrementAndDecrement := by
  refine fun Rd => ⟨encodedAs_of_encode rfl fun _ => rfl, encodedAs_of_encode rfl fun _ => rfl,
    fun s => ⟨?_, ?_⟩⟩
  · exact regResult_spec s .r Rd ((s.reg Rd).toNat + 1)
  · exact regResult_spec s .r Rd ((s.reg Rd).toNat - 1)

end Sys2Proof.Machine


/-!
Shifts and rotates (`45_shift_rotate.md`): the results of R106 and R107 as numbers, the rotate right as the inverse of
the rotate left, and the three statements.
-/

namespace Sys2Proof.Machine

/-! ### Shifts (R106) -/

theorem shl_shiftedLeft (v n : Word) : ShiftedLeft v n (shl v n) := by
  by_cases hn : n.toNat < 32
  · simp [ShiftedLeft, shl, hn, Nat.shiftLeft_eq]
  · simp [ShiftedLeft, shl, hn]

theorem shr_shiftedRight (v n : Word) : ShiftedRight v n (shr v n) := by
  by_cases hn : n.toNat < 32
  · simp [ShiftedRight, shr, hn, Nat.shiftRight_eq_div_pow]
  · simp [ShiftedRight, shr, hn]

/-! ### Rotates (R107) -/

/-- The bits a rotate moves up end where the bits it wraps around to the bottom begin, so the two parts add up. -/
theorem toNat_shiftLeft_or_ushiftRight (v : Word) {up down : Nat} (hsum : down + up = 32) :
    (v <<< up ||| v >>> down).toNat = v.toNat * 2 ^ up % 2 ^ 32 + v.toNat / 2 ^ down := by
  have hpow : 2 ^ 32 = 2 ^ down * 2 ^ up := by rw [← pow_add, hsum]
  have hmoved : v.toNat * 2 ^ up % 2 ^ 32 = (v.toNat % 2 ^ down) <<< up := by
    rw [hpow, Nat.mul_mod_mul_right, Nat.shiftLeft_eq]
  have hwrapped : v.toNat / 2 ^ down < 2 ^ up := Nat.div_lt_of_lt_mul (hpow ▸ v.isLt)
  rw [BitVec.toNat_or, BitVec.toNat_shiftLeft, BitVec.toNat_ushiftRight, Nat.shiftLeft_eq v.toNat,
    Nat.shiftRight_eq_div_pow, hmoved, Nat.shiftLeft_add_eq_or_of_lt hwrapped]

theorem rotl_rotatedLeft (v n : Word) : RotatedLeft v n (rotl v n) :=
  toNat_shiftLeft_or_ushiftRight v (by omega)

theorem rotr_rotatedRight (v n : Word) : RotatedRight v n (rotr v n) := by
  rw [RotatedRight, rotr, BitVec.or_comm, Nat.add_comm]
  exact toNat_shiftLeft_or_ushiftRight v (by omega)

theorem rotl_eq_rotateLeft (v n : Word) : rotl v n = v.rotateLeft n.toNat := rfl

theorem rotr_eq_rotateRight (v n : Word) : rotr v n = v.rotateRight n.toNat := rfl

/-- Bit by bit: the rotate right takes a bit that was moved up, or one that was wrapped around, back to its place. -/
theorem rotr_rotl (v n : Word) : rotr (rotl v n) n = v := by
  rw [rotr_eq_rotateRight, rotl_eq_rotateLeft]
  ext i hi
  rw [BitVec.getElem_rotateRight]
  split
  · rw [BitVec.getElem_rotateLeft, dif_neg (by omega)]
    simp
  · rw [BitVec.getElem_rotateLeft, dif_pos (by omega)]
    congr 1
    omega

theorem rotl_eq_zero_iff (v n : Word) : rotl v n = 0#32 ↔ v = 0#32 := by
  constructor
  · intro hzero
    rw [← rotr_rotl v n, hzero]
    simp [rotr]
  · rintro rfl
    simp [rotl]

/-! ### The statements -/

/-- An operation in place replaces `Rd` by the value it stores, of which any property may be claimed. -/
theorem inPlace_replaces (s : State) (f : Format) (Rd : Reg) {v : Word} {holds : Word → Prop} (hv : holds v) :
    Replaces (inPlace s f Rd v) s Rd holds f.length := by
  obtain ⟨t, ht, rfl, hflags, hframe, hpc⟩ := inPlace_spec s f Rd v
  exact ⟨t, ht, hv, hflags, hframe, hpc⟩

/-- Settles O22: the four store the results of R106 in place, in the formats of 6 and 3 bytes. -/
theorem plainShifts : Obligations.PlainShifts := by
  refine fun K Rd R => ⟨encodedAs_of_encode rfl fun _ => rfl, encodedAs_of_encode rfl fun _ => rfl,
    encodedAs_of_encode rfl fun _ => rfl, encodedAs_of_encode rfl fun _ => rfl, fun s => ⟨?_, ?_, ?_, ?_⟩⟩
  · exact inPlace_replaces s .rw Rd (shl_shiftedLeft (s.reg Rd) K)
  · exact inPlace_replaces s .rr Rd (shl_shiftedLeft (s.reg Rd) (s.reg R))
  · exact inPlace_replaces s .rw Rd (shr_shiftedRight (s.reg Rd) K)
  · exact inPlace_replaces s .rr Rd (shr_shiftedRight (s.reg Rd) (s.reg R))

/-- Settles O23: the four store the results of R107 in place, in the formats of 6 and 3 bytes. -/
theorem rotates : Obligations.Rotates := by
  refine fun K Rd R => ⟨encodedAs_of_encode rfl fun _ => rfl, encodedAs_of_encode rfl fun _ => rfl,
    encodedAs_of_encode rfl fun _ => rfl, encodedAs_of_encode rfl fun _ => rfl, fun s => ⟨?_, ?_, ?_, ?_⟩⟩
  · exact inPlace_replaces s .rw Rd (rotl_rotatedLeft (s.reg Rd) K)
  · exact inPlace_replaces s .rr Rd (rotl_rotatedLeft (s.reg Rd) (s.reg R))
  · exact inPlace_replaces s .rw Rd (rotr_rotatedRight (s.reg Rd) K)
  · exact inPlace_replaces s .rr Rd (rotr_rotatedRight (s.reg Rd) (s.reg R))

/-- Settles O24: the rotate left stores 0 only from 0, and the rotate right puts `Rd` back, the one register that the
two write. -/
theorem rotateRightUndoesLeft : Obligations.RotateRightUndoesLeft := by
  intro s t Rd K hleft
  obtain ⟨t', ht', hrotated, ⟨hz, -, -⟩, ⟨hkeptLeft, -⟩, -⟩ := inPlace_spec s .rw Rd (rotl (s.reg Rd) K)
  cases hleft.symm.trans ht'
  obtain ⟨u, hu, hback, -, ⟨hkeptRight, -⟩, -⟩ := inPlace_spec t .rw Rd (rotr (t.reg Rd) K)
  refine ⟨?_, u, hu, fun r => ?_⟩
  · simp only [hz, ← isZero_iff, isZero, decide_eq_true_eq, rotl_eq_zero_iff]
  · by_cases hr : r = Rd
    · rw [hr, hback, hrotated, rotr_rotl]
    · have hother : r ∉ [Rd] := mt List.mem_singleton.1 hr
      exact (hkeptRight r hother).trans (hkeptLeft r hother)

end Sys2Proof.Machine


/-!
Logic (`46_logic.md`): the model's bit vector operations as the bit by bit results of R116, and the two statements.
-/

namespace Sys2Proof.Machine

/-! ### The results (R116) -/

theorem and_bitsAnd (v w : Word) : BitsAnd v w (v &&& w) := fun _ _ => BitVec.getLsbD_and

theorem or_bitsOr (v w : Word) : BitsOr v w (v ||| w) := fun _ _ => BitVec.getLsbD_or

theorem xor_bitsXor (v w : Word) : BitsXor v w (v ^^^ w) := by
  intro j _
  rw [BitVec.getLsbD_xor, Bool.xor_iff_ne]

/-! ### The statements -/

/-- Settles O25: the six store the results of R116 in place, in the formats of 6 and 3 bytes. -/
theorem logicInstructions : Obligations.LogicInstructions := by
  refine fun K Rd R => ⟨encodedAs_of_encode rfl fun _ => rfl, encodedAs_of_encode rfl fun _ => rfl,
    encodedAs_of_encode rfl fun _ => rfl, encodedAs_of_encode rfl fun _ => rfl,
    encodedAs_of_encode rfl fun _ => rfl, encodedAs_of_encode rfl fun _ => rfl,
    fun s => ⟨?_, ?_, ?_, ?_, ?_, ?_⟩⟩
  · exact inPlace_replaces s .rw Rd (and_bitsAnd (s.reg Rd) K)
  · exact inPlace_replaces s .rr Rd (and_bitsAnd (s.reg Rd) (s.reg R))
  · exact inPlace_replaces s .rw Rd (or_bitsOr (s.reg Rd) K)
  · exact inPlace_replaces s .rr Rd (or_bitsOr (s.reg Rd) (s.reg R))
  · exact inPlace_replaces s .rw Rd (xor_bitsXor (s.reg Rd) K)
  · exact inPlace_replaces s .rr Rd (xor_bitsXor (s.reg Rd) (s.reg R))

/-- Settles O26: NOT stores the complement in place, and the complement of `v` is `2^32 - 1 - v`. -/
theorem notInstruction : Obligations.NotInstruction := by
  refine fun Rd => ⟨encodedAs_of_encode rfl fun _ => rfl, fun s => inPlace_replaces s .r Rd ⟨BitVec.toNat_not, ?_⟩⟩
  intro j hj
  rw [BitVec.getLsbD_not, decide_eq_true hj, Bool.true_and]

end Sys2Proof.Machine


/-!
Branches (`47_branch.md`): the branch law R124 for a condition said as a proposition, the six relations of R125 over
one pair of operands, the bits of SR that are no flag, and the five statements.
-/

namespace Sys2Proof.Machine

/-! ### The branch law and the comparison law (R124, R125) -/

theorem branchIf_branches (s : State) (f : Format) (k : Word) {b : Bool} {c : Prop} (hcond : b = true ↔ c) :
    Branches (branchIf s f b k) s c k f.length := by
  obtain ⟨t, ht, hframe, htaken, hpassed⟩ := branchIf_spec s f b k
  refine ⟨t, ht, hframe, fun hc => htaken (hcond.2 hc), fun hc => hpassed ?_⟩
  exact Bool.eq_false_of_not_eq_true (mt hcond.1 hc)

/-- The six relations of R125 compare the unsigned numbers of the two words. -/
theorem comparisons_branch (s : State) (f : Format) (left right k : Word) :
    Branches (branchIf s f (Rel.eq.holds left right) k) s (left.toNat = right.toNat) k f.length ∧
    Branches (branchIf s f (Rel.ne.holds left right) k) s (left.toNat ≠ right.toNat) k f.length ∧
    Branches (branchIf s f (Rel.lt.holds left right) k) s (left.toNat < right.toNat) k f.length ∧
    Branches (branchIf s f (Rel.gt.holds left right) k) s (left.toNat > right.toNat) k f.length ∧
    Branches (branchIf s f (Rel.le.holds left right) k) s (left.toNat ≤ right.toNat) k f.length ∧
    Branches (branchIf s f (Rel.ge.holds left right) k) s (left.toNat ≥ right.toNat) k f.length :=
  ⟨branchIf_branches s f k decide_eq_true_iff, branchIf_branches s f k decide_eq_true_iff,
    branchIf_branches s f k decide_eq_true_iff, branchIf_branches s f k decide_eq_true_iff,
    branchIf_branches s f k decide_eq_true_iff, branchIf_branches s f k decide_eq_true_iff⟩

/-! ### The bits of SR that are no flag (R15) -/

theorem State.srBit_eq_false {s : State} (hwf : s.wf) {Sb : StatusBit} (hSb : 2 ≤ Sb.val) : s.srBit Sb = false :=
  (sr_lt_four_iff s.sr).1 (State.sr_lt_four hwf) Sb.val hSb

/-! ### The statements -/

/-- Settles O27: both are the branch on the bit that `Sb` names, which is 0 in a legal state where it is no flag. -/
theorem statusBitBranches : Obligations.StatusBitBranches := by
  refine fun Sb k => ⟨encodedAs_of_encode rfl fun _ => rfl, encodedAs_of_encode rfl fun _ => rfl,
    fun s => ⟨?_, ?_, fun hwf hSb => ?_⟩⟩
  · exact branchIf_branches s .bw k Iff.rfl
  · exact branchIf_branches s .bw k (Bool.not_eq_true' (s.srBit Sb)).to_iff
  · have hbit : s.srBit Sb = false := State.srBit_eq_false hwf hSb
    constructor
    · exact congrArg (branchIf s .bw · k) hbit
    · exact congrArg (fun b => branchIf s .bw (!b) k) hbit

/-- Settles O28: the six comparisons of ACC with `K`, in the format of 9 bytes. -/
theorem branchesAccWithConstant : Obligations.BranchesAccWithConstant :=
  fun K k => ⟨encodedAs_of_encode rfl fun _ => rfl, encodedAs_of_encode rfl fun _ => rfl,
    encodedAs_of_encode rfl fun _ => rfl, encodedAs_of_encode rfl fun _ => rfl,
    encodedAs_of_encode rfl fun _ => rfl, encodedAs_of_encode rfl fun _ => rfl,
    fun s => comparisons_branch s .ww s.acc K k⟩

/-- Settles O29: the six comparisons of ACC with `R`, in the format of 6 bytes. -/
theorem branchesAccWithRegister : Obligations.BranchesAccWithRegister :=
  fun R k => ⟨encodedAs_of_encode rfl fun _ => rfl, encodedAs_of_encode rfl fun _ => rfl,
    encodedAs_of_encode rfl fun _ => rfl, encodedAs_of_encode rfl fun _ => rfl,
    encodedAs_of_encode rfl fun _ => rfl, encodedAs_of_encode rfl fun _ => rfl,
    fun s => comparisons_branch s .rw s.acc (s.reg R) k⟩

/-- Settles O30: the six comparisons of `R` with `K`, in the format of 10 bytes. -/
theorem branchesRegisterWithConstant : Obligations.BranchesRegisterWithConstant :=
  fun R K k => ⟨encodedAs_of_encode rfl fun _ => rfl, encodedAs_of_encode rfl fun _ => rfl,
    encodedAs_of_encode rfl fun _ => rfl, encodedAs_of_encode rfl fun _ => rfl,
    encodedAs_of_encode rfl fun _ => rfl, encodedAs_of_encode rfl fun _ => rfl,
    fun s => comparisons_branch s .rww (s.reg R) K k⟩

/-- Settles O31: the six comparisons of `R1` with `R2`, in the format of 7 bytes. -/
theorem branchesRegisterWithRegister : Obligations.BranchesRegisterWithRegister :=
  fun R1 R2 k => ⟨encodedAs_of_encode rfl fun _ => rfl, encodedAs_of_encode rfl fun _ => rfl,
    encodedAs_of_encode rfl fun _ => rfl, encodedAs_of_encode rfl fun _ => rfl,
    encodedAs_of_encode rfl fun _ => rfl, encodedAs_of_encode rfl fun _ => rfl,
    fun s => comparisons_branch s .rrw (s.reg R1) (s.reg R2) k⟩

end Sys2Proof.Machine


/-!
Jump, call and return (`48_jump_call_return.md`): which of the nine addresses a check reports, the words of a call's
frame as a return reads them, and the four statements.
-/

namespace Sys2Proof.Machine

/-! ### The address that is reported (R154, R156) -/

/-- From `m` on, a property fails first at one place only. -/
theorem first_failure_unique {p : Nat → Prop} {m i j : Nat} (hmi : m ≤ i) (hmj : m ≤ j) (hi : ¬p i) (hj : ¬p j)
    (hupto_i : ∀ n, m ≤ n → n < i → p n) (hupto_j : ∀ n, m ≤ n → n < j → p n) : i = j :=
  le_antisymm (le_of_not_gt fun hlt => hj (hupto_i j hmj hlt)) (le_of_not_gt fun hlt => hi (hupto_j i hmi hlt))

theorem callTo_callsTo (s : State) (f : Format) (target : Word) :
    CallsTo (callTo s f target) s target f.length := by
  rcases callTo_spec s f target with
    ⟨hin, t, ht, hregs, hret, hsp, hpc, hframe⟩ | ⟨j, hj, hj9, hout, hupto, hfault⟩
  · refine ⟨fun _ => ⟨t, ht, hregs, ?_, hsp, hpc, hframe⟩, fun i hi hi9 hpast _ => ?_⟩
    · rw [hret, State.nextPc_toNat]
    · exact absurd (hin i hi hi9) hpast.not_ge
  · refine ⟨fun hin => absurd (hin j hj hj9) hout, fun i hi _ hpast hupto_i => ?_⟩
    obtain rfl : i = j := first_failure_unique (p := fun n => pushAddr s.sp n + 4 ≤ s.cfg.memSize)
      hi hj hpast.not_ge hout hupto_i hupto
    exact hfault

/-! ### The frame of a call as a return reads it (R152) -/

/-- Nine words above `sp`, pop number `j` reads what push number `9 - j` wrote, wherever SP wraps. -/
theorem popAddr_eq_pushAddr {sp top : Word} (htop : top.toNat = (sp.toNat + 36) % 2 ^ 32) {j : Nat} (hj : j ≤ 8) :
    popAddr top j = pushAddr sp (9 - j) := by
  rw [popAddr_eq top j (by omega), pushAddr_eq, htop]
  omega

/-- The word at an address is the same in states whose byte order and four bytes there are the same. -/
theorem State.word_congr {t u : State} (hcfg : u.cfg = t.cfg) {a : Nat}
    (h : ∀ i, i < 4 → u.mem.read (a + i) = t.mem.read (a + i)) : u.word a = t.word a := by
  unfold State.word
  rw [hcfg]
  refine Memory.readWord_congr _ t.mem u.mem a fun x hlow hhigh => ?_
  obtain ⟨i, rfl⟩ := Nat.exists_eq_add_of_le hlow
  exact h i (by omega)

/-- A return on the frame of a call that fits cannot fault: it pops what the call pushed and takes SP back. -/
theorem returnFrom_of_callTo {s t u : State} {f : Format} {target : Word}
    (hfits : ∀ j, 1 ≤ j → j ≤ 9 → pushAddr s.sp j + 4 ≤ s.cfg.memSize) (hcall : callTo s f target = .next t)
    (hsp : u.sp = t.sp) (hcfg : u.cfg = t.cfg)
    (hframe : ∀ j, 1 ≤ j → j ≤ 9 → u.word (pushAddr s.sp j) = t.word (pushAddr s.sp j)) :
    ∃ v, returnFrom u = .next v ∧ (∀ q, v.reg q = s.reg q) ∧ v.sp = s.sp ∧ PcMoved s v f.length ∧
      Frame u v { regs := [0, 1, 2, 3, 4, 5, 6, 7], sp := true } := by
  obtain ⟨hcalled, -⟩ := callTo_callsTo s f target
  obtain ⟨t', ht', hregs, hret, htop, -, -, -, -, -, -, -, -, -, hcfg'⟩ := hcalled hfits
  cases hcall.symm.trans ht'
  rw [← hsp] at htop
  have hpop : ∀ j, j ≤ 8 → popAddr u.sp j = pushAddr s.sp (9 - j) := fun _ => popAddr_eq_pushAddr htop
  rcases returnFrom_spec u with ⟨-, v, hv, hpopped, hpc, hback, hkept⟩ | ⟨j, hj, hout, -⟩
  · refine ⟨v, hv, fun q => ?_, BitVec.eq_of_toNat_eq ?_, ?_, hkept⟩
    · rw [hpopped q, hpop _ (by omega), show 9 - (8 - q.val) = q.val + 1 by omega,
        hframe _ (by omega) (by omega), hregs q]
    · have hlt := s.sp.isLt
      omega
    · rw [PcMoved, hpc, hpop 0 (by omega), hframe 9 (by omega) le_rfl, hret]
  · rw [hpop j hj, hcfg, hcfg'] at hout
    exact absurd (hfits (9 - j) (by omega) (by omega)) hout

/-! ### The statements -/

/-- Settles O32: JMP writes PC alone, and the next fetch makes the check that JMP does not. -/
theorem jump : Obligations.Jump := by
  refine fun k => ⟨encodedAs_of_encode rfl fun _ => rfl, fun s => ⟨s.setPc k, rfl, rfl, by simp [Frame]⟩, ?_⟩
  rintro s _ hrun hout ⟨⟩
  exact step_of_pc_outside (s := s.setPc k) hrun hout

/-- Settles O33: both are the call of a target, in the formats of 5 and 2 bytes. -/
theorem calls : Obligations.Calls :=
  fun k R => ⟨encodedAs_of_encode rfl fun _ => rfl, encodedAs_of_encode rfl fun _ => rfl,
    fun s => ⟨callTo_callsTo s .w k, callTo_callsTo s .r (s.reg R)⟩⟩

/-- Settles O34: RET is the return from a frame, which reports the first address that does not fit. -/
theorem returnPopsTheFrame : Obligations.Return := by
  refine ⟨encodedAs_of_encode rfl fun _ => rfl, fun s => ?_⟩
  rw [show exec .ret s = returnFrom s from rfl]
  rcases returnFrom_spec s with ⟨hin, t, ht, hregs, hpc, hsp, hframe⟩ | ⟨j, hj, hout, hupto, hfault⟩
  · refine ⟨fun _ => ⟨t, ht, hpc, hregs, ?_, hframe⟩, fun i hi hpast _ => absurd (hin i hi) hpast.not_ge⟩
    rw [hsp, Nat.add_sub_assoc (by decide)]
  · refine ⟨fun hin => absurd (hin j hj) hout, fun i _ hpast hupto_i => ?_⟩
    obtain rfl : i = j := first_failure_unique (p := fun n => popAddr s.sp n + 4 ≤ s.cfg.memSize)
      i.zero_le j.zero_le hpast.not_ge hout (fun n _ => hupto_i n) (fun n _ => hupto n)
    exact hfault

/-- Settles O35: RET reads the words that CALL pushed, and all else is in its frame. -/
theorem returnUndoesCall : Obligations.ReturnUndoesCall := by
  intro s t u k hfits hcall hsp hcfg hbytes
  obtain ⟨v, hv, hregs, hback, hpc, -, -, -, hacc, hsr, -⟩ := returnFrom_of_callTo hfits hcall hsp hcfg
    fun j hj hj9 => State.word_congr hcfg (hbytes j hj hj9)
  exact ⟨v, hv, hregs, hback, hpc, hacc rfl, hsr rfl, memoryWritten .ret u v hv rfl⟩

end Sys2Proof.Machine


/-!
Exceptions (`60_exceptions.md`): what an instruction and a step do to the run status, and the two statements.
-/

namespace Sys2Proof.Machine

/-- HALT halts; any other instruction keeps the status, or raises a fault and does nothing else. -/
theorem exec_status {i : Instr} {s t : State} (h : exec i s = .next t) :
    i = .halt ∧ t.status = .halted ∨ i ≠ .halt ∧ (t.status = s.status ∨ ∃ f, t = s.raise f) := by
  by_cases hhalt : i = .halt
  · subst hhalt
    cases h
    exact .inl ⟨rfl, rfl⟩
  · refine .inr ⟨hhalt, ?_⟩
    rcases exec_next h with hfault | ⟨⟨-, -, -, -, -, -, -, hstatus, -⟩, -⟩
    · exact .inr hfault
    · exact .inl (hstatus (decide_eq_false hhalt))

/-- A step that answers a next state starts running. It halts on HALT; on anything else the machine keeps running, or
the step raises a fault and does nothing else, be it in fetch, in decode or in execution. -/
theorem step_status {s t : State} (h : step s = .next t) :
    s.status = .running ∧
    (fetchDecode s = .ok .halt ∧ t.status = .halted ∨
      fetchDecode s ≠ .ok .halt ∧ (t.status = .running ∨ ∃ f, t = s.raise f)) := by
  obtain ⟨hrun, ⟨i, hi, hexec⟩ | ⟨f, hf, hfault⟩⟩ := step_next h
  · refine ⟨hrun, ?_⟩
    rw [hi, ← hrun]
    simpa using exec_status hexec
  · exact ⟨hrun, .inr ⟨by simp [hf], .inr ⟨f, hfault⟩⟩⟩

/-- Settles O45: the status of a step that halts or goes on is no fault's, and the third kind of step is the claim. -/
theorem faultsArePrecise : Obligations.FaultsArePrecise := by
  intro s t f hstep hfaulted
  obtain ⟨-, ⟨-, hhalted⟩ | ⟨-, hrunning | ⟨g, rfl⟩⟩⟩ := step_status hstep
  · cases hhalted.symm.trans hfaulted
  · cases hrunning.symm.trans hfaulted
  · cases hfaulted
    rfl

/-- Settles O46: the status is halted after HALT, and running or faulted after anything else. -/
theorem onlyHaltHalts : Obligations.OnlyHaltHalts := by
  intro s t hstep
  obtain ⟨hrun, ⟨hfetch, hhalted⟩ | ⟨hfetch, hother⟩⟩ := step_status hstep
  · exact ⟨hrun, iff_of_true hhalted hfetch⟩
  · refine ⟨hrun, iff_of_false (fun hhalted => ?_) hfetch⟩
    rcases hother with hrunning | ⟨f, rfl⟩
    · cases hrunning.symm.trans hhalted
    · cases hhalted

end Sys2Proof.Machine
